-- ==== Sys2Proof/Word.lean ====
section
/-! DEFINITION. The word types of the block (00_scope.md R10) and their plainest arithmetic: taking bytes
out of a word and putting bytes together, most significant byte first (20_memory.md R60, R61). -/

namespace Sys2Proof

/-- `u8` of R10. -/
abbrev Byte := BitVec 8

/-- `u16` of R10. -/
abbrev Half := BitVec 16

/-- `u32` of R10. -/
abbrev Word := BitVec 32

/-- The four bytes of a 32-bit word, most significant first (R60). -/
def wordBytes (w : Word) : List Byte :=
  [w.extractLsb' 24 8, w.extractLsb' 16 8, w.extractLsb' 8 8, w.extractLsb' 0 8]

/-- The two bytes of a 16-bit word, most significant first (R61). -/
def halfBytes (h : Half) : List Byte :=
  [h.extractLsb' 8 8, h.extractLsb' 0 8]

/-- A 32-bit word from its bytes, most significant first (R60). -/
def wordOfBytes (b3 b2 b1 b0 : Byte) : Word :=
  b3 ++ b2 ++ b1 ++ b0

/-- A 16-bit word from its bytes, most significant first (R61). -/
def halfOfBytes (hi lo : Byte) : Half :=
  hi ++ lo

end Sys2Proof
end

