-- ==== Sys2Proof/Config.lean ====
section
/-! DEFINITION. The implementation parameters of 00_scope.md R5 (the fixed ones as constants, the OPEN ones as the
record `Params`, which State carries so that claims hold for every value), and the free values: constants
without a body for what the spec leaves to the card, the time source or nobody. -/

namespace Sys2Proof.Config

/-- `SECTOR_SIZE` (R5). -/
abbrev sectorSize : Nat := 512
/-- `CSD_SIZE` (R5). -/
abbrev csdSize : Nat := 16
/-- `WINDOW_LEN` (R5). -/
abbrev windowLen : Nat := 8
/-- `FULL_RESP_LEN` (R5). -/
abbrev fullRespLen : Nat := 5
/-- `READ_SCAN_MAX` (R5). -/
abbrev readScanMax : Nat := 16
/-- `POWERUP_BYTES` (R5). -/
abbrev powerupBytes : Nat := 10
/-- `POWERUP_WAIT_US` (R5). -/
abbrev powerupWaitUs : Nat := 1000
/-- `RETRY_SPACING_US` (R5). -/
abbrev retrySpacingUs : Nat := 1000
/-- `TOKEN_TIMEOUT_US` (R5). -/
abbrev tokenTimeoutUs : Word := 50000#32
/-- `ATT_GO_IDLE` (R5). -/
abbrev attGoIdle : Byte := 50#8
/-- `ATT_IF_COND` (R5). -/
abbrev attIfCond : Byte := 3#8
/-- `ATT_CRC_ON` (R5). -/
abbrev attCrcOn : Byte := 3#8
/-- `ATT_VOLTAGE` (R5). -/
abbrev attVoltage : Byte := 20#8
/-- `ATT_OP_COND` (R5). -/
abbrev attOpCond : Byte := 250#8
/-- `ATT_CAPACITY` (R5). -/
abbrev attCapacity : Byte := 5#8
/-- `ATT_BLOCKLEN` (R5). -/
abbrev attBlockLen : Byte := 3#8
/-- `FILLER` (R5). -/
abbrev fillerByte : Byte := 0xFF#8
/-- `START_TOKEN` (R5). -/
abbrev startToken : Byte := 0xFE#8

/-- A byte the card answers with once the listed answers are used up: any value (93_implementation_defined.md U5).
Free value, log 4. -/
opaque cardByte : Nat → Byte

/-- A tick the time source answers with once the listed answers are used up (R312). Free value, log 5. -/
opaque clockTick : Nat → Nat

/-- The environment's poll budget of 42_policies.md R188, less one, once the listed answers of the time source are
used up. Free value, log 5. -/
opaque pollBudget : Nat → Nat

/-- An unspecified element of `RB` (10_state.md R30, 93_implementation_defined.md U2). Free value, log 6. -/
opaque unspecifiedByte : Nat → Byte

end Sys2Proof.Config

namespace Sys2Proof

/-- The OPEN parameters of R5 (93_implementation_defined.md U14). No step writes them (log 7). -/
structure Params where
  /-- `IF_COND_ARG`, the argument of CMD8 (D15). -/
  ifCondArg  : Word
  /-- `INIT_RATE_HZ` (D6). -/
  initRateHz : Nat
  /-- `XFER_RATE_HZ` (D6). -/
  xferRateHz : Nat
  /-- `SPI_BUS` (D23). -/
  spiBus     : Nat
  /-- `SPI_MODE` (D23). -/
  spiMode    : Nat
  /-- `TICK_W`, the width of a tick (D7). -/
  tickW      : Nat
  /-- `TICKS_PER_US` (D7). -/
  ticksPerUs : Nat
  deriving DecidableEq, Repr

/-- The default of `IF_COND_ARG` (D15) and the suggested values of the other parameters (D6, D7, D23); the spec
suggests no `SPI_BUS`, zero is a DESIGN CHOICE (log 7). -/
def Params.default : Params :=
  { ifCondArg := 0x0000010A#32, initRateHz := 400000, xferRateHz := 4000000, spiBus := 0, spiMode := 0,
    tickW := 32, ticksPerUs := 1 }

end Sys2Proof
end

