-- ==== Sys2Proof/Machine/Crc.lean ====
section
/-! DEFINITION. The CRC engine's two pure functions (40_crc.md R130 to R136). -/

namespace Sys2Proof.Machine

/-- One of the eight shift steps of `crc7` (R131): test bit 7, shift, then xor 0x12. -/
def crc7Bit (c : Byte) : Byte :=
  if c.msb then (c <<< 1) ^^^ 0x12#8 else c <<< 1

/-- One data byte of `crc7` (R131). -/
def crc7Byte (c b : Byte) : Byte := Nat.repeat crc7Bit 8 (c ^^^ b)

/-- The register of `crc7` before the final `or` (R131, R132). -/
def crc7Raw (data : List Byte) : Byte := data.foldl crc7Byte 0x00#8

/-- `crc7(data, len)` (R131). -/
def crc7Of (data : List Byte) : Byte := crc7Raw data ||| 0x01#8

/-- One of the eight shift steps of `crc16` (R134). -/
def crc16Bit (c : Half) : Half :=
  if c.msb then (c <<< 1) ^^^ 0x1021#16 else c <<< 1

/-- One data byte of `crc16` (R134): the byte goes into the high half of the register first. -/
def crc16Byte (c : Half) (b : Byte) : Half := Nat.repeat crc16Bit 8 (c ^^^ (b.zeroExtend 16 <<< 8))

/-- `crc16(data, len)` (R134). -/
@[irreducible] def crc16Of (data : List Byte) : Half := data.foldl crc16Byte 0x0000#16

end Sys2Proof.Machine
end

