-- ==== Sys2Proof/Syntax.lean ====
section
/-! DEFINITION. The instructions of the block in the sense of 00_scope.md R6: one constructor for each row of
spec/opcode_table.json. -/

namespace Sys2Proof

/-- The flags of `send_command` and `check_command` (41_command.md R150, 42_policies.md R180). -/
structure CmdFlags where
  /-- `app_cmd`: send the CMD55 prefix first. -/
  appCmd       : Bool
  /-- `full_response`: make sure five response bytes are in `RB`. -/
  fullResponse : Bool
  /-- `not_expect`: `check_command` succeeds on a response that differs. -/
  notExpect    : Bool
  deriving DecidableEq, Repr

/-- The empty set of flags, `{}`. -/
def CmdFlags.none : CmdFlags := { appCmd := false, fullResponse := false, notExpect := false }

/-- Where `read_block` stores the payload (44_block_io.md R250). -/
inductive BlockDest where
  /-- The sector buffer `BUF`. -/
  | buf
  /-- The CSD image `CSD`. -/
  | csd
  deriving DecidableEq, Repr

/-- The rows of the opcode table. -/
inductive Instr where
  /-- Command frame CMD0, go idle (R205). -/
  | cmd0
  /-- Command frame CMD1, operating condition of a version 1 card (R216). -/
  | cmd1
  /-- Command frame CMD8, interface condition (R207), with its argument `IF_COND_ARG`. -/
  | cmd8 (arg : Word)
  /-- Command frame CMD9, read the CSD register (R219). -/
  | cmd9
  /-- Command frame CMD16, block length 512 (R218). -/
  | cmd16
  /-- Command frame CMD17, read single block (R262), with its mapped argument. -/
  | cmd17 (arg : Word)
  /-- Command frame CMD24, write single block (R265), with its mapped argument. -/
  | cmd24 (arg : Word)
  /-- Command frame CMD55, the APP_CMD prefix (R152). -/
  | cmd55
  /-- Command frame ACMD41, operating condition of a version 2 card (R215). -/
  | acmd41
  /-- Command frame CMD58, read OCR (R213, R217). -/
  | cmd58
  /-- Command frame CMD59 with argument 1, CRC on (R211). -/
  | cmd59On
  /-- Command frame CMD59 with argument 0, CRC off (R222). -/
  | cmd59Off
  /-- Host request INIT (R223); the request's sector field is carried and ignored. -/
  | init (sector : Word)
  /-- Host request DEINIT (R222); the request's sector field is carried and ignored. -/
  | deinit (sector : Word)
  /-- Host request READ (R262). -/
  | read (sector : Word)
  /-- Host request WRITE (R268). -/
  | write (sector : Word)
  /-- Host response ST_OK (R101). -/
  | stOk
  /-- Host response ST_FAIL (R101). -/
  | stFail
  /-- Host response ST_NOINIT (R101). -/
  | stNoinit
  /-- The filler byte 0xFF (R99). -/
  | filler
  /-- The data-start token 0xFE (R97). -/
  | startBlock
  /-- A data response with low five bits 5 (R98). -/
  | drspAccepted
  /-- R0 = 0xFF: no response (R95). -/
  | r0None
  /-- R0 = 0x00: the card is ready (R95). -/
  | r0Ready
  /-- R0 = 0x01: the card is idle (R95). -/
  | r0Idle
  /-- R0 with bit 2 set: a version 1 card (R95). -/
  | r0V1
  /-- Micro-operation `crc7(data, len)` (R131). -/
  | crc7 (data : List Byte)
  /-- Micro-operation `crc16(data, len)` (R134). -/
  | crc16 (data : List Byte)
  /-- Micro-operation `send_command(command, argument, flags)` (R158). -/
  | sendCommand (cmd : BitVec 6) (arg : Word) (fl : CmdFlags)
  /-- Micro-operation `check_command(cmd, arg, flags, expected, max_attempts)` (R181). -/
  | checkCommand (cmd : BitVec 6) (arg : Word) (fl : CmdFlags) (expected : Byte) (maxAttempts : Byte)
  /-- Micro-operation `find_token(token, timeout_us)` (R186). -/
  | findToken (token : Byte) (timeoutUs : Word)
  /-- Micro-operation `read_block(cmd, arg, L, dest)` (R258). -/
  | readBlock (cmd : BitVec 6) (arg : Word) (len : Nat) (dest : BlockDest)
  deriving DecidableEq, Repr

/-- The host requests, which reach the block only through its request port (R8, D1). -/
def Instr.isRequest : Instr → Bool
  | .init _ | .deinit _ | .read _ | .write _ => true
  | .cmd0 | .cmd1 | .cmd8 _ | .cmd9 | .cmd16 | .cmd17 _ | .cmd24 _ | .cmd55 | .acmd41 | .cmd58 | .cmd59On
  | .cmd59Off | .stOk | .stFail | .stNoinit | .filler | .startBlock | .drspAccepted | .r0None | .r0Ready
  | .r0Idle | .r0V1 | .crc7 _ | .crc16 _ | .sendCommand _ _ _ | .checkCommand _ _ _ _ _ | .findToken _ _
  | .readBlock _ _ _ _ => false

end Sys2Proof
end

