-- ==== Sys2Proof/WellFormed.lean ====
section
/-! DEFINITION. Which instructions the block has: the command indices it can emit (30_encoding.md R106) and the two
shapes of `read_block` (44_block_io.md R250). -/

namespace Sys2Proof

/-- The command indices the block emits (30_encoding.md R106): exactly these eleven. -/
def emittedIndices : List (BitVec 6) := [0, 1, 8, 9, 16, 17, 24, 41, 55, 58, 59]

/-- The command index is one the block emits (R106, U8). -/
def emitted (cmd : BitVec 6) : Bool := emittedIndices.contains cmd

/-- The shapes of `read_block` (R250): CMD17 into `BUF` with 512 bytes, CMD9 into `CSD` with 16. -/
def readBlockShape (cmd : BitVec 6) (len : Nat) (dest : BlockDest) : Bool :=
  match dest with
  | .buf => cmd == 17 && len == Config.sectorSize
  | .csd => cmd == 9 && len == Config.csdSize

/-- The instruction is one the spec gives the block. -/
def wellFormed : Instr → Bool
  | .sendCommand cmd _ _ => emitted cmd
  | .checkCommand cmd _ _ _ _ => emitted cmd
  | .readBlock cmd _ len dest => readBlockShape cmd len dest
  | .cmd0 | .cmd1 | .cmd8 _ | .cmd9 | .cmd16 | .cmd17 _ | .cmd24 _ | .cmd55 | .acmd41 | .cmd58 | .cmd59On
  | .cmd59Off | .init _ | .deinit _ | .read _ | .write _ | .stOk | .stFail | .stNoinit | .filler | .startBlock
  | .drspAccepted | .r0None | .r0Ready | .r0Idle | .r0V1 | .crc7 _ | .crc16 _ | .findToken _ _ => true

end Sys2Proof
end

