-- ==== Sys2Proof/Decode.lean ====
section
/-! DEFINITION. The encodings of 30_encoding.md: a decoder, total on any bytes, that rejects by name, and the encoder.
Which format stands at a position is fixed by the position (R90), so decoding takes the format. -/

namespace Sys2Proof

open Sys2Proof.Machine

/-- The formats an instruction of the opcode table can have (R90, and the table's own `BYTE`). -/
inductive Format where
  /-- Command frame, six bytes (R91). -/
  | cmd48
  /-- Single-byte response (R95). -/
  | r0
  /-- The token byte that opens a data block (R97). -/
  | dblk
  /-- Data-response byte (R98). -/
  | drsp
  /-- Host request, 34 bits (R100); as bytes five of them, log 23. -/
  | hreq
  /-- Host response, 2 bits (R101); as a byte the low two of it, log 23. -/
  | hrsp
  /-- The filler byte (R99). -/
  | byte
  deriving DecidableEq, Repr

/-- Why bytes are no encoding of an instruction of the block. -/
inductive DecodeError where
  /-- The bytes are more or fewer than the format has (R90). -/
  | wrongLength
  /-- Bits 47:46 of a frame are not 01 (R91). -/
  | badStart
  /-- Bit 0 of a frame is not 1 (R91). -/
  | badStop
  /-- Byte 5 of a frame is not `crc7` of bytes 0 to 4 (R94). -/
  | badCrc
  /-- The command index is never emitted (R106). -/
  | indexNeverEmitted
  /-- The argument is not the one the command is sent with (R102). -/
  | badArgument
  /-- Bits above the 34 of a host request, or above the 2 of a host response, are set: the fields of R100 and R101 have no
  such bits, rejecting them is the model's choice, log 23. -/
  | bitsOutside
  /-- Status 3 is reserved and never produced (R101). -/
  | reservedStatus
  /-- The byte is not the filler byte (R99). -/
  | notFiller
  /-- The byte is not the data-start token (R97). -/
  | notStartToken
  /-- The low five bits are not 5: a rejection, which has no row of its own (R98). -/
  | notAccepted
  /-- A response the opcode table names no test for (R95). -/
  | unnamedResponse
  deriving DecidableEq, Repr

/-- The instruction of a command index and argument (R102, R104). -/
def decodeCommand (index : BitVec 6) (arg : Word) : Except DecodeError Instr :=
  match index.toNat with
  | 0 => if arg = 0#32 then .ok .cmd0 else .error .badArgument
  | 1 => if arg = 0#32 then .ok .cmd1 else .error .badArgument
  | 8 => .ok (.cmd8 arg)
  | 9 => if arg = 0#32 then .ok .cmd9 else .error .badArgument
  | 16 => if arg = 0x200#32 then .ok .cmd16 else .error .badArgument
  | 17 => .ok (.cmd17 arg)
  | 24 => .ok (.cmd24 arg)
  | 41 => if arg = 0x40000000#32 then .ok .acmd41 else .error .badArgument
  | 55 => if arg = 0#32 then .ok .cmd55 else .error .badArgument
  | 58 => if arg = 0#32 then .ok .cmd58 else .error .badArgument
  | 59 => if arg = 1#32 then .ok .cmd59On else if arg = 0#32 then .ok .cmd59Off else .error .badArgument
  | _ => .error .indexNeverEmitted

/-- A command frame (R91 to R94): start bits, stop bit and CRC7 are checked, then index and argument are read. -/
def decodeFrame (b0 b1 b2 b3 b4 b5 : Byte) : Except DecodeError Instr :=
  if b0.extractLsb' 6 2 ≠ 0b01#2 then .error .badStart
  else if b5.extractLsb' 0 1 ≠ 1#1 then .error .badStop
  else if b5 ≠ crc7Of [b0, b1, b2, b3, b4] then .error .badCrc
  else decodeCommand (b0.extractLsb' 0 6) (wordOfBytes b1 b2 b3 b4)

/-- A host request by its two fields (R100). -/
def decodeRequest (op : BitVec 2) (sector : Word) : Instr :=
  match op.toNat with
  | 0 => .init sector
  | 1 => .deinit sector
  | 2 => .read sector
  | _ => .write sector

/-- A host response (R101), in the low two bits of a byte (DESIGN CHOICE, log 23). -/
def decodeStatus (b : Byte) : Except DecodeError Instr :=
  match b.toNat with
  | 0 => .ok .stOk
  | 1 => .ok .stFail
  | 2 => .ok .stNoinit
  | 3 => .error .reservedStatus
  | _ => .error .bitsOutside

/-- A response byte (R95): the exact values first, then the test of bit 2. -/
def decodeResponse (b : Byte) : Except DecodeError Instr :=
  if b = 0xFF#8 then .ok .r0None
  else if b = 0x00#8 then .ok .r0Ready
  else if b = 0x01#8 then .ok .r0Idle
  else if b.getLsbD 2 then .ok .r0V1
  else .error .unnamedResponse

/-- The decoder: the instruction that the bytes are in a format. R100 gives a host request as two fields; that it stands in
five bytes, op in the low two bits of the first and six zero bits above it, the sector in the other four, most
significant byte first, is a DESIGN CHOICE (log 23). -/
def decode : Format → List Byte → Except DecodeError Instr
  | .cmd48, [b0, b1, b2, b3, b4, b5] => decodeFrame b0 b1 b2 b3 b4 b5
  | .hreq, [b0, b1, b2, b3, b4] =>
    if b0.extractLsb' 2 6 ≠ 0#6 then .error .bitsOutside
    else .ok (decodeRequest (b0.extractLsb' 0 2) (wordOfBytes b1 b2 b3 b4))
  | .hrsp, [b] => decodeStatus b
  | .byte, [b] => if b = 0xFF#8 then .ok .filler else .error .notFiller
  | .dblk, [b] => if b = 0xFE#8 then .ok .startBlock else .error .notStartToken
  | .drsp, [b] => if b &&& 0x1F#8 = 0x05#8 then .ok .drspAccepted else .error .notAccepted
  | .r0, [b] => decodeResponse b
  | _, _ => .error .wrongLength

/-- The six bytes of a command frame from its fields (R91): 0, 1, index, argument, CRC7 of the first five bytes, 1. -/
def encodeFrame (index : BitVec 6) (arg : Word) : List Byte :=
  let head : List Byte := (0b01#2 ++ index : BitVec 8) :: wordBytes arg
  head ++ [((crc7Of head).extractLsb' 1 7 ++ 1#1 : BitVec 8)]

/-- The five bytes of a host request from its fields (R100): op in the low two bits of the first byte, the six bits above
it zero, then the sector, most significant byte first. The spec gives the fields and not the bytes: DESIGN CHOICE,
log 23. -/
def encodeRequest (op : BitVec 2) (sector : Word) : List Byte :=
  (0#6 ++ op : BitVec 8) :: wordBytes sector

/-- The encoder: format and bytes of an instruction; the six micro-operations have no binary encoding. Bits that a
row leaves open and that carry no operand (R95 bit 2 test, R98) are encoded as zero (log 11). -/
def encode : Instr → Option (Format × List Byte)
  | .cmd0 => some (.cmd48, encodeFrame 0 0#32)
  | .cmd1 => some (.cmd48, encodeFrame 1 0#32)
  | .cmd8 arg => some (.cmd48, encodeFrame 8 arg)
  | .cmd9 => some (.cmd48, encodeFrame 9 0#32)
  | .cmd16 => some (.cmd48, encodeFrame 16 0x200#32)
  | .cmd17 arg => some (.cmd48, encodeFrame 17 arg)
  | .cmd24 arg => some (.cmd48, encodeFrame 24 arg)
  | .cmd55 => some (.cmd48, encodeFrame 55 0#32)
  | .acmd41 => some (.cmd48, encodeFrame 41 0x40000000#32)
  | .cmd58 => some (.cmd48, encodeFrame 58 0#32)
  | .cmd59On => some (.cmd48, encodeFrame 59 1#32)
  | .cmd59Off => some (.cmd48, encodeFrame 59 0#32)
  | .init sector => some (.hreq, encodeRequest 0 sector)
  | .deinit sector => some (.hreq, encodeRequest 1 sector)
  | .read sector => some (.hreq, encodeRequest 2 sector)
  | .write sector => some (.hreq, encodeRequest 3 sector)
  | .stOk => some (.hrsp, [0x00#8])
  | .stFail => some (.hrsp, [0x01#8])
  | .stNoinit => some (.hrsp, [0x02#8])
  | .filler => some (.byte, [0xFF#8])
  | .startBlock => some (.dblk, [0xFE#8])
  | .drspAccepted => some (.drsp, [0x05#8])
  | .r0None => some (.r0, [0xFF#8])
  | .r0Ready => some (.r0, [0x00#8])
  | .r0Idle => some (.r0, [0x01#8])
  | .r0V1 => some (.r0, [0x04#8])
  | .crc7 _ | .crc16 _ | .sendCommand _ _ _ | .checkCommand _ _ _ _ _ | .findToken _ _ | .readBlock _ _ _ _ => none

/-- `n` bytes of a word that is numbered as one number, bit 0 its least significant bit, most significant byte first: the
order of a CMD48 frame (R60, R91), and the order the model gives a host request (DESIGN CHOICE, log 23). -/
def bytesOfNat : Nat → Nat → List Byte
  | 0, _ => []
  | n + 1, w => BitVec.ofNat 8 (w >>> (8 * n)) :: bytesOfNat n w

/-- The bytes of a 48-bit table word. Where the CRC7 field holds no value (a row of the table that leaves it open)
the frame builder's value stands there, since byte 5 is always computed (R94, R151). Log 9. -/
def tableFrameBytes (w : Nat) : List Byte :=
  let bytes := bytesOfNat 6 w
  if w % 256 = 1 then bytes.take 5 ++ [crc7Of (bytes.take 5)] else bytes

/-- The formats one byte wide, in the order in which the opcode table lists their rows. A byte alone does not say
which of them it is in (0x00 is ST_OK and R0_READY); the first that decodes it is taken. Log 9. -/
def byteFormats : List Format := [.hrsp, .byte, .dblk, .drsp, .r0]

/-- Format and bytes of a word as spec/opcode_table.json numbers it: 48 bits are a command frame, 34 (whole bytes:
40) a host request, up to 8 a byte in the first format that decodes it. -/
def tableWord (nbits w : Nat) : Option (Format × List Byte) :=
  if nbits = 48 then some (.cmd48, tableFrameBytes w)
  else if 34 ≤ nbits ∧ nbits ≤ 40 then some (.hreq, bytesOfNat 5 w)
  else if 1 ≤ nbits ∧ nbits ≤ 8 then
    let bytes := bytesOfNat 1 w
    (byteFormats.find? fun f => (decode f bytes).isOk).map fun f => (f, bytes)
  else none

/-- The instruction the decoder reads from a word numbered as spec/opcode_table.json numbers it. -/
def decodeTableWord (nbits w : Nat) : Option Instr :=
  match tableWord nbits w with
  | none => none
  | some (f, bytes) =>
    match decode f bytes with
    | .ok i => some i
    | .error _ => none

end Sys2Proof
end

