-- ==== Sys2Proof/Machine/State.lean ====
section
/-! DEFINITION. The state of the block (10_state.md, all of it), the interface events (00_scope.md R8), the environment's
inputs as plain data, and the reasons a step can stop. -/

namespace Sys2Proof.Machine

/-- The sector buffer's contents: (address, byte) pairs in canonical form, addresses strictly rising, no entry equal
to what an unlisted address reads as. -/
abbrev Memory := List Host.Cell

/-- The three statuses of a host response (30_encoding.md R101). -/
inductive Status where
  /-- `ST_OK`, 0. -/
  | ok
  /-- `ST_FAIL`, 1. -/
  | fail
  /-- `ST_NOINIT`, 2. -/
  | noinit
  deriving DecidableEq, Repr

/-- The clock rate selected (10_state.md R33). -/
inductive Rate where
  /-- `NONE`: no INIT has started since reset. -/
  | none
  /-- `INIT`: the conservative init rate. -/
  | init
  /-- `FAST`: the high-speed operating rate. -/
  | fast
  deriving DecidableEq, Repr

/-- The interface events (R8). -/
inductive Event where
  /-- `Req(op, sector)`. -/
  | req (op : BitVec 2) (sector : Word)
  /-- `Rsp(status)`. -/
  | rsp (st : Status)
  /-- `Configure()`, with the parameters `SPI_BUS` and `SPI_MODE` it stands for (D23). -/
  | configure (bus mode : Nat)
  /-- `SetRate(r)`. -/
  | setRate (r : Rate)
  /-- `Prepare()`. -/
  | prepare
  /-- `CS(level)`: true is 1, deasserted. -/
  | cs (level : Bool)
  /-- `Xfer(tx) -> rx`. -/
  | xfer (tx rx : Byte)
  /-- `Delay(us)`. -/
  | delay (us : Nat)
  /-- `Now() -> t`. -/
  | now (t : Nat)
  deriving DecidableEq, Repr

/-- The ten steps of INIT (43_init.md R200, R223). -/
inductive InitStep where
  /-- Step 1, power-up framing (R203). -/
  | powerUp
  /-- Step 2, go idle (R205). -/
  | goIdle
  /-- Step 3, interface condition (R207 to R209). -/
  | ifCond
  /-- Step 4, enable CRC (R211). -/
  | crcOn
  /-- Step 5, voltage check (R213). -/
  | voltage
  /-- Step 6, operating condition (R215, R216). -/
  | opCond
  /-- Step 7, capacity check (R217). -/
  | capacity
  /-- Step 8, block length (R218). -/
  | blockLen
  /-- Step 9, CSD read and write-protect test (R219, R220). -/
  | writeProtect
  /-- Step 10, commit (R221). -/
  | commit
  deriving DecidableEq, Repr

/-- A program point of the sequencer (10_state.md R28): what is about to run. -/
inductive Point where
  /-- INIT at one of its steps. -/
  | init (k : InitStep)
  /-- DEINIT, accepted and not yet begun. -/
  | deinit
  /-- READ of a sector, accepted and not yet begun. -/
  | read (sector : Word)
  /-- WRITE of a sector, accepted and not yet begun. -/
  | write (sector : Word)
  /-- A unit of the opcode table, in its format and bytes, about to be decoded and run. -/
  | unit (f : Format) (bytes : List Byte)
  /-- A unit about to run that need not have a binary encoding (a micro-operation). -/
  | call (i : Instr)
  deriving DecidableEq, Repr

/-- What the host, or for reset the platform, does to an idle block (60_exceptions.md R314, 70_reset_and_hazards.md
R340). -/
inductive HostAct where
  /-- A request at the request port: op and sector (R100). -/
  | request (op : BitVec 2) (sector : Word)
  /-- The host writes a byte of `BUF` (R69). -/
  | writeBuf (k : Nat) (v : Byte)
  /-- Reset (R340). -/
  | reset
  deriving DecidableEq, Repr

/-- The value a micro-operation returns (R11 "return v"), or the outcome of a response test. The model's own. -/
inductive Ret where
  /-- Nothing returned yet. -/
  | none
  /-- A byte. -/
  | byte (b : Byte)
  /-- A 16-bit value. -/
  | half (h : Half)
  /-- A truth value. -/
  | bool (b : Bool)
  deriving DecidableEq, Repr

/-- The core's surroundings as plain data: what the card and the time source will answer, the counter the free values
are drawn with, and the recorded history of events, oldest first. -/
structure Bus where
  /-- The bytes the card answers the coming `Xfer`s with (R7). -/
  miso  : List Byte
  /-- The ticks the time source answers the coming `Now()`s with (R7). -/
  clock : List Nat
  /-- The counter of free values drawn so far. -/
  free  : Nat
  /-- The events so far, oldest first (R8). -/
  trace : List Event
  deriving DecidableEq, Repr

/-- The state of the block (10_state.md), the model's own fields last. -/
structure State where
  /-- `FLAGS` (R21). -/
  flags    : Byte
  /-- `ERR` (R26). -/
  err      : Byte
  /-- `SEQ` (R28), as a continuation; the empty list is `IDLE`. -/
  seq      : List Point
  /-- `CS` (R32): true is 1, deasserted. -/
  cs       : Bool
  /-- `RATE` (R33). -/
  rate     : Rate
  /-- `FB[0..5]` (R29). -/
  fb       : Vector Byte 6
  /-- `RB[0..7]` (R29, R30). -/
  rb       : Vector Byte 8
  /-- `ARG` (R29). -/
  arg      : Word
  /-- `ATT` (R29). -/
  att      : Byte
  /-- `VER` (R29). -/
  ver      : BitVec 2
  /-- `FAULT` (R29). -/
  fault    : Bool
  /-- `CRC` (R29). -/
  crc      : Half
  /-- `CRCRX` (R29). -/
  crcRx    : Half
  /-- `DEADLINE` (R29), a tick: a number below 2 ^ `TICK_W`. -/
  deadline : Nat
  /-- `CSD[0..15]` (R29). -/
  csd      : Vector Byte 16
  /-- `BUF[0..511]` (R29, R34). -/
  buf      : Memory
  /-- The response port: the status of the last response (R101), none before the first. -/
  rsp      : Option Status
  /-- The open parameters (R5), written by no step. -/
  cfg      : Params
  /-- The model's own: the value returned last. -/
  ret      : Ret
  /-- The host's coming actions; its head is what stands at the request port. -/
  host     : List HostAct
  /-- The card, the time source, the free values and the history. -/
  bus      : Bus
  deriving DecidableEq, Repr

/-- Why the machine stops. -/
inductive Fault where
  /-- Raised by a host write to `BUF` and by `read_block` when a byte would go to an address that does not exist
  (R69 "host accesses outside 0..511 do not exist"). Safe: the hardware has no such access. -/
  | noSuchAddress
  deriving DecidableEq, Repr

/-- Why the machine has no step to take. -/
inductive Refusal where
  /-- Raised by `exec` for an instruction without a meaning. Safe. -/
  | notModelled (mnemonic : String)
  /-- Raised by the sequencer for bytes that encode no instruction of the block (R101, R106, U7, U8). Safe: the block
  has no transition for them. -/
  | undecodable (e : DecodeError)
  /-- Raised by the sequencer for an instruction the block never runs (R106, R250). Safe: as above. -/
  | illFormed
  /-- Raised by the sequencer for a host request that does not come through the request port in `SEQ = IDLE` (R28,
  U11). Safe: as above. -/
  | portNotReady
  deriving DecidableEq, Repr

/-- The empty environment: no listed answers, no history. -/
def Bus.empty : Bus := { miso := [], clock := [], free := 0, trace := [] }

/-- The state after reset (R38, R340). `FLAGS`, `ERR`, `SEQ`, `CS`, `RATE` and `VER` are the spec's; every register
the spec leaves unspecified holds zero (DESIGN CHOICE, logs 1 and 2), the ports and the model's own fields are empty
(logs 4, 5, 7, 12, 13, 14). -/
def State.reset : State :=
  { flags := 0x00#8, err := 0x00#8, seq := [], cs := true, rate := .none,
    fb := #v[0, 0, 0, 0, 0, 0], rb := #v[0, 0, 0, 0, 0, 0, 0, 0], arg := 0#32, att := 0#8, ver := 0#2,
    fault := false, crc := 0#16, crcRx := 0#16, deadline := 0,
    csd := #v[0, 0, 0, 0, 0, 0, 0, 0, 0, 0, 0, 0, 0, 0, 0, 0], buf := [],
    rsp := none, cfg := Params.default, ret := .none, host := [], bus := Bus.empty }

end Sys2Proof.Machine
end

