-- ==== Sys2Proof/Machine/Flags.lean ====
section
/-! DEFINITION. The two status registers: `FLAGS` (10_state.md R21 to R25) and `ERR` (R26, R27), and the causes of failure with
their masks (60_exceptions.md R301). Bits of either are only ever set (R20). -/

namespace Sys2Proof.Machine

/-- The fields of `FLAGS` (R21). -/
inductive Flag where
  /-- Bit 0. -/
  | initialized
  /-- Bit 1. -/
  | highCapacity
  /-- Bit 2. -/
  | writeProtected
  /-- Bit 3. -/
  | deinitialized
  deriving DecidableEq, Repr

/-- The mask of a field of `FLAGS` (R21). -/
def Flag.mask : Flag → Byte
  | .initialized => 0x01#8
  | .highCapacity => 0x02#8
  | .writeProtected => 0x04#8
  | .deinitialized => 0x08#8

/-- The causes of failure (R301), one for each bit of `ERR` (R26). -/
inductive Cause where
  /-- `no-idle`, bit 0. -/
  | noIdle
  /-- `if-cond-mismatch`, bit 1. -/
  | ifCondMismatch
  /-- `crc-error`, bit 2. -/
  | crcError
  /-- `op-cond-timeout`, bit 3. -/
  | opCondTimeout
  /-- `ocr-error`, bit 4. -/
  | ocrError
  /-- `read-error`, bit 5. -/
  | readError
  /-- `write-error`, bit 6. -/
  | writeError
  /-- `other`, bit 7. -/
  | other
  deriving DecidableEq, Repr

/-- The mask of a cause in `ERR` (R26, R301). -/
def Cause.mask : Cause → Byte
  | .noIdle => 0x01#8
  | .ifCondMismatch => 0x02#8
  | .crcError => 0x04#8
  | .opCondTimeout => 0x08#8
  | .ocrError => 0x10#8
  | .readError => 0x20#8
  | .writeError => 0x40#8
  | .other => 0x80#8

/-- The field of `FLAGS` is 1. -/
def hasFlag (f : Flag) (s : State) : Bool := s.flags &&& f.mask != 0#8

/-- `FLAGS.f <- 1` (R20: never cleared). -/
def setFlag (f : Flag) (s : State) : State := { s with flags := s.flags ||| f.mask }

/-- The cause's bit of `ERR` is 1. -/
def hasCause (c : Cause) (s : State) : Bool := s.err &&& c.mask != 0#8

/-- `ERR <- ERR or MASK(c)` (R27). -/
def orErr (c : Cause) (s : State) : State := { s with err := s.err ||| c.mask }

end Sys2Proof.Machine
end

