-- ==== Sys2Proof/Machine/Operands.lean ====
section
/-! DEFINITION. Operands: the sector mapping (20_memory.md R70), the arguments of the command frames (30_encoding.md R102), and the
tests on received bytes (R95, R96, R98; 40_crc.md R137 g lists them). -/

namespace Sys2Proof.Machine

/-- `MapSector(sector)` (R70): as it is for a high-capacity card, else times 512 modulo 2^32 (R71, D40). -/
def mapSector (sector : Word) (s : State) : Word :=
  if hasFlag .highCapacity s then sector else sector <<< 9

/-- The argument of CMD16, `SECTOR_SIZE` (R102). -/
def argBlockLen : Word := 0x00000200#32

/-- The argument of ACMD41: the high-capacity-support bit, bit 30 (R102, D14). -/
def argOpCond : Word := 0x40000000#32

/-- The argument of CMD59 in INIT (R102). -/
def argCrcOn : Word := 0x00000001#32

/-- The argument of CMD59 in DEINIT (R102). -/
def argCrcOff : Word := 0x00000000#32

/-- The argument of the commands that carry none: CMD0, CMD1, CMD9, CMD55, CMD58 (R102, D14). -/
def argNone : Word := 0x00000000#32

/-- A byte that is a response: anything but the filler 0xFF (R95, R99, D19). -/
def isResponse (b : Byte) : Bool := b != Config.fillerByte

/-- Where in the window the response stands: the least index that is not filler (41_command.md R154). -/
def firstResponse (rb : Vector Byte 8) : Option Nat := rb.toList.findIdx? isResponse

/-- R0 = 0xFF: no response (R95). -/
def testNone (rb : Vector Byte 8) : Bool := rb[0] == 0xFF#8

/-- R0 = 0x00: ready (R95). -/
def testReady (rb : Vector Byte 8) : Bool := rb[0] == 0x00#8

/-- R0 = 0x01: idle (R95). -/
def testIdle (rb : Vector Byte 8) : Bool := rb[0] == 0x01#8

/-- R0[2] = 1: a version 1 card (R95, 43_init.md R209). -/
def testV1 (rb : Vector Byte 8) : Bool := rb[0].getLsbD 2

/-- The echo of CMD8 matches bytes 1 and 0 of its argument (R96, 43_init.md R209). -/
def testEcho (arg : Word) (rb : Vector Byte 8) : Bool :=
  rb[3] == arg.extractLsb' 8 8 && rb[4] == arg.extractLsb' 0 8

/-- Both voltage-window bits of the OCR are set (R96, 43_init.md R213). -/
def testVoltage (rb : Vector Byte 8) : Bool := rb[2] &&& 0x30#8 == 0x30#8

/-- The card-capacity-status bit of the OCR (R96, 43_init.md R217). -/
def testCapacity (rb : Vector Byte 8) : Bool := rb[1].getLsbD 6

/-- A write-protect bit of the CSD (43_init.md R220). -/
def testWriteProtect (csd : Vector Byte 16) : Bool := csd[14] &&& 0x30#8 != 0#8

/-- A data response is accepted iff its low five bits are 5 (R98). -/
def isAccepted (b : Byte) : Bool := b &&& 0x1F#8 == 0x05#8

/-- The data response of a window is its first byte that is not filler; none found is a rejection (44_block_io.md
R267). -/
def testAccepted (rb : Vector Byte 8) : Bool :=
  match rb.toList.find? isResponse with
  | some b => isAccepted b
  | none => false

/-- A response in the window at all (44_block_io.md R265). -/
def testAnyResponse (rb : Vector Byte 8) : Bool := (firstResponse rb).isSome

end Sys2Proof.Machine
end

