-- ==== Sys2Proof/Machine/Ops.lean ====
section
/-! DEFINITION. The shared operations: the sector buffer as memory (20_memory.md R78), the interface events (00_scope.md R8,
R11), the command frame (41_command.md R151), the end of an operation and failing (00_scope.md R12, 60_exceptions.md R306),
and reset (70_reset_and_hazards.md R340). -/

namespace Sys2Proof.Machine

/-! ## The sector buffer -/

/-- What an unlisted address reads as (R38 leaves it unspecified; DESIGN CHOICE, log 2). -/
def Memory.unlisted : Byte := 0x00#8

/-- The byte at an address. -/
def Memory.read : Memory → Nat → Byte
  | [], _ => Memory.unlisted
  | (a, w) :: m, k => if a = k then w else Memory.read m k

/-- Write a byte, keeping the canonical form: writing what an unlisted address reads as removes the entry. -/
def Memory.write : Memory → Nat → Byte → Memory
  | [], k, v => if v = Memory.unlisted then [] else [(k, v)]
  | (a, w) :: m, k, v =>
    if k < a then (if v = Memory.unlisted then (a, w) :: m else (k, v) :: (a, w) :: m)
    else if k = a then (if v = Memory.unlisted then m else (k, v) :: m)
    else (a, w) :: Memory.write m k v

/-- Every address is at least `lo`, below the size of `BUF`, strictly rising, and no entry holds what an unlisted
address reads as. -/
def Memory.wfFrom : Nat → Memory → Bool
  | _, [] => true
  | lo, (a, w) :: m => lo ≤ a && a < Config.sectorSize && w != Memory.unlisted && Memory.wfFrom (a + 1) m

/-- The canonical form of the buffer's contents. -/
def Memory.wf (m : Memory) : Bool := Memory.wfFrom 0 m

/-- `MemRead(k, n)` (R78): the bytes at `k` to `k + n - 1`. -/
def Memory.load (m : Memory) : Nat → Nat → List Byte
  | _, 0 => []
  | k, n + 1 => Memory.read m k :: Memory.load m (k + 1) n

/-- `MemWrite(k, n, v)` (R78): the bytes go to `k`, `k + 1`, … in order. -/
def Memory.store : Memory → Nat → List Byte → Memory
  | m, _, [] => m
  | m, k, b :: bs => Memory.store (Memory.write m k b) (k + 1) bs

/-! ## The byte port and the time source -/

/-- The byte the card answers the next `Xfer` with: the next listed one, or any value (R7, U5, log 4). -/
def Bus.rx (b : Bus) : Byte :=
  match b.miso with
  | x :: _ => x
  | [] => Config.cardByte b.free

/-- Record an event (R8). -/
def Bus.emit (e : Event) (b : Bus) : Bus := { b with trace := b.trace ++ [e] }

/-- `Xfer(tx)` (R8, D4): one byte out, one byte in; the byte in is `b.rx`. -/
def Bus.xfer (tx : Byte) (b : Bus) : Bus :=
  { b with
    miso := b.miso.tail
    free := if b.miso.isEmpty then b.free + 1 else b.free
    trace := b.trace ++ [.xfer tx b.rx] }

/-- Send bytes in order; what comes back is discarded (D4). -/
def Bus.send : List Byte → Bus → Bus
  | [], b => b
  | tx :: txs, b => Bus.send txs (b.xfer tx)

/-- Receive `n` bytes in order, sending the filler (D4, R99). -/
def Bus.recv : Nat → Bus → List Byte × Bus
  | 0, b => ([], b)
  | n + 1, b =>
    let rest := Bus.recv n (b.xfer Config.fillerByte)
    (b.rx :: rest.1, rest.2)

/-- `Now()` (R8, R312), a tick of `w` bits: the next listed answer, or any value (log 5). -/
def Bus.nowTick (w : Nat) (b : Bus) : Nat :=
  (match b.clock with
    | t :: _ => t
    | [] => Config.clockTick b.free) % 2 ^ w

/-- The bus after `Now()`. -/
def Bus.now (w : Nat) (b : Bus) : Bus :=
  { b with
    clock := b.clock.tail
    free := if b.clock.isEmpty then b.free + 1 else b.free
    trace := b.trace ++ [.now (b.nowTick w)] }

/-- `UsToTicks(us)` (D7), a tick of `tickW` bits. -/
def usToTicks (cfg : Params) (us : Nat) : Nat := us * cfg.ticksPerUs % 2 ^ cfg.tickW

/-- `Before(a, b)` (D7): the wrap-safe comparison of ticks of `w` bits. -/
def before (w a b : Nat) : Bool := 2 ^ (w - 1) ≤ (a + (2 ^ w - b % 2 ^ w)) % 2 ^ w

/-! ## Interface events of the core -/

/-- Record an event (R8). -/
def emit (e : Event) (s : State) : State := { s with bus := s.bus.emit e }

/-- Send bytes; what comes back is discarded (D4). -/
def sendBytes (bs : List Byte) (s : State) : State := { s with bus := s.bus.send bs }

/-- Exchange `n` filler bytes; what comes back is discarded. -/
def skipBytes (n : Nat) (s : State) : State := sendBytes (List.replicate n Config.fillerByte) s

/-- `Acquire()` is `Prepare(); CS(0)` (R11, D8). -/
def acquire (s : State) : State :=
  { s with cs := false, bus := (s.bus.emit .prepare).emit (.cs false) }

/-- `Release()` is `CS(1)` (R11, D8). -/
def release (s : State) : State :=
  { s with cs := true, bus := s.bus.emit (.cs true) }

/-- `Configure()` drives `CS = 1` (R8, R32, D23). -/
def configure (s : State) : State :=
  { s with cs := true, bus := s.bus.emit (.configure s.cfg.spiBus s.cfg.spiMode) }

/-- `SetRate(r)` writes `RATE` (R8, R33). -/
def setRate (r : Rate) (s : State) : State :=
  { s with rate := r, bus := s.bus.emit (.setRate r) }

/-- `Delay(us)` (R8). -/
def delay (us : Nat) (s : State) : State := emit (.delay us) s

/-! ## Command frames -/

/-- The six bytes of a frame as the builder makes them (41_command.md R151). -/
def frameBytes (cmd : BitVec 6) (arg : Word) : Vector Byte 6 :=
  let f0 : Byte := 0x40#8 ||| cmd.zeroExtend 8
  let f1 : Byte := arg.extractLsb' 24 8
  let f2 : Byte := arg.extractLsb' 16 8
  let f3 : Byte := arg.extractLsb' 8 8
  let f4 : Byte := arg.extractLsb' 0 8
  #v[f0, f1, f2, f3, f4, crc7Of [f0, f1, f2, f3, f4]]

/-- `BuildFrame(command, argument)` (R151). -/
def buildFrame (cmd : BitVec 6) (arg : Word) (s : State) : State := { s with fb := frameBytes cmd arg }

/-- `SendFrame()` (R151): the six received bytes are discarded. -/
def sendFrame (s : State) : State := sendBytes s.fb.toList s

/-- `ARG <- arg; BuildFrame(cmd, ARG); SendFrame()` (41_command.md R158, 44_block_io.md R251). -/
def sendCommandFrame (cmd : BitVec 6) (arg : Word) (s : State) : State :=
  sendFrame (buildFrame cmd arg { s with arg := arg })

/-- The APP_CMD prefix (41_command.md R152): the CMD55 frame, then eight filler exchanges, all discarded; `ARG` is not
written. -/
def appPrefix (s : State) : State :=
  skipBytes Config.windowLen (sendFrame (buildFrame 55 argNone s))

/-! ## The response window -/

/-- The eight elements of `RB` from a list, an element beyond the list from `rest`. -/
def windowOf (bytes : List Byte) (rest : Nat → Byte) : Vector Byte 8 :=
  #v[bytes.getD 0 (rest 0), bytes.getD 1 (rest 1), bytes.getD 2 (rest 2), bytes.getD 3 (rest 3),
     bytes.getD 4 (rest 4), bytes.getD 5 (rest 5), bytes.getD 6 (rest 6), bytes.getD 7 (rest 7)]

/-- The window read (41_command.md R153): exactly eight filler exchanges into `RB[0..7]`. -/
def readWindow (s : State) : State :=
  let r := s.bus.recv Config.windowLen
  { s with rb := windowOf r.1 (fun _ => Config.fillerByte), bus := r.2 }

/-- The sixteen elements of `CSD` after a list of bytes is written from index 0 on. -/
def csdOf (bytes : List Byte) (old : Vector Byte 16) : Vector Byte 16 :=
  #v[bytes.getD 0 old[0], bytes.getD 1 old[1], bytes.getD 2 old[2], bytes.getD 3 old[3],
     bytes.getD 4 old[4], bytes.getD 5 old[5], bytes.getD 6 old[6], bytes.getD 7 old[7],
     bytes.getD 8 old[8], bytes.getD 9 old[9], bytes.getD 10 old[10], bytes.getD 11 old[11],
     bytes.getD 12 old[12], bytes.getD 13 old[13], bytes.getD 14 old[14], bytes.getD 15 old[15]]

/-! ## Where a data block goes -/

/-- The number of bytes a destination has. -/
def destSize : BlockDest → Nat
  | .buf => Config.sectorSize
  | .csd => Config.csdSize

/-- `dest[k] <- bytes[k]` for every `k`, in order (44_block_io.md R254, 20_memory.md R62). -/
def destStore (d : BlockDest) (bytes : List Byte) (s : State) : State :=
  match d with
  | .buf => { s with buf := s.buf.store 0 bytes }
  | .csd => { s with csd := csdOf bytes s.csd }

/-- `dest[0 .. len-1]` (44_block_io.md R257). -/
def destLoad (d : BlockDest) (len : Nat) (s : State) : List Byte :=
  match d with
  | .buf => s.buf.load 0 len
  | .csd => s.csd.toList.take len

/-! ## The end of an operation, and failing -/

/-- `Rsp(status); SEQ <- IDLE` (R8, R28). -/
def respond (st : Status) (s : State) : State :=
  { s with seq := [], rsp := some st, bus := s.bus.emit (.rsp st) }

/-- `raise <Cause>` (R12, R306): the cause's bit of `ERR`, `Rsp(ST_FAIL)`, `SEQ <- IDLE`. Control goes back to the
host; nothing else is saved or switched, and there is no return (R308). -/
def raise (c : Cause) (s : State) : State := respond .fail (orErr c s)

/-- `Req(op, sector)`: a request is accepted and `SEQ` holds the operation (R8, R28). -/
def accept (op : BitVec 2) (sector : Word) (seq : List Point) (s : State) : State :=
  { s with seq := seq, bus := s.bus.emit (.req op sector) }

/-! ## Reset and the host's view -/

/-- Reset (R38, R340, R341): every register as `State.reset` has it, no event. The environment, the parameters and the
host's further actions are outside the block and stay. -/
def applyReset (s : State) : State :=
  { State.reset with cfg := s.cfg, host := s.host, bus := s.bus }

/-- `SEQ = IDLE`, the request port's ready signal (R28). -/
def ready (s : State) : Bool := s.seq.isEmpty

/-- What the host reads from `FLAGS` (R20): only when `SEQ = IDLE`. -/
def hostFlags (s : State) : Option Byte := if ready s then some s.flags else none

/-- What the host reads from `ERR` (R20): only when `SEQ = IDLE`. -/
def hostErr (s : State) : Option Byte := if ready s then some s.err else none

/-- What the host reads from `BUF[k]` (R69): only when `SEQ = IDLE`, only addresses that exist. -/
def hostBuf (k : Nat) (s : State) : Option Byte :=
  if ready s && k < Config.sectorSize then some (s.buf.read k) else none

end Sys2Proof.Machine
end

