-- ==== Sys2Proof/Machine/Command.lean ====
section
/-! DEFINITION. The command protocol and the policies as shared operations: `send_command` (41_command.md R158), the retry loop of
`check_command` and of INIT step 5 (42_policies.md R181, 43_init.md R213), and `find_token` (42_policies.md R186, R188). -/

namespace Sys2Proof.Machine

/-! ## send_command -/

/-- The bytes of the response after shift and completion (R155): the window from its first response byte on, then the
extra bytes read. -/
def responseBytes (i : Nat) (extra : List Byte) (s : State) : List Byte := s.rb.toList.drop i ++ extra

/-- The extra exchanges of a full response found at offset `i` (R155, R159): `i - 3` where `i` is 4 to 7, else none. -/
def extraCount (full : Bool) (i : Nat) : Nat :=
  if full && 8 - i < Config.fullRespLen then Config.fullRespLen - (8 - i) else 0

/-- Shift and completion (R154, R155): the response moves to the front of `RB`, a full response is completed to five
bytes, and every element beyond the valid ones is unspecified (R30): a free value (log 6). Without a response nothing
moves and nothing more is read. -/
def completeResponse (full : Bool) (s : State) : State :=
  match firstResponse s.rb with
  | none => s
  | some i =>
    let r := s.bus.recv (extraCount full i)
    { s with
      rb := windowOf (responseBytes i r.1 s) (fun k => Config.unspecifiedByte (r.2.free + k))
      bus := { r.2 with free := r.2.free + 8 } }

/-- What is sent inside the bracket of `send_command` (R151, R152, R158 steps 2 and 3). -/
def transmitCommand (cmd : BitVec 6) (arg : Word) (appCmd : Bool) (s : State) : State :=
  sendCommandFrame cmd arg (if appCmd then appPrefix s else s)

/-- `send_command(command, argument, flags)` (R158): the response byte and the state. -/
def sendCommand (cmd : BitVec 6) (arg : Word) (fl : CmdFlags) (s : State) : Byte × State :=
  let t := release (completeResponse fl.fullResponse (readWindow (transmitCommand cmd arg fl.appCmd (acquire s))))
  (t.rb[0], t)

/-! ## The retry loop -/

/-- Up to `n` more attempts (R181): each is a whole `send_command`; it counts in `ATT`; 1 ms lies between a failed
attempt and the next, none after the last (D20). `ok` is the attempt's success condition on the response byte and the
state after it. -/
def attempts (cmd : BitVec 6) (arg : Word) (fl : CmdFlags) (ok : Byte → State → Bool) : Nat → State → Bool × State
  | 0, s => (false, s)
  | n + 1, s =>
    let r := sendCommand cmd arg fl s
    let t := { r.2 with att := r.2.att + 1 }
    if ok r.1 t then (true, t)
    else if n = 0 then (false, t)
    else attempts cmd arg fl ok n (delay Config.retrySpacingUs t)

/-- The comparison of `check_command` (R181, R182). -/
def compareResponse (fl : CmdFlags) (expected r : Byte) : Bool :=
  if fl.notExpect then r != expected else r == expected

/-- `check_command(cmd, arg, flags, expected, max_attempts)` (R181). -/
def checkCommand (cmd : BitVec 6) (arg : Word) (fl : CmdFlags) (expected maxAttempts : Byte) (s : State) :
    Bool × State :=
  attempts cmd arg fl (fun r _ => compareResponse fl expected r) maxAttempts.toNat { s with att := 0#8 }

/-! ## find_token -/

/-- A tick before `deadline`, any of them: the answer of a time source that has not yet reached it (R188). -/
def earlyTick (w deadline : Nat) (b : Bus) : Nat :=
  (deadline + (2 ^ w - 1 - Config.clockTick b.free % 2 ^ (w - 1))) % 2 ^ w

/-- A tick not before `deadline`, any of them: the answer of a time source that has reached it (R188). -/
def lateTick (w deadline : Nat) (b : Bus) : Nat :=
  (deadline + Config.clockTick b.free % 2 ^ (w - 1)) % 2 ^ w

/-- The bus after a `Now()` that a free value answered with `t`. -/
def Bus.nowFree (t : Nat) (b : Bus) : Bus := { b with free := b.free + 1, trace := b.trace ++ [.now t] }

/-- The time-free form (R188): `n + 1` polls at most; after each that does not match, the time source answers a tick
before the deadline, after the last one a tick that is not. -/
def Bus.pollFree (w : Nat) (token : Byte) (deadline : Nat) : Nat → Bus → Bool × Bus
  | 0, b =>
    let p := b.xfer Config.fillerByte
    if b.rx = token then (true, p) else (false, p.nowFree (lateTick w deadline p))
  | n + 1, b =>
    let p := b.xfer Config.fillerByte
    if b.rx = token then (true, p) else Bus.pollFree w token deadline n (p.nowFree (earlyTick w deadline p))

/-- The poll loop of `find_token` (R186) along the listed answers of the time source: a byte is polled, a match ends
the loop at once, else the time is taken and the loop ends when it is not before the deadline (D21). Where no answer
is listed the time-free form goes on with a free budget (R188, log 5). -/
def Bus.poll (w : Nat) (token : Byte) (deadline : Nat) : List Nat → Bus → Bool × Bus
  | [], b => Bus.pollFree w token deadline (Config.pollBudget b.free) { b with free := b.free + 1 }
  | t :: ts, b =>
    let p := b.xfer Config.fillerByte
    if b.rx = token then (true, { p with clock := t :: ts })
    else
      let q : Bus := { p with clock := ts, trace := p.trace ++ [.now (t % 2 ^ w)] }
      if before w (t % 2 ^ w) deadline then Bus.poll w token deadline ts q else (false, q)

/-- `find_token(token, timeout_us)` (R186): `DEADLINE` is taken once, before the first poll; `CS` is not touched. -/
def findToken (token : Byte) (timeoutUs : Word) (s : State) : Bool × State :=
  let w := s.cfg.tickW
  let deadline := (s.bus.nowTick w + usToTicks s.cfg timeoutUs.toNat) % 2 ^ w
  let b := s.bus.now w
  let r := Bus.poll w token deadline b.clock b
  (r.1, { s with deadline := deadline, bus := r.2 })

end Sys2Proof.Machine
end

