-- ==== Sys2Proof/Machine/Block.lean ====
section
/-! DEFINITION. Block I/O: the read-block primitive (44_block_io.md R250 to R259), READ (R262, R263) and WRITE (R264 to R269). -/

namespace Sys2Proof.Machine

/-! ## The read-block primitive -/

/-- The response scan (R252): at most `n` exchanges, ending at the first byte that is not filler; the result is the
last byte received, 0xFF when there was no response. -/
def Bus.scan : Nat → Bus → Byte × Bus
  | 0, b => (Config.fillerByte, b)
  | n + 1, b => if isResponse b.rx then (b.rx, b.xfer Config.fillerByte) else Bus.scan n (b.xfer Config.fillerByte)

/-- `if c: FAULT <- 1` (R252, R253, R255). -/
def faultIf (c : Bool) (s : State) : State := { s with fault := s.fault || c }

/-- Acquire and frame (R251). -/
def blockOpen (cmd : BitVec 6) (arg : Word) (s : State) : State :=
  sendCommandFrame cmd arg (acquire { s with fault := false })

/-- The response scan and its fault (R252). -/
def blockScan (s : State) : State :=
  let r := s.bus.scan Config.readScanMax
  faultIf (r.1 != 0x00#8) { s with bus := r.2 }

/-- A wait for a token whose failure is a fault (R253, R255). -/
def blockWait (token : Byte) (s : State) : State :=
  let r := findToken token Config.tokenTimeoutUs s
  faultIf (!r.1) r.2

/-- The drain (R254): `len` payload bytes into the destination, then the two CRC bytes into `CRCRX`, on every path. -/
def blockDrain (len : Nat) (d : BlockDest) (s : State) : State :=
  let p := s.bus.recv len
  let c := p.2.recv 2
  { destStore d p.1 s with
    crcRx := halfOfBytes (c.1.getD 0 Config.fillerByte) (c.1.getD 1 Config.fillerByte)
    bus := c.2 }

/-- The verdict (R257): a fault outranks the CRC comparison; at most one bit of `ERR`. -/
def blockVerdict (len : Nat) (d : BlockDest) (s : State) : Bool × State :=
  if s.fault then (false, orErr .readError s)
  else
    let t := { s with crc := crc16Of (destLoad d len s) }
    if t.crc ≠ t.crcRx then (false, orErr .crcError t) else (true, t)

/-- `read_block(cmd, arg, L, dest)` (R258). -/
def readBlock (cmd : BitVec 6) (arg : Word) (len : Nat) (d : BlockDest) (s : State) : Bool × State :=
  let t := blockDrain len d (blockWait Config.startToken (blockScan (blockOpen cmd arg s)))
  blockVerdict len d (release (blockWait Config.fillerByte t))

/-! ## READ -/

/-- READ from its gate on (R262). -/
def readBody (sector : Word) (s : State) : State :=
  if hasFlag .initialized s then
    let r := readBlock 17 (mapSector sector s) Config.sectorSize .buf { s with arg := mapSector sector s }
    respond (if r.1 then .ok else .fail) r.2
  else respond .noinit s

/-- READ (R262): the request, then the operation. -/
def execRead (sector : Word) (s : State) : Host.Outcome State Fault Refusal :=
  .next (readBody sector (accept 2 sector [.read sector] s))

/-! ## WRITE -/

/-- Gate passed: the argument and the CRC16 of the whole buffer (R264). `write_protected` is not tested. -/
def writePrepare (sector : Word) (s : State) : State :=
  { s with arg := mapSector sector s, crc := crc16Of (s.buf.load 0 Config.sectorSize) }

/-- Acquire, the CMD24 frame, and its eight-byte response window (R265). -/
def writeCommand (s : State) : State :=
  readWindow (sendFrame (buildFrame 24 s.arg (acquire s)))

/-- The data block (R266): start token, 512 payload bytes, CRC16 high byte first. -/
def writeData (s : State) : State :=
  sendBytes (Config.startToken :: (s.buf.load 0 Config.sectorSize ++ halfBytes s.crc)) s

/-- From the data block on (R266 to R268): the data-response window, the busy wait on every path, release, verdict. -/
def writeFinish (s : State) : State :=
  let t := readWindow (writeData s)
  let r := findToken Config.fillerByte Config.tokenTimeoutUs t
  let u := release r.2
  if testAccepted t.rb && r.1 then respond .ok u else raise .writeError u

/-- WRITE from its gate on (R268). -/
def writeBody (sector : Word) (s : State) : State :=
  if hasFlag .initialized s then
    let t := writeCommand (writePrepare sector s)
    if testAnyResponse t.rb then writeFinish t else raise .writeError (release t)
  else respond .noinit s

/-- WRITE (R268): the request, then the operation. -/
def execWrite (sector : Word) (s : State) : Host.Outcome State Fault Refusal :=
  .next (writeBody sector (accept 3 sector [.write sector] s))

end Sys2Proof.Machine
end

