-- ==== Sys2Proof/Machine/Frames.lean ====
section
/-! DEFINITION. The twelve command frames (30_encoding.md R104): `ARG` takes the argument, the frame is built in `FB` and its six bytes
are exchanged (41_command.md R151, R158). Chip-select, the response and retries belong to the micro-operations that send
a frame (log 10). -/

namespace Sys2Proof.Machine

/-- CMD0 (R104, R205). -/
def execCmd0 (s : State) : Host.Outcome State Fault Refusal := .next (sendCommandFrame 0 argNone s)

/-- CMD1 (R104, R216). -/
def execCmd1 (s : State) : Host.Outcome State Fault Refusal := .next (sendCommandFrame 1 argNone s)

/-- CMD8 (R104, R207). -/
def execCmd8 (arg : Word) (s : State) : Host.Outcome State Fault Refusal := .next (sendCommandFrame 8 arg s)

/-- CMD9 (R104, R219). -/
def execCmd9 (s : State) : Host.Outcome State Fault Refusal := .next (sendCommandFrame 9 argNone s)

/-- CMD16 (R104, R218). -/
def execCmd16 (s : State) : Host.Outcome State Fault Refusal := .next (sendCommandFrame 16 argBlockLen s)

/-- CMD17 (R104, R262). -/
def execCmd17 (arg : Word) (s : State) : Host.Outcome State Fault Refusal := .next (sendCommandFrame 17 arg s)

/-- CMD24 (R104, R265). -/
def execCmd24 (arg : Word) (s : State) : Host.Outcome State Fault Refusal := .next (sendCommandFrame 24 arg s)

/-- ACMD41's second frame (R104, R215). -/
def execAcmd41 (s : State) : Host.Outcome State Fault Refusal := .next (sendCommandFrame 41 argOpCond s)

/-- CMD58 (R104, R213, R217). -/
def execCmd58 (s : State) : Host.Outcome State Fault Refusal := .next (sendCommandFrame 58 argNone s)

/-- CMD59 with argument 1 (R104, R211). -/
def execCmd59On (s : State) : Host.Outcome State Fault Refusal := .next (sendCommandFrame 59 argCrcOn s)

/-- CMD59 with argument 0 (R104, R222). -/
def execCmd59Off (s : State) : Host.Outcome State Fault Refusal := .next (sendCommandFrame 59 argCrcOff s)

/-- CMD55, the APP_CMD prefix (R152): the frame and eight discarded filler exchanges; `ARG` is not written. -/
def execCmd55 (s : State) : Host.Outcome State Fault Refusal := .next (appPrefix s)

end Sys2Proof.Machine
end

