-- ==== Sys2Proof/Machine/Init.lean ====
section
/-! DEFINITION. The initialisation state machine INIT (43_init.md R200 to R224) and DEINIT (R222). -/

namespace Sys2Proof.Machine

/-- How a step of INIT ends. -/
inductive StepEnd where
  /-- The next step follows. -/
  | go (s : State)
  /-- INIT has ended with a response. -/
  | done (s : State)
  deriving DecidableEq, Repr

/-- The state a step of INIT ends in. -/
def StepEnd.state : StepEnd → State
  | .go s => s
  | .done s => s

/-- `if not ok: raise c` (R201): the step's failure ends INIT. -/
def orRaise (c : Cause) (r : Bool × State) : StepEnd :=
  if r.1 then .go r.2 else .done (raise c r.2)

/-- Step 1, power-up framing (R203). -/
def initPowerUp (s : State) : StepEnd :=
  .go (skipBytes Config.powerupBytes (delay Config.powerupWaitUs (setRate .init (configure s))))

/-- Step 2, go idle (R205). -/
def initGoIdle (s : State) : StepEnd :=
  orRaise .noIdle (checkCommand 0 argNone CmdFlags.none 0x01#8 Config.attGoIdle s)

/-- Step 3, the classification (R209): version 1 first, then version 2, anything else fails. -/
def classify (s : State) : StepEnd :=
  if testV1 s.rb then .go { s with ver := 1#2 }
  else if testEcho s.cfg.ifCondArg s.rb then .go { s with ver := 2#2 }
  else .done (raise .ifCondMismatch s)

/-- Step 3, interface condition (R207 to R209). -/
def initIfCond (s : State) : StepEnd :=
  let r := checkCommand 8 s.cfg.ifCondArg { appCmd := false, fullResponse := true, notExpect := true } 0xFF#8
    Config.attIfCond s
  if r.1 then classify r.2 else .done (raise .ifCondMismatch r.2)

/-- Step 4, enable CRC (R211). -/
def initCrcOn (s : State) : StepEnd :=
  orRaise .crcError (checkCommand 59 argCrcOn CmdFlags.none 0x01#8 Config.attCrcOn s)

/-- The success condition of an attempt of step 5 (R213): idle, and both voltage bits. -/
def voltageOk (r : Byte) (s : State) : Bool := r == 0x01#8 && testVoltage s.rb

/-- Step 5, voltage check (R213): the voltage test is part of each attempt. -/
def initVoltage (s : State) : StepEnd :=
  orRaise .ocrError
    (attempts 58 argNone { appCmd := false, fullResponse := true, notExpect := false } voltageOk
      Config.attVoltage.toNat { s with att := 0#8 })

/-- Step 6, operating condition (R215, R216): ACMD41 for version 2, CMD1 otherwise. -/
def initOpCond (s : State) : StepEnd :=
  orRaise .opCondTimeout
    (if s.ver = 2#2 then
      checkCommand 41 argOpCond { appCmd := true, fullResponse := false, notExpect := false } 0x00#8
        Config.attOpCond s
    else checkCommand 1 argNone CmdFlags.none 0x00#8 Config.attOpCond s)

/-- `high_capacity` is set when the card-capacity-status bit is, and never cleared (R217). -/
def noteCapacity (s : State) : State := if testCapacity s.rb then setFlag .highCapacity s else s

/-- Step 7, capacity check, version 2 only (R217). -/
def initCapacity (s : State) : StepEnd :=
  if s.ver = 2#2 then
    let r := checkCommand 58 argNone { appCmd := false, fullResponse := true, notExpect := false } 0x00#8
      Config.attCapacity s
    if r.1 then .go (noteCapacity r.2) else .done (raise .ocrError r.2)
  else .go s

/-- Step 8, block length (R218). -/
def initBlockLen (s : State) : StepEnd :=
  orRaise .other (checkCommand 16 argBlockLen CmdFlags.none 0x00#8 Config.attBlockLen s)

/-- Step 9, CSD read and write-protect test (R219, R220): neither abort adds a bit of `ERR` of its own. -/
def initWriteProtect (s : State) : StepEnd :=
  let r := readBlock 9 argNone Config.csdSize .csd s
  if r.1 then
    if testWriteProtect r.2.csd then .done (respond .fail (setFlag .writeProtected r.2)) else .go r.2
  else .done (respond .fail r.2)

/-- Step 10, commit (R221). -/
def initCommit (s : State) : StepEnd :=
  .done (respond .ok (setRate .fast (setFlag .initialized s)))

/-- A step of INIT by its name. -/
def initStep : InitStep → State → StepEnd
  | .powerUp => initPowerUp
  | .goIdle => initGoIdle
  | .ifCond => initIfCond
  | .crcOn => initCrcOn
  | .voltage => initVoltage
  | .opCond => initOpCond
  | .capacity => initCapacity
  | .blockLen => initBlockLen
  | .writeProtect => initWriteProtect
  | .commit => initCommit

/-- The ten steps in order (R223). -/
def initSteps : List InitStep :=
  [.powerUp, .goIdle, .ifCond, .crcOn, .voltage, .opCond, .capacity, .blockLen, .writeProtect, .commit]

/-- The steps one after another (R200, R201); while one runs, `SEQ` holds those that follow it. -/
def runInit : List InitStep → State → State
  | [], s => s
  | k :: ks, s =>
    match initStep k { s with seq := ks.map .init } with
    | .go t => runInit ks t
    | .done t => t

/-- INIT (R223): the request, then the ten steps. The request's sector is ignored (R100). -/
def execInit (sector : Word) (s : State) : Host.Outcome State Fault Refusal :=
  .next (runInit initSteps (accept 0 sector (initSteps.map .init) s))

/-- DEINIT from its latch on (R222): two best-effort commands, then the latch; a no-op once latched. -/
def deinitBody (s : State) : State :=
  if hasFlag .deinitialized s then respond .ok s
  else
    let t := (sendCommand 0 argNone CmdFlags.none s).2
    let u := (sendCommand 59 argCrcOff CmdFlags.none t).2
    respond .ok (setFlag .deinitialized u)

/-- DEINIT (R222): the request, then the operation. The request's sector is ignored (R100). -/
def execDeinit (sector : Word) (s : State) : Host.Outcome State Fault Refusal :=
  .next (deinitBody (accept 1 sector [.deinit] s))

end Sys2Proof.Machine
end

