-- ==== Sys2Proof/Machine/Micro.lean ====
section
/-! DEFINITION. The six micro-operations as instructions: each runs its shared operation and leaves the value it returns in the
model's own `ret` (00_scope.md R11 "return v", log 12). -/

namespace Sys2Proof.Machine

/-- `crc7(data, len)` (40_crc.md R131): no register of the block is read or written, no event (R130). -/
def execCrc7 (data : List Byte) (s : State) : Host.Outcome State Fault Refusal :=
  .next { s with ret := .byte (crc7Of data) }

/-- `crc16(data, len)` (40_crc.md R134): no register of the block is read or written, no event (R130). -/
def execCrc16 (data : List Byte) (s : State) : Host.Outcome State Fault Refusal :=
  .next { s with ret := .half (crc16Of data) }

/-- `send_command` (41_command.md R158): returns the response byte. -/
def execSendCommand (cmd : BitVec 6) (arg : Word) (fl : CmdFlags) (s : State) : Host.Outcome State Fault Refusal :=
  let r := sendCommand cmd arg fl s
  .next { r.2 with ret := .byte r.1 }

/-- `check_command` (42_policies.md R181): returns success. -/
def execCheckCommand (cmd : BitVec 6) (arg : Word) (fl : CmdFlags) (expected maxAttempts : Byte) (s : State) :
    Host.Outcome State Fault Refusal :=
  let r := checkCommand cmd arg fl expected maxAttempts s
  .next { r.2 with ret := .bool r.1 }

/-- `find_token` (42_policies.md R186): returns whether the token was found. -/
def execFindToken (token : Byte) (timeoutUs : Word) (s : State) : Host.Outcome State Fault Refusal :=
  let r := findToken token timeoutUs s
  .next { r.2 with ret := .bool r.1 }

/-- `read_block` (44_block_io.md R258): returns success. A length the destination does not hold (no form of the block
has one, R250) has bytes that go nowhere: a fault (log 16). -/
def execReadBlock (cmd : BitVec 6) (arg : Word) (len : Nat) (d : BlockDest) (s : State) :
    Host.Outcome State Fault Refusal :=
  if len ≤ destSize d then
    let r := readBlock cmd arg len d s
    .next { r.2 with ret := .bool r.1 }
  else .fault .noSuchAddress

end Sys2Proof.Machine
end

