-- ==== Sys2Proof/Machine/Tokens.lean ====
section
/-! DEFINITION. The statuses (30_encoding.md R101), the two bytes the core sends by themselves (R97, R99), and the tests it makes on
a response in `RB` (R95, R98). The outcome of a test is left in the model's own `ret` (log 11). -/

namespace Sys2Proof.Machine

/-- `ST_OK`: `Rsp(ST_OK); SEQ <- IDLE` (R101, R28). -/
def execStOk (s : State) : Host.Outcome State Fault Refusal := .next (respond .ok s)

/-- `ST_FAIL`: `Rsp(ST_FAIL); SEQ <- IDLE` (R101, R28). -/
def execStFail (s : State) : Host.Outcome State Fault Refusal := .next (respond .fail s)

/-- `ST_NOINIT`: `Rsp(ST_NOINIT); SEQ <- IDLE` (R101, R28). -/
def execStNoinit (s : State) : Host.Outcome State Fault Refusal := .next (respond .noinit s)

/-- `FILLER`: one read-position exchange; the byte received is kept (R99, D4). -/
def execFiller (s : State) : Host.Outcome State Fault Refusal :=
  .next { s with ret := .byte s.bus.rx, bus := s.bus.xfer Config.fillerByte }

/-- `START_BLOCK`: the data-start token is sent; the byte received is discarded (R97, 44_block_io.md R266). -/
def execStartBlock (s : State) : Host.Outcome State Fault Refusal := .next (sendBytes [Config.startToken] s)

/-- `DRSP_ACCEPTED`: the data response in the window is accepted (R98, 44_block_io.md R267). -/
def execDrspAccepted (s : State) : Host.Outcome State Fault Refusal :=
  .next { s with ret := .bool (testAccepted s.rb) }

/-- `R0_NONE`: R0 = 0xFF (R95). -/
def execR0None (s : State) : Host.Outcome State Fault Refusal := .next { s with ret := .bool (testNone s.rb) }

/-- `R0_READY`: R0 = 0x00 (R95). -/
def execR0Ready (s : State) : Host.Outcome State Fault Refusal := .next { s with ret := .bool (testReady s.rb) }

/-- `R0_IDLE`: R0 = 0x01 (R95). -/
def execR0Idle (s : State) : Host.Outcome State Fault Refusal := .next { s with ret := .bool (testIdle s.rb) }

/-- `R0_V1`: R0[2] = 1, which classifies the card as version 1: `VER <- 1` (R95, 43_init.md R209). -/
def execR0V1 (s : State) : Host.Outcome State Fault Refusal :=
  .next { s with ver := if testV1 s.rb then 1#2 else s.ver, ret := .bool (testV1 s.rb) }

end Sys2Proof.Machine
end

