-- ==== Sys2Proof/Machine/Dispatch.lean ====
section
/-! DEFINITION. One arm per instruction: the meaning of each row of spec/opcode_table.json. -/

namespace Sys2Proof.Machine

def exec (i : Instr) (s : State) : Host.Outcome State Fault Refusal :=
  match i with
  | .cmd0 => Sys2Proof.Machine.execCmd0 s
  | .cmd1 => Sys2Proof.Machine.execCmd1 s
  | .cmd8 arg => Sys2Proof.Machine.execCmd8 arg s
  | .cmd9 => Sys2Proof.Machine.execCmd9 s
  | .cmd16 => Sys2Proof.Machine.execCmd16 s
  | .cmd17 arg => Sys2Proof.Machine.execCmd17 arg s
  | .cmd24 arg => Sys2Proof.Machine.execCmd24 arg s
  | .cmd55 => Sys2Proof.Machine.execCmd55 s
  | .acmd41 => Sys2Proof.Machine.execAcmd41 s
  | .cmd58 => Sys2Proof.Machine.execCmd58 s
  | .cmd59On => Sys2Proof.Machine.execCmd59On s
  | .cmd59Off => Sys2Proof.Machine.execCmd59Off s
  | .init sector => Sys2Proof.Machine.execInit sector s
  | .deinit sector => Sys2Proof.Machine.execDeinit sector s
  | .read sector => Sys2Proof.Machine.execRead sector s
  | .write sector => Sys2Proof.Machine.execWrite sector s
  | .stOk => Sys2Proof.Machine.execStOk s
  | .stFail => Sys2Proof.Machine.execStFail s
  | .stNoinit => Sys2Proof.Machine.execStNoinit s
  | .filler => Sys2Proof.Machine.execFiller s
  | .startBlock => Sys2Proof.Machine.execStartBlock s
  | .drspAccepted => Sys2Proof.Machine.execDrspAccepted s
  | .r0None => Sys2Proof.Machine.execR0None s
  | .r0Ready => Sys2Proof.Machine.execR0Ready s
  | .r0Idle => Sys2Proof.Machine.execR0Idle s
  | .r0V1 => Sys2Proof.Machine.execR0V1 s
  | .crc7 data => Sys2Proof.Machine.execCrc7 data s
  | .crc16 data => Sys2Proof.Machine.execCrc16 data s
  | .sendCommand cmd arg fl => Sys2Proof.Machine.execSendCommand cmd arg fl s
  | .checkCommand cmd arg fl expected maxAttempts => Sys2Proof.Machine.execCheckCommand cmd arg fl expected maxAttempts s
  | .findToken token timeoutUs => Sys2Proof.Machine.execFindToken token timeoutUs s
  | .readBlock cmd arg len dest => Sys2Proof.Machine.execReadBlock cmd arg len dest s

end Sys2Proof.Machine
end

