-- ==== Sys2Proof/Machine/Sequencer.lean ====
section
/-! DEFINITION. What the sequencer does next (10_state.md R28): the unit at its program point, or, in `SEQ = IDLE`, the host's next
action (00_scope.md R8, 60_exceptions.md R314). -/

namespace Sys2Proof.Machine

/-- Run one unit at a program point inside an operation: the block runs only well-formed units (R106, R250), and a
request is accepted only in `SEQ = IDLE` through its port (R28, U11). -/
def runUnit (i : Instr) (s : State) : Host.Outcome State Fault Refusal :=
  if i.isRequest then .refused .portNotReady
  else if wellFormed i then exec i s
  else .refused .illFormed

/-- Run a program point; `SEQ` already holds what follows it. -/
def runPoint (p : Point) (s : State) : Host.Outcome State Fault Refusal :=
  match p with
  | .init k => .next (initStep k s).state
  | .deinit => .next (deinitBody s)
  | .read sector => .next (readBody sector s)
  | .write sector => .next (writeBody sector s)
  | .unit f bytes =>
    match decode f bytes with
    | .ok i => runUnit i s
    | .error e => .refused (.undecodable e)
  | .call i => runUnit i s

/-- An action of the host on the idle block: a request is decoded and run (R100), a byte of `BUF` is written where it
exists (R69), reset (R340). -/
def runHost (a : HostAct) (s : State) : Host.Outcome State Fault Refusal :=
  match a with
  | .request op sector => exec (decodeRequest op sector) s
  | .writeBuf k v =>
    if k < Config.sectorSize then .next { s with buf := s.buf.write k v } else .fault .noSuchAddress
  | .reset => .next (applyReset s)

/-- One step of the sequencer. With `SEQ = IDLE` and no action of the host the block waits (R38, R341). -/
def runNext (s : State) : Host.Outcome State Fault Refusal :=
  match s.seq with
  | p :: ps => runPoint p { s with seq := ps }
  | [] =>
    match s.host with
    | a :: rest => runHost a { s with host := rest }
    | [] => .next s

/-- Put a unit where the next step takes it: a request at the head of the request port of an idle block, any other
unit at the sequencer's program point. -/
def placeUnit (f : Format) (bytes : List Byte) (s : State) : State :=
  match f, decode f bytes with
  | .hreq, .ok (.init sector) => { s with seq := [], host := .request 0 sector :: s.host }
  | .hreq, .ok (.deinit sector) => { s with seq := [], host := .request 1 sector :: s.host }
  | .hreq, .ok (.read sector) => { s with seq := [], host := .request 2 sector :: s.host }
  | .hreq, .ok (.write sector) => { s with seq := [], host := .request 3 sector :: s.host }
  | f, _ => { s with seq := .unit f bytes :: s.seq }

end Sys2Proof.Machine
end

