-- ==== Sys2Proof/Machine/Step.lean ====
section
/-! DEFINITION. One step of the machine, and placing an instruction where the next step takes it. -/

namespace Sys2Proof.Machine

/-- One step: the unit at the sequencer's program point, or the host's next action (10_state.md R28). -/
def step (s : State) : Host.Outcome State Fault Refusal := runNext s

/-- `s` with the instruction of a table word where the next step takes it: a command frame, status, byte or response
value at the sequencer's program point (`SEQ`), a host request at the head of the request port with `SEQ = IDLE`
(log 8). A word the table numbers no format for changes nothing but `SEQ`, where it is refused. -/
def State.withFetchWord (s : State) (nbits w : Nat) : State :=
  match tableWord nbits w with
  | some (f, bytes) => placeUnit f bytes s
  | none => { s with seq := .unit .r0 (bytesOfNat (nbits / 8) w) :: s.seq }

end Sys2Proof.Machine
end

