-- ==== Sys2Proof/Safety.lean ====
section
/-! DEFINITION. The terms claims are made in: what a stretch of history sent and received, that bits are only ever set, and the
invariant of the idle block (10_state.md R37). -/

namespace Sys2Proof.Machine

/-- The bytes the core sent in a stretch of history, in order. -/
def sentBytes (evs : List Event) : List Byte :=
  evs.filterMap fun e => match e with
    | .xfer tx _ => some tx
    | _ => none

/-- The bytes the core received in a stretch of history, in order. -/
def receivedBytes (evs : List Event) : List Byte :=
  evs.filterMap fun e => match e with
    | .xfer _ rx => some rx
    | _ => none

/-- A byte exchange. -/
def Event.isXfer : Event → Bool
  | .xfer _ _ => true
  | _ => false

/-- An event of a wait for a token: a byte exchange or a look at the time. -/
def Event.isWait : Event → Bool
  | .xfer _ _ => true
  | .now _ => true
  | _ => false

/-- An event at the host's port. -/
def Event.isHost : Event → Bool
  | .req _ _ => true
  | .rsp _ => true
  | _ => false

/-- Everything but byte exchanges and looks at the time: the frame of an operation's history. -/
def frameEvents (evs : List Event) : List Event := evs.filter fun e => !e.isWait

/-- Every bit that `a` has, `b` has (10_state.md R37 c: bitwise greater than or equal). -/
def BitsKept (a b : Byte) : Prop := a &&& b = a

/-- Byte exchanges, one after another and nothing else, from `b` to `c`: the bytes `tx` went out and the bytes `rx`
came in, the card's listed answers first, each exchange taking one of them (R8, 20_memory.md R67). -/
structure Exchanged (tx rx : List Byte) (b c : Bus) : Prop where
  /-- One byte in for each byte out. -/
  paired : rx.length = tx.length
  /-- The card's listed answers come first. -/
  listed : b.miso.take tx.length <+: rx
  /-- Each exchange takes the card's stream one byte forward. -/
  taken : c.miso = b.miso.drop tx.length
  /-- The time source is not asked. -/
  untimed : c.clock = b.clock
  /-- Each exchange is recorded, in order. -/
  recorded : c.trace = b.trace ++ List.zipWith Event.xfer tx rx

/-- The history of one chip-select bracket around byte exchanges (R11, 41_command.md R158). -/
def bracket (tx rx : List Byte) : List Event :=
  [.prepare, .cs false] ++ List.zipWith Event.xfer tx rx ++ [.cs true]

/-- The bytes received in a response scan of at most `n` bytes (44_block_io.md R252): it ends with the first byte that is
not filler, or after `n` bytes of filler. -/
def Scanned (n : Nat) (rs : List Byte) : Prop :=
  rs = List.replicate n 0xFF#8 ∨ ∃ j r, j < n ∧ r ≠ 0xFF#8 ∧ rs = List.replicate j 0xFF#8 ++ [r]

/-- The bytes received in a wait for a token (42_policies.md R186, R187): at least one, and none after the token. The
token was found if it is one of them. -/
def Awaited (token : Byte) (rs : List Byte) : Prop := rs ≠ [] ∧ token ∉ rs.dropLast

/-- The data response of a window is its first byte that is not filler, and its low five bits are 5 (44_block_io.md R267,
30_encoding.md R98). -/
def AcceptedWindow (window : List Byte) : Prop :=
  ∃ b, window.find? (fun b => b != 0xFF#8) = some b ∧ b.toNat % 32 = 5

/-- What `send_command` sends before its response window (41_command.md R158): with `app_cmd` the CMD55 frame and eight
filler bytes, then the command's frame. -/
def commandBytes (cmd : BitVec 6) (arg : Word) (appCmd : Bool) : List Byte :=
  (if appCmd then [0x77#8, 0x00#8, 0x00#8, 0x00#8, 0x00#8, 0x65#8] ++ List.replicate 8 0xFF#8 else []) ++
    (frameBytes cmd arg).toList

/-- What the R0 of each of `n` successive attempts is, were all of them made, one `send_command` and 1 ms apart
(42_policies.md R181). -/
def attemptAnswers (cmd : BitVec 6) (arg : Word) (fl : CmdFlags) : Nat → State → List Byte
  | 0, _ => []
  | n + 1, s =>
    let r := sendCommand cmd arg fl s
    r.1 :: attemptAnswers cmd arg fl n (delay 1000 { r.2 with att := r.2.att + 1 })

/-- An attempt of `check_command` succeeds with this response (42_policies.md R182). -/
def Accepts (fl : CmdFlags) (expected r : Byte) : Prop :=
  if fl.notExpect then r ≠ expected else r = expected

/-- CRC7 one bit at a time in a 7-bit register: the generator x^7 + x^3 + 1 (40_crc.md R132 c). -/
def serial7 (c : BitVec 7) (bit : Bool) : BitVec 7 :=
  if c.msb != bit then (c <<< 1) ^^^ 0x09#7 else c <<< 1

/-- CRC16 one bit at a time: the generator x^16 + x^12 + x^5 + 1 (40_crc.md R135 a). -/
def serial16 (c : BitVec 16) (bit : Bool) : BitVec 16 :=
  if c.msb != bit then (c <<< 1) ^^^ 0x1021#16 else c <<< 1

/-- The bits of a byte sequence in the order in which the CRCs take them: bytes in index order, each byte's bit 7
first (20_memory.md R63). -/
def messageBits (data : List Byte) : List Bool :=
  data.flatMap fun b => [b.getLsbD 7, b.getLsbD 6, b.getLsbD 5, b.getLsbD 4, b.getLsbD 3, b.getLsbD 2, b.getLsbD 1,
    b.getLsbD 0]

/-- `FB` holds a frame the block can form (30_encoding.md R92, R94, R106), or what it held at reset. -/
def FrameRegister (fb : Vector Byte 6) : Prop :=
  fb = State.reset.fb ∨ ∃ cmd arg, emitted cmd = true ∧ fb = frameBytes cmd arg

/-- What is true whenever `SEQ = IDLE` (10_state.md R37 a and b, and the ranges of R29 and R33). -/
structure IdleInv (s : State) : Prop where
  /-- The sequencer is idle. -/
  idle : s.seq = []
  /-- R37 (a): the card is not selected. -/
  deselected : s.cs = true
  /-- R37 (b): the reserved bits of `FLAGS` read 0. -/
  reserved : s.flags &&& 0xF0#8 = 0#8
  /-- R29: `VER` is 0, 1 or 2. -/
  version : s.ver ≠ 3#2
  /-- R29: at most 250 attempts. -/
  attempt : s.att.toNat ≤ 250
  /-- R29: `DEADLINE` is a tick. -/
  tick : s.deadline < 2 ^ s.cfg.tickW
  /-- R106: `FB` holds a frame of the block. -/
  frame : FrameRegister s.fb
  /-- `BUF` is in canonical form. -/
  buffer : s.buf.wf = true

end Sys2Proof.Machine
end

