-- ==== Sys2Proof/Certificates/Slice0/Obligations.lean ====
section
/-! DEFINITION. The statements for the provers, family by family: encodings, CRC engine, command frames and bytes, response tests, the
command protocol, the policies, block I/O, initialisation, and the whole machine. -/

open Sys2Proof Sys2Proof.Machine

/-! ## Encodings -/

/-- Decoding an encoded instruction gives it back, for every row with an encoding and every operand value; only the
six micro-operations have none (30_encoding.md R91, R100, R101, R110; the bytes of a host request and a host response
are log 23, the open bits of a response value log 11). -/
def Obligations.DecodeOfEncode : Prop :=
  (∀ (i : Instr) (f : Format) (bs : List Byte), encode i = some (f, bs) → decode f bs = .ok i) ∧
  (∀ i : Instr, encode i = none →
    (∃ d, i = .crc7 d) ∨ (∃ d, i = .crc16 d) ∨ (∃ c a fl, i = .sendCommand c a fl) ∨
      (∃ c a fl e m, i = .checkCommand c a fl e m) ∨ (∃ k us, i = .findToken k us) ∨
      (∃ c a l d, i = .readBlock c a l d))

/-- In the formats without a bit left open, bytes that decode are exactly the encoding of what they decode to: every
word has one meaning (R91, R97, R99, R100, R101; the bytes of HREQ and HRSP are log 23). -/
def Obligations.EncodeOfDecode : Prop :=
  ∀ f ∈ [Format.cmd48, .hreq, .hrsp, .byte, .dblk], ∀ (bs : List Byte) (i : Instr),
    decode f bs = .ok i → encode i = some (f, bs)

/-- Six bytes decode as a command frame only if they are the frame builder's bytes of an index the block emits: start
bits, stop bit and CRC7 are all checked (R91, R94, R106; U8). -/
def Obligations.OnlyBuiltFramesDecode : Prop :=
  ∀ (bs : List Byte) (i : Instr), decode .cmd48 bs = .ok i →
    ∃ index arg, emitted index = true ∧ bs = (frameBytes index arg).toList

/-- The frame builder's layout: byte 0 is 0x40 or index, bytes 1 to 4 the argument most significant first, byte 5 the
CRC7 of the five bytes before it, with the stop bit set; it is the encoder's frame (R92, R93, R94; 41_command.md R151). -/
def Obligations.FrameLayout : Prop :=
  ∀ (index : BitVec 6) (arg : Word),
    let fb := frameBytes index arg
    fb[0] = 0x40#8 ||| index.zeroExtend 8 ∧ fb[0] = 0b01#2 ++ index ∧
    fb[1] = (arg >>> 24).setWidth 8 ∧ fb[2] = (arg >>> 16).setWidth 8 ∧
    fb[3] = (arg >>> 8).setWidth 8 ∧ fb[4] = arg.setWidth 8 ∧
    fb[5] = crc7Of [fb[0], fb[1], fb[2], fb[3], fb[4]] ∧ fb[5].getLsbD 0 = true ∧
    fb.toList = encodeFrame index arg

/-- Words written out from the spec's tables decode to what they stand for (R91, R97 to R101, R104; that a host request
stands in five bytes and a host response in one is log 23). -/
def Obligations.SpecWordsDecode : Prop :=
  decode .cmd48 [0x40#8, 0x00#8, 0x00#8, 0x00#8, 0x00#8, 0x95#8] = .ok .cmd0 ∧
  decode .cmd48 [0x48#8, 0x00#8, 0x00#8, 0x01#8, 0x0A#8, 0x61#8] = .ok (.cmd8 0x0000010A#32) ∧
  decode .cmd48 [0x51#8, 0x00#8, 0x07#8, 0xD0#8, 0x00#8, 0xD3#8] = .ok (.cmd17 0x0007D000#32) ∧
  decode .cmd48 [0x69#8, 0x40#8, 0x00#8, 0x00#8, 0x00#8, 0x77#8] = .ok .acmd41 ∧
  decode .hreq [0x02#8, 0x00#8, 0x00#8, 0x03#8, 0xE8#8] = .ok (.read 1000) ∧
  decode .hrsp [0x02#8] = .ok .stNoinit ∧ decode .byte [0xFF#8] = .ok .filler ∧ decode .dblk [0xFE#8] = .ok .startBlock ∧
  decode .drsp [0xE5#8] = .ok .drspAccepted ∧ decode .r0 [0x05#8] = .ok .r0V1

/-! ## The CRC engine -/

/-- `crc7` runs in every state, touches nothing but the value returned, and returns the bit-serial CRC with generator
x^7 + x^3 + 1 in bits 7:1 and 1 in bit 0 (40_crc.md R130, R131, R132). -/
def Obligations.Crc7IsTheSerialCrc : Prop :=
  ∀ (data : List Byte) (s : State), ∃ v : Byte,
    exec (.crc7 data) s = .next { s with ret := .byte v } ∧
    v = ((messageBits data).foldl serial7 0#7 ++ 1#1 : BitVec 8)

/-- `crc16` runs in every state, touches nothing but the value returned, and returns the bit-serial CRC with generator
x^16 + x^12 + x^5 + 1 (R130, R134, R135). -/
def Obligations.Crc16IsTheSerialCrc : Prop :=
  ∀ (data : List Byte) (s : State),
    exec (.crc16 data) s = .next { s with ret := .half ((messageBits data).foldl serial16 0#16) }

/-- The residue: `crc16` of data followed by its own CRC, high byte first, is zero (R135 c). -/
def Obligations.Crc16Residue : Prop :=
  ∀ data : List Byte, crc16Of (data ++ halfBytes (crc16Of data)) = 0#16

/-- Both CRCs, before the final `or` of `crc7`, are linear over GF(2) on inputs of equal length (R132 d, R135 b). -/
def Obligations.CrcsAreLinear : Prop :=
  ∀ xs ys : List Byte, xs.length = ys.length →
    crc7Raw (List.zipWith (· ^^^ ·) xs ys) = crc7Raw xs ^^^ crc7Raw ys ∧
    crc16Of (List.zipWith (· ^^^ ·) xs ys) = crc16Of xs ^^^ crc16Of ys

/-! ## Command frames and bytes -/

/-- Each frame with a fixed argument, run in any state: `ARG` and `FB` take the spec's values, exactly the six bytes of
the spec's table go out, what comes back is discarded, and nothing else changes (R102, R104; 41_command.md R151). That
a frame by itself is built and sent and nothing more is log 10. -/
def Obligations.FixedFramesAreSent : Prop :=
  ∀ p ∈ ([(.cmd0, 0x00000000#32, #v[0x40#8, 0x00#8, 0x00#8, 0x00#8, 0x00#8, 0x95#8]),
      (.cmd1, 0x00000000#32, #v[0x41#8, 0x00#8, 0x00#8, 0x00#8, 0x00#8, 0xF9#8]),
      (.cmd9, 0x00000000#32, #v[0x49#8, 0x00#8, 0x00#8, 0x00#8, 0x00#8, 0xAF#8]),
      (.cmd16, 0x00000200#32, #v[0x50#8, 0x00#8, 0x00#8, 0x02#8, 0x00#8, 0x15#8]),
      (.acmd41, 0x40000000#32, #v[0x69#8, 0x40#8, 0x00#8, 0x00#8, 0x00#8, 0x77#8]),
      (.cmd58, 0x00000000#32, #v[0x7A#8, 0x00#8, 0x00#8, 0x00#8, 0x00#8, 0xFD#8]),
      (.cmd59On, 0x00000001#32, #v[0x7B#8, 0x00#8, 0x00#8, 0x00#8, 0x01#8, 0x83#8]),
      (.cmd59Off, 0x00000000#32, #v[0x7B#8, 0x00#8, 0x00#8, 0x00#8, 0x00#8, 0x91#8])] : List (Instr × Word × Vector Byte 6)),
    ∀ s : State, ∃ t rx, exec p.1 s = .next t ∧ Exchanged p.2.2.toList rx s.bus t.bus ∧
      t = { s with arg := p.2.1, fb := p.2.2, bus := t.bus } ∧ ∀ a, t.buf.read a = s.buf.read a

/-- The frames with an open argument, run in any state with any argument: the frame is 0x40 or index, the argument
most significant byte first, and the CRC7 of those five bytes; its six bytes go out and nothing else changes (R91 to
R94, R104; 41_command.md R151; log 10). -/
def Obligations.ArgumentFramesAreSent : Prop :=
  ∀ (arg : Word) (s : State),
    ∀ p ∈ [(Instr.cmd8 arg, 0x48#8), (.cmd17 arg, 0x51#8), (.cmd24 arg, 0x58#8)],
      let head := [p.2, (arg >>> 24).setWidth 8, (arg >>> 16).setWidth 8, (arg >>> 8).setWidth 8, arg.setWidth 8]
      ∃ t rx, exec p.1 s = .next t ∧ Exchanged (head ++ [crc7Of head]) rx s.bus t.bus ∧
        t.fb.toList = head ++ [crc7Of head] ∧ t = { s with arg := arg, fb := t.fb, bus := t.bus } ∧
        ∀ a, t.buf.read a = s.buf.read a

/-- The CMD55 row in any state: the frame and eight filler bytes of the APP_CMD prefix, fourteen exchanges, all that comes
back discarded; `ARG` and everything else but `FB` unchanged. What the prefix does is step 2 of `send_command`
(41_command.md R152); that the row by itself is this whole prefix, where every other row is its frame alone, is log 10. -/
def Obligations.PrefixCostsFourteenExchanges : Prop :=
  ∀ s : State, ∃ t rx, exec .cmd55 s = .next t ∧ rx.length = 14 ∧
    Exchanged ([0x77#8, 0x00#8, 0x00#8, 0x00#8, 0x00#8, 0x65#8] ++ List.replicate 8 0xFF#8) rx s.bus t.bus ∧
    t = { s with fb := #v[0x77#8, 0x00#8, 0x00#8, 0x00#8, 0x00#8, 0x65#8], bus := t.bus } ∧ ∀ a, t.buf.read a = s.buf.read a

/-- A status in any state: one `Rsp` event, `SEQ` to `IDLE`, nothing else (R101; 10_state.md R28). -/
def Obligations.StatusesRespond : Prop :=
  ∀ p ∈ [(Instr.stOk, Status.ok), (.stFail, .fail), (.stNoinit, .noinit)], ∀ s : State, ∃ t,
    exec p.1 s = .next t ∧ t.bus.trace = s.bus.trace ++ [.rsp p.2] ∧
    t = { s with seq := [], rsp := some p.2, bus := { s.bus with trace := t.bus.trace } } ∧
    ∀ a, t.buf.read a = s.buf.read a

/-- The filler byte and the data-start token in any state: one exchange of 0xFF, whose answer is the value read, and
one exchange of 0xFE, whose answer is discarded; nothing else changes (R97, R99). -/
def Obligations.SingleBytesAreExchanged : Prop :=
  (∀ s : State, ∃ t b, exec .filler s = .next t ∧ Exchanged [0xFF#8] [b] s.bus t.bus ∧
    t = { s with ret := .byte b, bus := t.bus } ∧ ∀ a, t.buf.read a = s.buf.read a) ∧
  (∀ s : State, ∃ t b, exec .startBlock s = .next t ∧ Exchanged [0xFE#8] [b] s.bus t.bus ∧
    t = { s with bus := t.bus } ∧ ∀ a, t.buf.read a = s.buf.read a)

/-- The four tests of R0 in any state: the outcome is the test of the spec's table on `RB[0]`; only the version 1 test
has an effect, `VER <- 1` where it holds (R95; 43_init.md R209). That the outcome is kept in `ret` is log 11. -/
def Obligations.ResponseTests : Prop :=
  ∀ s : State,
    exec .r0None s = .next { s with ret := .bool (decide (s.rb[0].toNat = 255)) } ∧
    exec .r0Ready s = .next { s with ret := .bool (decide (s.rb[0].toNat = 0)) } ∧
    exec .r0Idle s = .next { s with ret := .bool (decide (s.rb[0].toNat = 1)) } ∧
    ∃ t, exec .r0V1 s = .next t ∧ t = { s with ver := t.ver, ret := .bool (decide (s.rb[0].toNat / 4 % 2 = 1)) } ∧
      t.ver = if s.rb[0].toNat / 4 % 2 = 1 then 1#2 else s.ver

/-- The data-response test in any state: a window of nothing but filler is a rejection; else the first byte that is
not filler is accepted iff its low five bits are 5 (R98; 44_block_io.md R267; log 11). -/
def Obligations.DataResponseTest : Prop :=
  ∀ s : State, ∃ b : Bool, exec .drspAccepted s = .next { s with ret := .bool b } ∧
    ((∀ k : Fin 8, s.rb[k] = 0xFF#8) → b = false) ∧
    (∀ j : Fin 8, s.rb[j] ≠ 0xFF#8 → (∀ k : Fin 8, k < j → s.rb[k] = 0xFF#8) →
      (b = true ↔ s.rb[j].toNat % 32 = 5))

/-! ## The command protocol -/

/-- `send_command` in any state, any flags: one bracket with exactly `p + 6 + 8 + e` exchanges (the prefix, the frame,
then filler), `e` at most 4 and 0 without `full_response`; it returns `RB[0]`; only `FB`, `RB`, `ARG`, `CS` and the bus
change, and `CS` ends at 1 (41_command.md R150, R151, R152, R156, R158, R159). -/
def Obligations.SendCommandBracket : Prop :=
  ∀ (cmd : BitVec 6) (arg : Word) (fl : CmdFlags) (s : State), ∃ t e rx,
    exec (.sendCommand cmd arg fl) s = .next t ∧
    t.bus.trace = s.bus.trace ++ bracket (commandBytes cmd arg fl.appCmd ++ List.replicate (8 + e) 0xFF#8) rx ∧
    rx.length = (if fl.appCmd then 14 else 0) + 6 + 8 + e ∧ e ≤ 4 ∧ (fl.fullResponse = false → e = 0) ∧
    t.bus.miso = s.bus.miso.drop rx.length ∧ t.bus.clock = s.bus.clock ∧ t.ret = .byte t.rb[0] ∧
    t = { s with cs := true, fb := frameBytes cmd arg, arg := arg, rb := t.rb, ret := t.ret, bus := t.bus } ∧
    ∀ a, t.buf.read a = s.buf.read a

/-- Scan, shift and completion. First clause: the window holds filler up to offset `i` and then the response `r0` with
the bytes `tail` behind it, and `extra` are the next bytes the card sends, of which a full response takes `i - 3` where
`i` is at least 4: then `r0` is returned and is `RB[0]`, the bytes behind it stand behind it in `RB`, none dropped and
none doubled, and no byte beyond is taken. Second clause: a window of nothing but filler returns 0xFF, leaves it in all
of `RB`, and takes nothing more, whatever the flags (41_command.md R153, R154, R155, R157, R160; 10_state.md R30). -/
def Obligations.ResponseScan : Prop :=
  ∀ (cmd : BitVec 6) (arg : Word) (fl : CmdFlags) (s : State) (skip more : List Byte),
    skip.length = (if fl.appCmd then 14 else 0) + 6 →
    (∀ (i : Nat) (r0 : Byte) (tail extra : List Byte), r0 ≠ 0xFF#8 → i + 1 + tail.length = 8 →
      extra.length = (if fl.fullResponse then i - 3 else 0) →
      s.bus.miso = skip ++ List.replicate i 0xFF#8 ++ [r0] ++ tail ++ extra ++ more →
      ∃ t, exec (.sendCommand cmd arg fl) s = .next t ∧ t.ret = .byte r0 ∧ t.bus.miso = more ∧
        ∀ (k : Nat) (h : k < 8) (h' : k < (r0 :: (tail ++ extra)).length), t.rb[k] = (r0 :: (tail ++ extra))[k]) ∧
    (s.bus.miso = skip ++ List.replicate 8 0xFF#8 ++ more →
      ∃ t, exec (.sendCommand cmd arg fl) s = .next t ∧ t.ret = .byte 0xFF#8 ∧ t.bus.miso = more ∧
        t.rb = Vector.replicate 8 0xFF#8)

/-! ## The policies -/

/-- `check_command` in any state: with `k` attempts made, `k` brackets and `k - 1` delays of 1 ms, `ATT = k`; it fails
only after all of them; with a budget of 0 nothing but `ATT` is written, nothing
is exchanged, and it fails; `FLAGS`, `ERR` and everything but the
registers of `send_command` and `ATT` are unchanged (42_policies.md R180, R181, R184). -/
def Obligations.CheckCommandCounts : Prop :=
  ∀ (cmd : BitVec 6) (arg : Word) (fl : CmdFlags) (expected m : Byte) (s : State), ∃ t ok k evs,
    exec (.checkCommand cmd arg fl expected m) s = .next t ∧ t.ret = .bool ok ∧
    t.bus.trace = s.bus.trace ++ evs ∧ t.att.toNat = k ∧ k ≤ m.toNat ∧ (ok = false → k = m.toNat) ∧
    (0 < m.toNat → 0 < k) ∧ (m.toNat = 0 → ok = false ∧ evs = [] ∧ t = { s with att := 0#8, ret := .bool false }) ∧
    evs.count .prepare = k ∧ evs.count (.cs false) = k ∧ evs.count (.cs true) = k ∧
    evs.count (.delay 1000) = k - 1 ∧
    t = { s with cs := t.cs, fb := t.fb, arg := t.arg, rb := t.rb, att := t.att, ret := t.ret, bus := t.bus } ∧
    (0 < m.toNat → t.cs = true ∧ t.fb = frameBytes cmd arg ∧ t.arg = arg) ∧ ∀ a, t.buf.read a = s.buf.read a

/-- `check_command` succeeds on the first attempt whose response is accepted in its mode, and fails only after all
`max_attempts` responses were not; then `RB[0]` is the response of the last attempt made (42_policies.md R181, R182,
R183). -/
def Obligations.CheckCommandFirstMatch : Prop :=
  ∀ (cmd : BitVec 6) (arg : Word) (fl : CmdFlags) (expected m : Byte) (s : State), ∃ t,
    exec (.checkCommand cmd arg fl expected m) s = .next t ∧
    let answers := attemptAnswers cmd arg fl m.toNat { s with att := 0#8 }
    ((t.ret = .bool true ∧ ∃ k, ∃ h : k < answers.length, Accepts fl expected answers[k] ∧ t.rb[0] = answers[k] ∧
        t.att.toNat = k + 1 ∧ ∀ j (_ : j < answers.length), j < k → ¬ Accepts fl expected answers[j]) ∨
      (t.ret = .bool false ∧ t.att = m ∧ ∀ r ∈ answers, ¬ Accepts fl expected r))

/-- `find_token` in any state, with any answers of the card and of the time source: filler is sent, at least once;
found, the token is the last byte received and the first of its value; not found, no byte received is the token; it
takes no byte beyond, writes `DEADLINE` and nothing else, and does not touch `CS` (42_policies.md R186, R187). -/
def Obligations.FindTokenNeverScansPast : Prop :=
  ∀ (token : Byte) (us : Word) (s : State), ∃ t found evs rs,
    exec (.findToken token us) s = .next t ∧ t.ret = .bool found ∧ t.bus.trace = s.bus.trace ++ evs ∧
    (∀ e ∈ evs, e.isWait = true) ∧ receivedBytes evs = rs ∧ sentBytes evs = List.replicate rs.length 0xFF#8 ∧
    rs ≠ [] ∧ (found = true → ∃ before, rs = before ++ [token] ∧ token ∉ before) ∧
    (found = false → token ∉ rs) ∧ t.bus.miso = s.bus.miso.drop rs.length ∧
    t = { s with deadline := t.deadline, ret := t.ret, bus := t.bus } ∧ ∀ a, t.buf.read a = s.buf.read a

/-- The deadline. It is taken once, `t0` plus the timeout in ticks. First clause: the bytes before the token arrive
while every look at the time is before the deadline, so the token is found. Second clause: the last look at the time is
not before the deadline and no byte was the token, so the wait fails there (42_policies.md R186; D7, D21). -/
def Obligations.FindTokenDeadline : Prop :=
  ∀ (token : Byte) (us : Word) (s : State) (t0 : Nat) (quiet more : List Byte) (ticks rest : List Nat),
    let w := s.cfg.tickW
    let deadline := (t0 + us.toNat * s.cfg.ticksPerUs) % 2 ^ w
    let early : Nat → Prop := fun tick => (2 : Int) ^ (w - 1) ≤ ((tick : Int) - deadline) % 2 ^ w
    token ∉ quiet → (∀ tick ∈ ticks, early tick) →
    (s.bus.miso = quiet ++ token :: more → s.bus.clock = t0 :: ticks ++ rest → ticks.length = quiet.length →
      ∃ t, exec (.findToken token us) s = .next t ∧ t.ret = .bool true ∧ t.deadline = deadline ∧
        t.bus.miso = more ∧ t.bus.clock = rest) ∧
    (∀ last : Nat, ¬ early last → s.bus.miso = quiet ++ more → s.bus.clock = t0 :: ticks ++ last :: rest →
      ticks.length + 1 = quiet.length →
      ∃ t, exec (.findToken token us) s = .next t ∧ t.ret = .bool false ∧ t.deadline = deadline ∧
        t.bus.miso = more ∧ t.bus.clock = rest)

/-! ## Block I/O -/

/-- The read-block primitive in any state, in both its shapes: one bracket, the frame and then filler, at least 1 + 1 +
L + 2 + 1 of it on every path. What comes in: six bytes that are discarded, the response scan of at most 16, the wait for
the start token, the payload, the two CRC bytes, the wait for the idle line; the scan stops at the first byte that is not
filler, each wait at its token. `FAULT` ends at 1 exactly if the scan does not end with 0x00 (no response in 16 bytes
among the reasons), the start token did not come, or the idle line did not come. The verdict: a fault gives `read-error`
without a comparison, else the CRC16 of the payload is computed and a difference gives `crc-error`, at most one bit of
`ERR`. `FLAGS` and every register it does not write are unchanged, and of `BUF` and `CSD` the one that is not the
destination (44_block_io.md R250 to R259; 60_exceptions.md R301). -/
def Obligations.ReadBlockVerdict : Prop :=
  ∀ (cmd : BitVec 6) (arg : Word) (len : Nat) (d : BlockDest) (s : State), readBlockShape cmd len d = true →
    ∃ t evs n skip scan wait payload hi lo idle, exec (.readBlock cmd arg len d) s = .next t ∧
      t.bus.trace = s.bus.trace ++ ([.prepare, .cs false] ++ evs ++ [.cs true]) ∧ (∀ e ∈ evs, e.isWait = true) ∧
      sentBytes evs = (frameBytes cmd arg).toList ++ List.replicate n 0xFF#8 ∧ len + 5 ≤ n ∧
      receivedBytes evs = skip ++ scan ++ wait ++ payload ++ [hi, lo] ++ idle ∧ skip.length = 6 ∧
      Scanned 16 scan ∧ Awaited 0xFE#8 wait ∧ payload.length = len ∧ Awaited 0xFF#8 idle ∧
      t.crcRx = hi ++ lo ∧ (s.buf.wf = true → destLoad d len t = payload) ∧
      (t.fault = true ↔ scan.getLast? ≠ some 0x00#8 ∨ 0xFE#8 ∉ wait ∨ 0xFF#8 ∉ idle) ∧
      ((t.fault = true ∧ t.ret = .bool false ∧ t.err = s.err ||| 0x20#8 ∧ t.crc = s.crc) ∨
        (t.fault = false ∧ t.crc = crc16Of (destLoad d len t) ∧ t.crc ≠ t.crcRx ∧ t.ret = .bool false ∧
          t.err = s.err ||| 0x04#8) ∨
        (t.fault = false ∧ t.crc = crc16Of (destLoad d len t) ∧ t.crc = t.crcRx ∧ t.ret = .bool true ∧
          t.err = s.err)) ∧
      t = { s with
        cs := true, fb := frameBytes cmd arg, arg := arg, err := t.err, fault := t.fault, crc := t.crc
        crcRx := t.crcRx, deadline := t.deadline, csd := t.csd, buf := t.buf, ret := t.ret, bus := t.bus } ∧
      (d = .csd → ∀ a, t.buf.read a = s.buf.read a) ∧ (d = .buf → t.csd = s.csd)

/-- A block on the wire, after `n` filler bytes and a response `r`, the start token next: the payload lands in the
destination byte for byte, and the verdict follows from `r` and the received CRC alone (44_block_io.md R252 to R257,
20_memory.md R61, R62). -/
def Obligations.ReadBlockDelivers : Prop :=
  ∀ (cmd : BitVec 6) (arg : Word) (len : Nat) (d : BlockDest) (s : State) (skip payload more : List Byte) (n : Nat)
    (r hi lo : Byte), readBlockShape cmd len d = true → s.buf.wf = true → skip.length = 6 → n ≤ 15 → r ≠ 0xFF#8 →
    payload.length = len →
    s.bus.miso = skip ++ List.replicate n 0xFF#8 ++ [r, 0xFE#8] ++ payload ++ [hi, lo, 0xFF#8] ++ more →
    ∃ t, exec (.readBlock cmd arg len d) s = .next t ∧ destLoad d len t = payload ∧ t.crcRx = hi ++ lo ∧
      t.bus.miso = more ∧
      (r ≠ 0x00#8 → t.ret = .bool false ∧ t.err = s.err ||| 0x20#8) ∧
      (r = 0x00#8 → crc16Of payload ≠ hi ++ lo → t.ret = .bool false ∧ t.err = s.err ||| 0x04#8) ∧
      (r = 0x00#8 → crc16Of payload = hi ++ lo → t.ret = .bool true ∧ t.err = s.err)

/-- READ and WRITE in the uninitialised mode: the request and the response ST_NOINIT are the only events, and nothing
else changes (44_block_io.md R262, R264; 60_exceptions.md R302, R310). -/
def Obligations.UninitialisedGate : Prop :=
  ∀ (sector : Word) (s : State), s.flags.getLsbD 0 = false →
    ∀ p ∈ [(Instr.read sector, 2#2), (.write sector, 3#2)], ∃ t, exec p.1 s = .next t ∧
      t.bus.trace = s.bus.trace ++ [.req p.2 sector, .rsp .noinit] ∧
      t = { s with seq := [], rsp := some .noinit, bus := { s.bus with trace := t.bus.trace } } ∧
      ∀ a, t.buf.read a = s.buf.read a

/-- READ and WRITE of an initialised block put the mapped sector into `ARG` and into the frame they send: the sector
itself with `high_capacity`, else sector times 512 modulo 2^32 (20_memory.md R70). -/
def Obligations.SectorMapping : Prop :=
  ∀ (sector : Word) (s : State), s.flags.getLsbD 0 = true →
    ∀ p ∈ [(Instr.read sector, 17#6, 0x51#8), (.write sector, 24#6, 0x58#8)],
      let arg := if s.flags.getLsbD 1 then sector else BitVec.ofNat 32 (sector.toNat * 512)
      ∃ t evs rest, exec p.1 s = .next t ∧ t.arg = arg ∧ t.fb = frameBytes p.2.1 arg ∧ t.fb[0] = p.2.2 ∧
        t.bus.trace = s.bus.trace ++ evs ∧ sentBytes evs = t.fb.toList ++ rest

/-- READ of an initialised block, in any state and with any answers. One bracket, whose received bytes are six discarded
ones, the response scan, the wait for the start token, the payload, the two CRC bytes and the wait for the idle line. It
ends with ST_FAIL and `read-error` exactly if `FAULT` is 1, that is if one of the three parts failed; else with ST_FAIL
and `crc-error` if the CRC16 of the payload is not the one received; else with ST_OK and no new bit of `ERR`. Idle and
deselected; `FLAGS`, `RATE`, `CSD` and every register it does not write unchanged (44_block_io.md R252 to R257, R262,
R263; 10_state.md R32, R33). -/
def Obligations.ReadOutcome : Prop :=
  ∀ (sector : Word) (s : State), s.flags.getLsbD 0 = true → ∃ t evs st skip scan wait payload hi lo idle,
    exec (.read sector) s = .next t ∧
    t.bus.trace = s.bus.trace ++ ([.req 2 sector, .prepare, .cs false] ++ evs ++ [.cs true, .rsp st]) ∧
    (∀ e ∈ evs, e.isWait = true) ∧ t.rsp = some st ∧
    receivedBytes evs = skip ++ scan ++ wait ++ payload ++ [hi, lo] ++ idle ∧ skip.length = 6 ∧
    Scanned 16 scan ∧ Awaited 0xFE#8 wait ∧ payload.length = 512 ∧ Awaited 0xFF#8 idle ∧
    t.crcRx = hi ++ lo ∧ (s.buf.wf = true → t.buf.load 0 512 = payload) ∧
    (t.fault = true ↔ scan.getLast? ≠ some 0x00#8 ∨ 0xFE#8 ∉ wait ∨ 0xFF#8 ∉ idle) ∧
    ((st = .fail ∧ t.fault = true ∧ t.err = s.err ||| 0x20#8) ∨
      (st = .fail ∧ t.fault = false ∧ t.crc = crc16Of (t.buf.load 0 512) ∧ t.crc ≠ t.crcRx ∧
        t.err = s.err ||| 0x04#8) ∨
      (st = .ok ∧ t.fault = false ∧ t.crc = crc16Of (t.buf.load 0 512) ∧ t.crc = t.crcRx ∧ t.err = s.err)) ∧
    t = { s with
      seq := [], cs := true, fb := t.fb, arg := t.arg, err := t.err, fault := t.fault, crc := t.crc
      crcRx := t.crcRx, deadline := t.deadline, buf := t.buf, rsp := t.rsp, bus := t.bus } ∧
    ∀ a, 512 ≤ a → t.buf.read a = s.buf.read a

/-- READ on a card that answers ready within the scan and sends the block with its CRC16: ST_OK, `BUF` holds the
payload, first byte received at address 0, `ERR` unchanged, and the bytes sent are the CMD17 frame and one filler byte
for each byte received (44_block_io.md R262; 20_memory.md R62). -/
def Obligations.ReadDelivers : Prop :=
  ∀ (sector : Word) (s : State) (skip payload more : List Byte) (n : Nat) (hi lo : Byte),
    s.flags.getLsbD 0 = true → s.buf.wf = true → skip.length = 6 → n ≤ 15 → payload.length = 512 →
    crc16Of payload = hi ++ lo →
    s.bus.miso = skip ++ List.replicate n 0xFF#8 ++ [0x00#8, 0xFE#8] ++ payload ++ [hi, lo, 0xFF#8] ++ more →
    ∃ t evs, exec (.read sector) s = .next t ∧ t.rsp = some .ok ∧ t.err = s.err ∧
      (∀ (k : Nat) (h : k < payload.length), t.buf.read k = payload[k]) ∧ t.bus.miso = more ∧
      t.bus.trace = s.bus.trace ++ evs ∧
      sentBytes evs = t.fb.toList ++ List.replicate (n + 1 + 1 + 512 + 2 + 1) 0xFF#8

/-- WRITE of an initialised block, in any state and with any answers. One bracket. Either eight filler bytes answer CMD24
and nothing more is exchanged, or a response comes, then 515 bytes are discarded, the window is read, and the busy wait
ends at the first 0xFF. ST_OK and no new bit of `ERR` exactly if the data response is accepted and the busy wait ended
with 0xFF; in every other case, a busy timeout after an accepted data response among them, ST_FAIL and `write-error`.
Idle and deselected; `BUF`, `FLAGS`, `RATE` and every register it does not write unchanged (44_block_io.md R264, R265,
R267, R268, R269 c; 70_reset_and_hazards.md R349). -/
def Obligations.WriteOutcome : Prop :=
  ∀ (sector : Word) (s : State), s.flags.getLsbD 0 = true → ∃ t evs st skip answer rest,
    exec (.write sector) s = .next t ∧
    t.bus.trace = s.bus.trace ++ ([.req 3 sector, .prepare, .cs false] ++ evs ++ [.cs true, .rsp st]) ∧
    (∀ e ∈ evs, e.isWait = true) ∧ t.rsp = some st ∧
    receivedBytes evs = skip ++ answer ++ rest ∧ skip.length = 6 ∧ answer.length = 8 ∧
    ((answer = List.replicate 8 0xFF#8 ∧ rest = [] ∧ st = .fail) ∨
      ((∃ b ∈ answer, b ≠ 0xFF#8) ∧ ∃ data window idle, rest = data ++ window ++ idle ∧ data.length = 515 ∧
        window.length = 8 ∧ Awaited 0xFF#8 idle ∧ (st = .ok ↔ AcceptedWindow window ∧ 0xFF#8 ∈ idle))) ∧
    ((st = .ok ∧ t.err = s.err) ∨ (st = .fail ∧ t.err = s.err ||| 0x40#8)) ∧
    t.crc = crc16Of (s.buf.load 0 512) ∧
    t = { s with
      seq := [], cs := true, fb := t.fb, arg := t.arg, err := t.err, crc := t.crc, rb := t.rb
      deadline := t.deadline, rsp := t.rsp, bus := t.bus } ∧
    ∀ a, t.buf.read a = s.buf.read a

/-- WRITE with a response to CMD24 of any value. First clause, the data response `window` followed by an idle line: the
bytes sent are the frame, eight filler, the start token, the 512 bytes of `BUF` in order, the CRC16 high byte first, eight
filler and one poll; ST_OK iff the first byte of the window that is not filler has low five bits 5, else `write-error`.
Second clause, the line busy until the last look at the time, which is not before the deadline: `write-error`, whatever the
window, accepted too (44_block_io.md R265, R266, R267, R268, R269 c d; 42_policies.md R186; 20_memory.md R61, R62). -/
def Obligations.WriteSendsTheBlock : Prop :=
  (∀ (sector : Word) (s : State) (skip answer data window more : List Byte), s.flags.getLsbD 0 = true →
    skip.length = 6 → answer.length = 8 → (∃ b ∈ answer, b ≠ 0xFF#8) → data.length = 515 → window.length = 8 →
    s.bus.miso = skip ++ answer ++ data ++ window ++ [0xFF#8] ++ more →
    let crc := crc16Of (s.buf.load 0 512)
    ∃ t evs, exec (.write sector) s = .next t ∧ t.bus.miso = more ∧ t.bus.trace = s.bus.trace ++ evs ∧
      sentBytes evs = t.fb.toList ++ List.replicate 8 0xFF#8 ++ [0xFE#8] ++ s.buf.load 0 512 ++
        [(crc >>> 8).setWidth 8, crc.setWidth 8] ++ List.replicate 9 0xFF#8 ∧
      ((∃ b, window.find? (fun b => b != 0xFF#8) = some b ∧ b.toNat % 32 = 5) →
        t.rsp = some .ok ∧ t.err = s.err) ∧
      ((∀ b, window.find? (fun b => b != 0xFF#8) = some b → b.toNat % 32 ≠ 5) →
        t.rsp = some .fail ∧ t.err = s.err ||| 0x40#8)) ∧
  (∀ (sector : Word) (s : State) (skip answer data window busy more : List Byte) (t0 last : Nat) (ticks rest : List Nat),
    let w := s.cfg.tickW
    let deadline := (t0 + 50000 * s.cfg.ticksPerUs) % 2 ^ w
    let early : Nat → Prop := fun tick => (2 : Int) ^ (w - 1) ≤ ((tick : Int) - deadline) % 2 ^ w
    s.flags.getLsbD 0 = true → skip.length = 6 → answer.length = 8 → (∃ b ∈ answer, b ≠ 0xFF#8) → data.length = 515 →
    window.length = 8 → 0xFF#8 ∉ busy → (∀ tick ∈ ticks, early tick) → ¬ early last →
    ticks.length + 1 = busy.length →
    s.bus.miso = skip ++ answer ++ data ++ window ++ busy ++ more → s.bus.clock = t0 :: ticks ++ last :: rest →
    ∃ t, exec (.write sector) s = .next t ∧ t.rsp = some .fail ∧ t.err = s.err ||| 0x40#8 ∧ t.cs = true ∧ t.seq = [] ∧
      t.deadline = deadline ∧ t.bus.miso = more ∧ t.bus.clock = rest)

/-- WRITE without a response to CMD24: fourteen exchanges, one bracket, nothing more is sent, `write-error`
(44_block_io.md R265; 60_exceptions.md R301). -/
def Obligations.WriteUnanswered : Prop :=
  ∀ (sector : Word) (s : State) (skip more : List Byte), s.flags.getLsbD 0 = true → skip.length = 6 →
    s.bus.miso = skip ++ List.replicate 8 0xFF#8 ++ more →
    ∃ t, exec (.write sector) s = .next t ∧ t.rsp = some .fail ∧ t.err = s.err ||| 0x40#8 ∧ t.cs = true ∧
      t.seq = [] ∧ t.bus.miso = more ∧ t.bus.trace = s.bus.trace ++ [.req 3 sector] ++
        bracket (t.fb.toList ++ List.replicate 8 0xFF#8) (skip ++ List.replicate 8 0xFF#8) ++ [.rsp .fail]

/-- The round trip. Whatever WRITE put on the wire between the start token and the CRC, with the CRC bytes it sent,
given back by the card to a later READ of an initialised block makes that READ end with ST_OK and leaves `BUF` as it was
at the WRITE (20_memory.md R73; 95_test_vectors.md E5). -/
def Obligations.WriteThenReadRoundTrip : Prop :=
  ∀ (sector sector' : Word) (s t u : State) (skip answer data window skip' more more' : List Byte) (evs : List Event),
    s.flags.getLsbD 0 = true → skip.length = 6 → answer.length = 8 → (∃ b ∈ answer, b ≠ 0xFF#8) →
    data.length = 515 → window.length = 8 → (∃ b, window.find? (fun b => b != 0xFF#8) = some b ∧ b.toNat % 32 = 5) →
    s.bus.miso = skip ++ answer ++ data ++ window ++ [0xFF#8] ++ more →
    exec (.write sector) s = .next t → t.bus.trace = s.bus.trace ++ evs →
    let payload := ((sentBytes evs).drop 15).take 512
    let trailer := ((sentBytes evs).drop 527).take 2
    u.flags.getLsbD 0 = true → u.buf.wf = true → skip'.length = 6 →
    u.bus.miso = skip' ++ [0x00#8, 0xFE#8] ++ payload ++ trailer ++ [0xFF#8] ++ more' →
    t.rsp = some .ok ∧
    ∃ v, exec (.read sector') u = .next v ∧ v.rsp = some .ok ∧ ∀ a, a < 512 → v.buf.read a = s.buf.read a

/-! ## De-initialisation and initialisation -/

/-- DEINIT, any state and any answers. First: two brackets of fourteen bytes, CMD0 and CMD59(0), then the latch and
ST_OK; only that bit of `FLAGS` changes, `ERR` and `RATE` do not. Once latched: ST_OK and no event of its own
(43_init.md R222). -/
def Obligations.DeinitActsOnce : Prop :=
  ∀ (sector : Word) (s : State),
    (s.flags.getLsbD 3 = false → ∃ t rx ry, exec (.deinit sector) s = .next t ∧ rx.length = 14 ∧ ry.length = 14 ∧
      t.bus.trace = s.bus.trace ++ [.req 1 sector] ++
        bracket ([0x40#8, 0x00#8, 0x00#8, 0x00#8, 0x00#8, 0x95#8] ++ List.replicate 8 0xFF#8) rx ++
        bracket ([0x7B#8, 0x00#8, 0x00#8, 0x00#8, 0x00#8, 0x91#8] ++ List.replicate 8 0xFF#8) ry ++ [.rsp .ok] ∧
      t = { s with
        flags := s.flags ||| 0x08#8, seq := [], cs := true, fb := t.fb, rb := t.rb, arg := 0#32
        rsp := some .ok, bus := t.bus } ∧ ∀ a, t.buf.read a = s.buf.read a) ∧
    (s.flags.getLsbD 3 = true → ∃ t, exec (.deinit sector) s = .next t ∧
      t.bus.trace = s.bus.trace ++ [.req 1 sector, .rsp .ok] ∧
      t = { s with seq := [], rsp := some .ok, bus := { s.bus with trace := t.bus.trace } } ∧
      ∀ a, t.buf.read a = s.buf.read a)

/-- Every INIT, in any state, begins with its request and the power-up framing: configure, the init rate, 1 ms, ten
exchanges of filler with the card deselected, before any `Prepare` (43_init.md R202, the pseudocode of R203, R204; D23).
That the `Configure` event carries `SPI_BUS` and `SPI_MODE` is the model's form of it, log 13. -/
def Obligations.InitPowersUp : Prop :=
  ∀ (sector : Word) (s : State), ∃ t rx rest, exec (.init sector) s = .next t ∧ rx.length = 10 ∧
    t.bus.trace = s.bus.trace ++ [.req 0 sector, .configure s.cfg.spiBus s.cfg.spiMode, .setRate .init, .delay 1000] ++
      List.zipWith Event.xfer (List.replicate 10 0xFF#8) rx ++ rest

/-- INIT ends, in any state and with any answers, in one of three ways: ST_OK with `initialized` set, the fast rate, no
new bit of `ERR` and a CSD without a write-protect bit; ST_FAIL with one cause of INIT in `ERR`; or ST_FAIL with
`write_protected` set and no new bit of `ERR`. A failure leaves the init rate and does not set `initialized`. Idle,
deselected, `BUF` untouched (43_init.md R200, R201, R219 to R221; 60_exceptions.md R302, R303, R306). -/
def Obligations.InitOutcome : Prop :=
  ∀ (sector : Word) (s : State), ∃ t, exec (.init sector) s = .next t ∧ t.seq = [] ∧ t.cs = true ∧
    t.buf = s.buf ∧ (∀ a, t.buf.read a = s.buf.read a) ∧ t.cfg = s.cfg ∧ t.host = s.host ∧ t.ret = s.ret ∧
    ((t.rsp = some .ok ∧ t.rate = .fast ∧ t.err = s.err ∧
        (t.flags = s.flags ||| 0x01#8 ∨ t.flags = s.flags ||| 0x03#8) ∧ t.csd[14] &&& 0x30#8 = 0#8 ∧
        (t.ver = 1#2 ∨ t.ver = 2#2)) ∨
      (t.rsp = some .fail ∧ t.rate = .init ∧ (t.flags = s.flags ∨ t.flags = s.flags ||| 0x02#8) ∧
        ∃ mask ∈ [0x01#8, 0x02#8, 0x04#8, 0x08#8, 0x10#8, 0x20#8, 0x80#8], t.err = s.err ||| mask) ∨
      (t.rsp = some .fail ∧ t.rate = .init ∧ t.err = s.err ∧
        (t.flags = s.flags ||| 0x04#8 ∨ t.flags = s.flags ||| 0x06#8) ∧ t.csd[14] &&& 0x30#8 ≠ 0#8))

/-- INIT as one step of the sequencer is its ten steps run one by one: from the state with the request taken and `SEQ`
at step 1, at most ten steps reach the state INIT ends in (43_init.md R200, R223; 10_state.md R28). -/
def Obligations.InitIsItsTenSteps : Prop :=
  ∀ (sector : Word) (s : State), ∃ k t, k ≤ 10 ∧ exec (.init sector) s = .next t ∧
    Host.Core.run core k { s with
      seq := [.init .powerUp, .init .goIdle, .init .ifCond, .init .crcOn, .init .voltage, .init .opCond,
        .init .capacity, .init .blockLen, .init .writeProtect, .init .commit]
      bus := s.bus.emit (.req 0 sector) } = .next t

/-- The steps of INIT that repeat one command: each sends its own frame; it ends with the response it waits for, the
next step following and nothing recorded, or, its attempts used up and the last response not the one it waits for, with
its own cause in `ERR` and ST_FAIL (43_init.md R201, R205, R211, R213, R215, R216, R218, R223; 60_exceptions.md R301). R216 gives CMD1 for version 1; that step 6 sends
it for every other `VER` too, 0 and 3, which step 3 never leaves, is read from the `else` of R223, log 19. Columns: step,
mask, attempts, expected R0, frame for version 2, frame otherwise. -/
def Obligations.InitStepsFailWithTheirCause : Prop :=
  ∀ p ∈ ([
      (.goIdle, 0x01#8, 50#8, 0x01#8,
        #v[0x40#8, 0x00#8, 0x00#8, 0x00#8, 0x00#8, 0x95#8],
        #v[0x40#8, 0x00#8, 0x00#8, 0x00#8, 0x00#8, 0x95#8]),
      (.crcOn, 0x04#8, 3#8, 0x01#8,
        #v[0x7B#8, 0x00#8, 0x00#8, 0x00#8, 0x01#8, 0x83#8],
        #v[0x7B#8, 0x00#8, 0x00#8, 0x00#8, 0x01#8, 0x83#8]),
      (.voltage, 0x10#8, 20#8, 0x01#8,
        #v[0x7A#8, 0x00#8, 0x00#8, 0x00#8, 0x00#8, 0xFD#8],
        #v[0x7A#8, 0x00#8, 0x00#8, 0x00#8, 0x00#8, 0xFD#8]),
      (.opCond, 0x08#8, 250#8, 0x00#8,
        #v[0x69#8, 0x40#8, 0x00#8, 0x00#8, 0x00#8, 0x77#8],
        #v[0x41#8, 0x00#8, 0x00#8, 0x00#8, 0x00#8, 0xF9#8]),
      (.blockLen, 0x80#8, 3#8, 0x00#8,
        #v[0x50#8, 0x00#8, 0x00#8, 0x02#8, 0x00#8, 0x15#8],
        #v[0x50#8, 0x00#8, 0x00#8, 0x02#8, 0x00#8, 0x15#8])] :
      List (InitStep × Byte × Byte × Byte × Vector Byte 6 × Vector Byte 6)),
    ∀ (s : State) (rest : List Point), s.seq = .init p.1 :: rest → ∃ t, step s = .next t ∧
      t.cs = true ∧ t.flags = s.flags ∧ t.rate = s.rate ∧ t.ver = s.ver ∧
      t.fb = (if s.ver = 2#2 then p.2.2.2.2.1 else p.2.2.2.2.2) ∧
      ((t.seq = rest ∧ t.err = s.err ∧ t.rsp = s.rsp ∧ t.rb[0] = p.2.2.2.1 ∧
          (p.1 = .voltage → t.rb[2] &&& 0x30#8 = 0x30#8)) ∨
        (t.seq = [] ∧ t.err = s.err ||| p.2.1 ∧ t.rsp = some .fail ∧ t.att = p.2.2.1 ∧
          ¬ (t.rb[0] = p.2.2.2.1 ∧ (p.1 = .voltage → t.rb[2] &&& 0x30#8 = 0x30#8)))) ∧
      ∀ a, t.buf.read a = s.buf.read a

/-- Step 3 of INIT, any state: with bit 2 of R0 the card is version 1, else with both echo bytes version 2; anything
else, and three attempts without a response, is `if-cond-mismatch` (43_init.md R207, R208, R209). -/
def Obligations.InitClassifiesTheCard : Prop :=
  ∀ (s : State) (rest : List Point), s.seq = .init .ifCond :: rest → ∃ t, step s = .next t ∧
    t.fb = frameBytes 8 s.cfg.ifCondArg ∧ t.flags = s.flags ∧ t.cs = true ∧
    let echo := t.rb[3] = (s.cfg.ifCondArg >>> 8).setWidth 8 ∧ t.rb[4] = s.cfg.ifCondArg.setWidth 8
    ((t.seq = rest ∧ t.err = s.err ∧ t.ver = 1#2 ∧ t.rb[0] ≠ 0xFF#8 ∧ t.rb[0].getLsbD 2 = true) ∨
      (t.seq = rest ∧ t.err = s.err ∧ t.ver = 2#2 ∧ t.rb[0].getLsbD 2 = false ∧ echo) ∨
      (t.seq = [] ∧ t.rsp = some .fail ∧ t.err = s.err ||| 0x02#8 ∧ t.ver = s.ver ∧
        ((t.rb[0] = 0xFF#8 ∧ t.att = 3#8) ∨ (t.rb[0].getLsbD 2 = false ∧ ¬ echo))))

/-- Step 7 of INIT, any state: for version 2, CMD58 until R0 = 0x00, then `high_capacity` is set if bit 6 of `RB[1]`
is and is never cleared, or five attempts, the last response not 0x00, and `ocr-error`; for any other version no command and no change (43_init.md
R217). -/
def Obligations.InitNotesCapacity : Prop :=
  ∀ (s : State) (rest : List Point), s.seq = .init .capacity :: rest →
    (s.ver ≠ 2#2 → step s = .next { s with seq := rest }) ∧
    (s.ver = 2#2 → ∃ t, step s = .next t ∧ t.fb = #v[0x7A#8, 0x00#8, 0x00#8, 0x00#8, 0x00#8, 0xFD#8] ∧ t.ver = s.ver ∧
      ((t.seq = rest ∧ t.err = s.err ∧ t.rb[0] = 0x00#8 ∧
          t.flags = if t.rb[1].getLsbD 6 then s.flags ||| 0x02#8 else s.flags) ∨
        (t.seq = [] ∧ t.rsp = some .fail ∧ t.err = s.err ||| 0x10#8 ∧ t.flags = s.flags ∧ t.att = 5#8 ∧
          t.rb[0] ≠ 0x00#8)))

/-- Step 9 of INIT, any state and any answers. One bracket, whose received bytes are six discarded ones, the response
scan, the wait for the start token, the sixteen bytes of `CSD`, the two CRC bytes and the wait for the idle line. INIT
ends with `read-error` exactly if `FAULT` is 1, that is if one of the three parts failed; else with `crc-error` if the
CRC16 of `CSD` is not the one received; else with `write_protected` set and no bit of `ERR` if a write-protect bit of
`CSD` is set; else the next step follows and nothing is recorded. `BUF` is not touched (43_init.md R219, R220;
44_block_io.md R252 to R257). -/
def Obligations.InitInspectsWriteProtection : Prop :=
  ∀ (s : State) (rest : List Point), s.seq = .init .writeProtect :: rest → ∃ t evs tail skip scan wait hi lo idle,
    step s = .next t ∧ t.bus.trace = s.bus.trace ++ ([.prepare, .cs false] ++ evs ++ [.cs true]) ++ tail ∧
    (∀ e ∈ evs, e.isWait = true) ∧
    receivedBytes evs = skip ++ scan ++ wait ++ t.csd.toList ++ [hi, lo] ++ idle ∧ skip.length = 6 ∧
    Scanned 16 scan ∧ Awaited 0xFE#8 wait ∧ Awaited 0xFF#8 idle ∧ t.crcRx = hi ++ lo ∧
    (t.fault = true ↔ scan.getLast? ≠ some 0x00#8 ∨ 0xFE#8 ∉ wait ∨ 0xFF#8 ∉ idle) ∧
    (t.fault = false → t.crc = crc16Of t.csd.toList) ∧
    t.fb = #v[0x49#8, 0x00#8, 0x00#8, 0x00#8, 0x00#8, 0xAF#8] ∧ t.cs = true ∧ t.rate = s.rate ∧
    ((tail = [.rsp .fail] ∧ t.seq = [] ∧ t.rsp = some .fail ∧ t.flags = s.flags ∧
        ((t.fault = true ∧ t.err = s.err ||| 0x20#8) ∨
          (t.fault = false ∧ t.crc ≠ t.crcRx ∧ t.err = s.err ||| 0x04#8))) ∨
      (tail = [.rsp .fail] ∧ t.seq = [] ∧ t.rsp = some .fail ∧ t.flags = s.flags ||| 0x04#8 ∧ t.err = s.err ∧
        t.fault = false ∧ t.crc = t.crcRx ∧ t.csd[14] &&& 0x30#8 ≠ 0#8) ∨
      (tail = [] ∧ t.seq = rest ∧ t.rsp = s.rsp ∧ t.flags = s.flags ∧ t.err = s.err ∧
        t.fault = false ∧ t.crc = t.crcRx ∧ t.csd[14] &&& 0x30#8 = 0#8)) ∧
    ∀ a, t.buf.read a = s.buf.read a

/-- The voltage check on a card whose OCR never has both bits, at any response offset up to 3: exactly twenty attempts,
nineteen delays, `ocr-error` (43_init.md R213, R214; 95_test_vectors.md E8). -/
def Obligations.VoltageCheckGivesUpAfterTwenty : Prop :=
  ∀ (s : State) (rest : List Point) (blocks : List (List Byte)) (more : List Byte),
    s.seq = .init .voltage :: rest → blocks.length = 20 →
    (∀ b ∈ blocks, ∃ (skip tail : List Byte) (i : Nat) (o1 o2 : Byte), i ≤ 3 ∧ skip.length = 6 ∧
      i + 3 + tail.length = 8 ∧ o2 &&& 0x30#8 ≠ 0x30#8 ∧ b = skip ++ List.replicate i 0xFF#8 ++ [0x01#8, o1, o2] ++ tail) →
    s.bus.miso = blocks.flatten ++ more →
    ∃ t evs, step s = .next t ∧ t.rsp = some .fail ∧ t.err = s.err ||| 0x10#8 ∧ t.seq = [] ∧ t.att = 20#8 ∧
      t.flags = s.flags ∧ t.bus.miso = more ∧ t.bus.trace = s.bus.trace ++ evs ∧
      evs.count .prepare = 20 ∧ evs.count (.delay 1000) = 19

/-- INIT without a card: ten power-up bytes and fifty unanswered CMD0 frames, 710 exchanges, then `no-idle`
(43_init.md R205; 60_exceptions.md R301; 70_reset_and_hazards.md R362). -/
def Obligations.InitWithoutCard : Prop :=
  ∀ (sector : Word) (s : State) (more : List Byte), s.bus.miso = List.replicate 710 0xFF#8 ++ more →
    ∃ t, exec (.init sector) s = .next t ∧ t.rsp = some .fail ∧ t.err = s.err ||| 0x01#8 ∧ t.flags = s.flags ∧
      t.rate = .init ∧ t.cs = true ∧ t.bus.miso = more

/-- The scenario of a version 2, high-capacity, unprotected card that answers at once, for any CSD with its CRC16, any
OCR with the bits asked for, and any other bytes: 149 exchanges, ST_OK, `initialized` and `high_capacity` set, no new
bit of `ERR`, the fast rate (43_init.md R221, R223, R224; 70_reset_and_hazards.md R345, R362; 95_test_vectors.md E7). -/
def Obligations.InitSucceedsOnAGoodCard : Prop :=
  ∀ (sector : Word) (s : State) (x1 x2 x3 x4 x5 x6 x7 x8 x9 t1 t2 t3 t4 t5 t6 t7 csd more : List Byte)
    (a1 a2 b1 b2 c1 c2 hi lo : Byte),
    x1.length = 10 → x2.length = 6 → x3.length = 6 → x4.length = 6 → x5.length = 6 → x6.length = 20 →
    x7.length = 6 → x8.length = 6 → x9.length = 6 → t1.length = 7 → t2.length = 3 → t3.length = 7 → t4.length = 5 →
    t5.length = 7 → t6.length = 5 → t7.length = 7 → b2 &&& 0x30#8 = 0x30#8 → c1.getLsbD 6 = true →
    csd.length = 16 → csd.getD 14 0xFF#8 &&& 0x30#8 = 0#8 → crc16Of csd = hi ++ lo →
    s.bus.miso = x1 ++ (x2 ++ [0x01#8] ++ t1) ++
      (x3 ++ [0x01#8, a1, a2, (s.cfg.ifCondArg >>> 8).setWidth 8, s.cfg.ifCondArg.setWidth 8] ++ t2) ++
      (x4 ++ [0x01#8] ++ t3) ++ (x5 ++ [0x01#8, b1, b2] ++ t4) ++ (x6 ++ [0x00#8] ++ t5) ++
      (x7 ++ [0x00#8, c1, c2] ++ t6) ++ (x8 ++ [0x00#8] ++ t7) ++
      (x9 ++ [0x00#8, 0xFE#8] ++ csd ++ [hi, lo, 0xFF#8]) ++ more →
    ∃ t, exec (.init sector) s = .next t ∧ t.rsp = some .ok ∧ t.flags = s.flags ||| 0x03#8 ∧ t.err = s.err ∧
      t.rate = .fast ∧ t.cs = true ∧ t.ver = 2#2 ∧ t.bus.miso = more ∧ t.csd.toList = csd

/-! ## The whole machine -/

/-- A step runs the decoded instruction: a well-formed unit at the program point, in its bytes or as a call, is `exec`
of it with `SEQ` at what follows; a request at the port of the idle block is `exec` of it with the request taken
(10_state.md R28; 60_exceptions.md R314; log 8). -/
def Obligations.StepRunsTheInstruction : Prop :=
  (∀ (s : State) (f : Format) (bs : List Byte) (i : Instr) (rest : List Point), s.seq = .unit f bs :: rest →
    decode f bs = .ok i → wellFormed i = true → i.isRequest = false → step s = exec i { s with seq := rest }) ∧
  (∀ (s : State) (i : Instr) (rest : List Point), s.seq = .call i :: rest → wellFormed i = true →
    i.isRequest = false → step s = exec i { s with seq := rest }) ∧
  (∀ (s : State) (op : BitVec 2) (sector : Word) (acts : List HostAct) (i : Instr), s.seq = [] →
    s.host = .request op sector :: acts → decode .hreq (encodeRequest op sector) = .ok i →
    step s = exec i { s with host := acts })

/-- A table word placed with `withFetchWord` is run by the very next step (log 8, log 9). -/
def Obligations.FetchWordRuns : Prop :=
  ∀ (s : State) (nbits w : Nat) (i : Instr), decodeTableWord nbits w = some i → wellFormed i = true ∧
    step (s.withFetchWord nbits w) = exec i (if i.isRequest then { s with seq := [] } else s)

/-- What the block does not run stops by name: bytes that encode nothing, units the block never runs, a request away
from the port, and a `read_block` of more bytes than its destination has, since those addresses do not exist (R101,
R106, R250; 10_state.md R28; 20_memory.md R69; U7, U8, U11; log 16). -/
def Obligations.StopsByName : Prop :=
  (∀ (s : State) (rest : List Point),
    (∀ f bs e, s.seq = .unit f bs :: rest → decode f bs = .error e → step s = .refused (.undecodable e)) ∧
    (∀ i, s.seq = .call i :: rest → i.isRequest = true → step s = .refused .portNotReady) ∧
    (∀ i, s.seq = .call i :: rest → i.isRequest = false → wellFormed i = false → step s = .refused .illFormed)) ∧
  (∀ (cmd : BitVec 6) (arg : Word) (len : Nat) (s : State),
    (512 < len → exec (.readBlock cmd arg len .buf) s = .fault .noSuchAddress) ∧
    (16 < len → exec (.readBlock cmd arg len .csd) s = .fault .noSuchAddress))

/-- A busy block takes no action of the host: whatever runs, the queue of host actions is as before, and it records
no request (10_state.md R28; U11; D11). -/
def Obligations.BusyPortIsClosed : Prop :=
  ∀ s t : State, s.seq ≠ [] → step s = .next t →
    t.host = s.host ∧ ∃ evs, t.bus.trace = s.bus.trace ++ evs ∧ ∀ op sector, Event.req op sector ∉ evs

/-- Exactly one request and one response per host operation, the request first, with the operation's own code and sector,
and the response last, `CS = 1` and idle at the end; every other instruction but the statuses does nothing at the host's
port (60_exceptions.md R314; R12; 30_encoding.md R100). -/
def Obligations.OneResponsePerRequest : Prop :=
  (∀ (sector : Word) (s : State), s.cs = true →
    ∀ p ∈ [(Instr.init sector, 0#2), (.deinit sector, 1#2), (.read sector, 2#2), (.write sector, 3#2)], ∃ t evs st,
      exec p.1 s = .next t ∧ t.bus.trace = s.bus.trace ++ [.req p.2 sector] ++ evs ++ [.rsp st] ∧
      (∀ e ∈ evs, e.isHost = false) ∧ t.rsp = some st ∧ t.seq = [] ∧ t.cs = true) ∧
  (∀ (i : Instr) (s t : State), i.isRequest = false → i ≠ .stOk → i ≠ .stFail → i ≠ .stNoinit → exec i s = .next t →
      t.rsp = s.rsp ∧ t.seq = s.seq ∧
        ∃ evs, t.bus.trace = s.bus.trace ++ evs ∧ ∀ e ∈ evs, e.isHost = false)

/-- No step but a reset clears a bit of `FLAGS` or `ERR` (10_state.md R20, R37 c). -/
def Obligations.StatusBitsOnlyGrow : Prop :=
  ∀ s t : State, step s = .next t → BitsKept s.flags t.flags ∧ BitsKept s.err t.err ∨
    (s.seq = [] ∧ ∃ acts, s.host = .reset :: acts)

/-- `ERR` accumulates and is never read: started with any other value in it, every instruction does the same, and ORs
the same mask into it (10_state.md R27). -/
def Obligations.ErrIsNeverRead : Prop :=
  ∀ (i : Instr) (s t : State), exec i s = .next t → ∃ mask : Byte, t.err = s.err ||| mask ∧
    ∀ e : Byte, exec i { s with err := e } = .next { t with err := e ||| mask }

/-- `write_protected` is never read: with the bit set before, every instruction does the same and leaves it set
(10_state.md R24; 44_block_io.md R264). -/
def Obligations.WriteProtectedIsNeverRead : Prop :=
  ∀ (i : Instr) (s t : State), exec i s = .next t →
    exec i { s with flags := s.flags ||| 0x04#8 } = .next { t with flags := t.flags ||| 0x04#8 }

/-- Which instruction can set which bit of `ERR` (60_exceptions.md R303): INIT all but bit 6, READ bits 5 and 2, WRITE
bit 6, the read-block primitive bits 5 and 2, every other instruction none. -/
def Obligations.WhoSetsWhichErrBit : Prop :=
  ∀ (i : Instr) (s t : State), exec i s = .next t → ∃ mask : Byte, t.err = s.err ||| mask ∧
    mask &&& (match i with
      | .init _ => 0x40#8
      | .read _ => 0xDB#8
      | .write _ => 0xBF#8
      | .readBlock _ _ _ _ => 0xDB#8
      | _ => 0xFF#8) = 0#8

/-- Mode transitions (60_exceptions.md R311): `initialized` goes from 0 to 1 only with an INIT that ends with ST_OK, run
whole or at its commit step, and from 1 to 0 only with a reset. -/
def Obligations.ModeTransitions : Prop :=
  ∀ s t : State, step s = .next t →
    (s.flags.getLsbD 0 = false → t.flags.getLsbD 0 = true → t.rsp = some .ok ∧
      ((∃ rest, s.seq = .init .commit :: rest) ∨
        (s.seq = [] ∧ ∃ sector acts, s.host = .request 0 sector :: acts))) ∧
    (s.flags.getLsbD 0 = true → t.flags.getLsbD 0 = false → s.seq = [] ∧ ∃ acts, s.host = .reset :: acts)

/-- `RATE` (10_state.md R33): at reset NONE; INIT leaves FAST with ST_OK and INIT otherwise; no other instruction
changes it. -/
def Obligations.RateFollowsInit : Prop :=
  State.reset.rate = .none ∧ ∀ (i : Instr) (s t : State), exec i s = .next t →
    (∀ sector, i = .init sector → (t.rsp = some .ok ∧ t.rate = .fast) ∨ (t.rsp = some .fail ∧ t.rate = .init)) ∧
    ((∀ sector, i ≠ .init sector) → t.rate = s.rate)

/-- `BUF` is changed by READ and by a read-block into it, and by no other instruction (20_memory.md R78). -/
def Obligations.OnlyReadChangesTheBuffer : Prop :=
  ∀ (i : Instr) (s t : State), exec i s = .next t → (∀ sector, i ≠ .read sector) →
    (∀ cmd arg len, i ≠ .readBlock cmd arg len .buf) → t.buf = s.buf ∧ ∀ a, t.buf.read a = s.buf.read a

/-- The idle invariant is kept by every step from an idle state: idle again, deselected, the reserved bits of `FLAGS`
zero, `VER` and `ATT` in range, `DEADLINE` a tick, `FB` a frame of the block, `BUF` in canonical form (10_state.md R37,
R29; R106). -/
def Obligations.IdleInvariantKept : Prop :=
  ∀ s t : State, IdleInv s → step s = .next t → IdleInv t

/-- The state after reset meets the idle invariant (R38). -/
def Obligations.ResetMeetsTheInvariant : Prop := IdleInv State.reset

/-- From every state at all, in the middle of an operation too, a step keeps what is true of the registers by their
widths and writers: `FLAGS[7:4] = 0`, `VER` not 3, `DEADLINE` a tick, `BUF` in canonical form (10_state.md R21, R29,
R37 b). -/
def Obligations.RangesKeptByEveryStep : Prop :=
  ∀ s t : State, s.flags &&& 0xF0#8 = 0#8 → s.ver ≠ 3#2 → s.deadline < 2 ^ s.cfg.tickW → s.buf.wf = true →
    step s = .next t → t.flags &&& 0xF0#8 = 0#8 ∧ t.ver ≠ 3#2 ∧ t.deadline < 2 ^ t.cfg.tickW ∧ t.buf.wf = true

/-- The values reset gives (10_state.md R38), and what a reset of the idle block does: those values, no event, the
card's side untouched; then the block waits (70_reset_and_hazards.md R340, R341; what the spec leaves unspecified is
log 1 and not stated here). -/
def Obligations.ResetState : Prop :=
  State.reset.flags = 0x00#8 ∧ State.reset.err = 0x00#8 ∧ State.reset.seq = [] ∧ State.reset.cs = true ∧
  State.reset.rate = .none ∧ State.reset.ver = 0#2 ∧
  (∀ (s : State) (acts : List HostAct), s.seq = [] → s.host = .reset :: acts → ∃ t, step s = .next t ∧
    t.flags = 0x00#8 ∧ t.err = 0x00#8 ∧ t.seq = [] ∧ t.cs = true ∧ t.rate = .none ∧ t.ver = 0#2 ∧ t.bus = s.bus ∧
    t.host = acts ∧ t.cfg = s.cfg) ∧
  (∀ s : State, s.seq = [] → s.host = [] → step s = .next s)

/-- The host's access to `BUF`, `FLAGS` and `ERR`. First clause: on the idle block a byte written is read back, every other
address reads as before, nothing else changes but the queue; an address outside 0 to 511 does not exist, for writing and
for reading. Second clause: the idle block lets the host read `FLAGS`, `ERR` and each byte of `BUF`; a busy block lets it
read none of them (00_scope.md R9; 10_state.md R20; 20_memory.md R69, R76; U13). That the host acts through a queue is
log 14, that a write outside 0 to 511 stops with `noSuchAddress` is log 14 and log 16. -/
def Obligations.HostBufferAccess : Prop :=
  (∀ (s : State) (k : Nat) (v : Byte) (acts : List HostAct), s.seq = [] → s.host = .writeBuf k v :: acts →
    (k < 512 → s.buf.wf = true → ∃ t, step s = .next t ∧ t = { s with host := acts, buf := t.buf } ∧
      t.buf.wf = true ∧ hostBuf k t = some v ∧ ∀ a, a ≠ k → t.buf.read a = s.buf.read a) ∧
    (512 ≤ k → step s = .fault .noSuchAddress ∧ hostBuf k s = none)) ∧
  (∀ s : State,
    (s.seq = [] → hostFlags s = some s.flags ∧ hostErr s = some s.err ∧
      ∀ k, k < 512 → hostBuf k s = some (s.buf.read k)) ∧
    (s.seq ≠ [] → hostFlags s = none ∧ hostErr s = none ∧ ∀ k, hostBuf k s = none))
end

