-- ==== Sys2Proof/Laws/State.lean ====
section
/-! SUPPORT. One lemma per field per update: what each named update of the state leaves in each field, so that no proof unfolds
a record update. -/

namespace Sys2Proof.Machine

@[simp] theorem emit_flags (e : Event) (s : State) : (emit e s).flags = s.flags := rfl
@[simp] theorem emit_err (e : Event) (s : State) : (emit e s).err = s.err := rfl
@[simp] theorem emit_seq (e : Event) (s : State) : (emit e s).seq = s.seq := rfl
@[simp] theorem emit_cs (e : Event) (s : State) : (emit e s).cs = s.cs := rfl
@[simp] theorem emit_rate (e : Event) (s : State) : (emit e s).rate = s.rate := rfl
@[simp] theorem emit_fb (e : Event) (s : State) : (emit e s).fb = s.fb := rfl
@[simp] theorem emit_rb (e : Event) (s : State) : (emit e s).rb = s.rb := rfl
@[simp] theorem emit_arg (e : Event) (s : State) : (emit e s).arg = s.arg := rfl
@[simp] theorem emit_att (e : Event) (s : State) : (emit e s).att = s.att := rfl
@[simp] theorem emit_ver (e : Event) (s : State) : (emit e s).ver = s.ver := rfl
@[simp] theorem emit_fault (e : Event) (s : State) : (emit e s).fault = s.fault := rfl
@[simp] theorem emit_crc (e : Event) (s : State) : (emit e s).crc = s.crc := rfl
@[simp] theorem emit_crcRx (e : Event) (s : State) : (emit e s).crcRx = s.crcRx := rfl
@[simp] theorem emit_deadline (e : Event) (s : State) : (emit e s).deadline = s.deadline := rfl
@[simp] theorem emit_csd (e : Event) (s : State) : (emit e s).csd = s.csd := rfl
@[simp] theorem emit_buf (e : Event) (s : State) : (emit e s).buf = s.buf := rfl
@[simp] theorem emit_rsp (e : Event) (s : State) : (emit e s).rsp = s.rsp := rfl
@[simp] theorem emit_cfg (e : Event) (s : State) : (emit e s).cfg = s.cfg := rfl
@[simp] theorem emit_ret (e : Event) (s : State) : (emit e s).ret = s.ret := rfl
@[simp] theorem emit_host (e : Event) (s : State) : (emit e s).host = s.host := rfl
@[simp] theorem emit_bus (e : Event) (s : State) : (emit e s).bus = s.bus.emit e := rfl

@[simp] theorem sendBytes_flags (bs : List Byte) (s : State) : (sendBytes bs s).flags = s.flags := rfl
@[simp] theorem sendBytes_err (bs : List Byte) (s : State) : (sendBytes bs s).err = s.err := rfl
@[simp] theorem sendBytes_seq (bs : List Byte) (s : State) : (sendBytes bs s).seq = s.seq := rfl
@[simp] theorem sendBytes_cs (bs : List Byte) (s : State) : (sendBytes bs s).cs = s.cs := rfl
@[simp] theorem sendBytes_rate (bs : List Byte) (s : State) : (sendBytes bs s).rate = s.rate := rfl
@[simp] theorem sendBytes_fb (bs : List Byte) (s : State) : (sendBytes bs s).fb = s.fb := rfl
@[simp] theorem sendBytes_rb (bs : List Byte) (s : State) : (sendBytes bs s).rb = s.rb := rfl
@[simp] theorem sendBytes_arg (bs : List Byte) (s : State) : (sendBytes bs s).arg = s.arg := rfl
@[simp] theorem sendBytes_att (bs : List Byte) (s : State) : (sendBytes bs s).att = s.att := rfl
@[simp] theorem sendBytes_ver (bs : List Byte) (s : State) : (sendBytes bs s).ver = s.ver := rfl
@[simp] theorem sendBytes_fault (bs : List Byte) (s : State) : (sendBytes bs s).fault = s.fault := rfl
@[simp] theorem sendBytes_crc (bs : List Byte) (s : State) : (sendBytes bs s).crc = s.crc := rfl
@[simp] theorem sendBytes_crcRx (bs : List Byte) (s : State) : (sendBytes bs s).crcRx = s.crcRx := rfl
@[simp] theorem sendBytes_deadline (bs : List Byte) (s : State) : (sendBytes bs s).deadline = s.deadline := rfl
@[simp] theorem sendBytes_csd (bs : List Byte) (s : State) : (sendBytes bs s).csd = s.csd := rfl
@[simp] theorem sendBytes_buf (bs : List Byte) (s : State) : (sendBytes bs s).buf = s.buf := rfl
@[simp] theorem sendBytes_rsp (bs : List Byte) (s : State) : (sendBytes bs s).rsp = s.rsp := rfl
@[simp] theorem sendBytes_cfg (bs : List Byte) (s : State) : (sendBytes bs s).cfg = s.cfg := rfl
@[simp] theorem sendBytes_ret (bs : List Byte) (s : State) : (sendBytes bs s).ret = s.ret := rfl
@[simp] theorem sendBytes_host (bs : List Byte) (s : State) : (sendBytes bs s).host = s.host := rfl
@[simp] theorem sendBytes_bus (bs : List Byte) (s : State) : (sendBytes bs s).bus = s.bus.send bs := rfl

@[simp] theorem skipBytes_flags (n : Nat) (s : State) : (skipBytes n s).flags = s.flags := rfl
@[simp] theorem skipBytes_err (n : Nat) (s : State) : (skipBytes n s).err = s.err := rfl
@[simp] theorem skipBytes_seq (n : Nat) (s : State) : (skipBytes n s).seq = s.seq := rfl
@[simp] theorem skipBytes_cs (n : Nat) (s : State) : (skipBytes n s).cs = s.cs := rfl
@[simp] theorem skipBytes_rate (n : Nat) (s : State) : (skipBytes n s).rate = s.rate := rfl
@[simp] theorem skipBytes_fb (n : Nat) (s : State) : (skipBytes n s).fb = s.fb := rfl
@[simp] theorem skipBytes_rb (n : Nat) (s : State) : (skipBytes n s).rb = s.rb := rfl
@[simp] theorem skipBytes_arg (n : Nat) (s : State) : (skipBytes n s).arg = s.arg := rfl
@[simp] theorem skipBytes_att (n : Nat) (s : State) : (skipBytes n s).att = s.att := rfl
@[simp] theorem skipBytes_ver (n : Nat) (s : State) : (skipBytes n s).ver = s.ver := rfl
@[simp] theorem skipBytes_fault (n : Nat) (s : State) : (skipBytes n s).fault = s.fault := rfl
@[simp] theorem skipBytes_crc (n : Nat) (s : State) : (skipBytes n s).crc = s.crc := rfl
@[simp] theorem skipBytes_crcRx (n : Nat) (s : State) : (skipBytes n s).crcRx = s.crcRx := rfl
@[simp] theorem skipBytes_deadline (n : Nat) (s : State) : (skipBytes n s).deadline = s.deadline := rfl
@[simp] theorem skipBytes_csd (n : Nat) (s : State) : (skipBytes n s).csd = s.csd := rfl
@[simp] theorem skipBytes_buf (n : Nat) (s : State) : (skipBytes n s).buf = s.buf := rfl
@[simp] theorem skipBytes_rsp (n : Nat) (s : State) : (skipBytes n s).rsp = s.rsp := rfl
@[simp] theorem skipBytes_cfg (n : Nat) (s : State) : (skipBytes n s).cfg = s.cfg := rfl
@[simp] theorem skipBytes_ret (n : Nat) (s : State) : (skipBytes n s).ret = s.ret := rfl
@[simp] theorem skipBytes_host (n : Nat) (s : State) : (skipBytes n s).host = s.host := rfl
@[simp] theorem skipBytes_bus (n : Nat) (s : State) : (skipBytes n s).bus = s.bus.send (List.replicate n Config.fillerByte) := rfl

@[simp] theorem acquire_flags (s : State) : (acquire s).flags = s.flags := rfl
@[simp] theorem acquire_err (s : State) : (acquire s).err = s.err := rfl
@[simp] theorem acquire_seq (s : State) : (acquire s).seq = s.seq := rfl
@[simp] theorem acquire_cs (s : State) : (acquire s).cs = false := rfl
@[simp] theorem acquire_rate (s : State) : (acquire s).rate = s.rate := rfl
@[simp] theorem acquire_fb (s : State) : (acquire s).fb = s.fb := rfl
@[simp] theorem acquire_rb (s : State) : (acquire s).rb = s.rb := rfl
@[simp] theorem acquire_arg (s : State) : (acquire s).arg = s.arg := rfl
@[simp] theorem acquire_att (s : State) : (acquire s).att = s.att := rfl
@[simp] theorem acquire_ver (s : State) : (acquire s).ver = s.ver := rfl
@[simp] theorem acquire_fault (s : State) : (acquire s).fault = s.fault := rfl
@[simp] theorem acquire_crc (s : State) : (acquire s).crc = s.crc := rfl
@[simp] theorem acquire_crcRx (s : State) : (acquire s).crcRx = s.crcRx := rfl
@[simp] theorem acquire_deadline (s : State) : (acquire s).deadline = s.deadline := rfl
@[simp] theorem acquire_csd (s : State) : (acquire s).csd = s.csd := rfl
@[simp] theorem acquire_buf (s : State) : (acquire s).buf = s.buf := rfl
@[simp] theorem acquire_rsp (s : State) : (acquire s).rsp = s.rsp := rfl
@[simp] theorem acquire_cfg (s : State) : (acquire s).cfg = s.cfg := rfl
@[simp] theorem acquire_ret (s : State) : (acquire s).ret = s.ret := rfl
@[simp] theorem acquire_host (s : State) : (acquire s).host = s.host := rfl
@[simp] theorem acquire_bus (s : State) : (acquire s).bus = (s.bus.emit .prepare).emit (.cs false) := rfl

@[simp] theorem release_flags (s : State) : (release s).flags = s.flags := rfl
@[simp] theorem release_err (s : State) : (release s).err = s.err := rfl
@[simp] theorem release_seq (s : State) : (release s).seq = s.seq := rfl
@[simp] theorem release_cs (s : State) : (release s).cs = true := rfl
@[simp] theorem release_rate (s : State) : (release s).rate = s.rate := rfl
@[simp] theorem release_fb (s : State) : (release s).fb = s.fb := rfl
@[simp] theorem release_rb (s : State) : (release s).rb = s.rb := rfl
@[simp] theorem release_arg (s : State) : (release s).arg = s.arg := rfl
@[simp] theorem release_att (s : State) : (release s).att = s.att := rfl
@[simp] theorem release_ver (s : State) : (release s).ver = s.ver := rfl
@[simp] theorem release_fault (s : State) : (release s).fault = s.fault := rfl
@[simp] theorem release_crc (s : State) : (release s).crc = s.crc := rfl
@[simp] theorem release_crcRx (s : State) : (release s).crcRx = s.crcRx := rfl
@[simp] theorem release_deadline (s : State) : (release s).deadline = s.deadline := rfl
@[simp] theorem release_csd (s : State) : (release s).csd = s.csd := rfl
@[simp] theorem release_buf (s : State) : (release s).buf = s.buf := rfl
@[simp] theorem release_rsp (s : State) : (release s).rsp = s.rsp := rfl
@[simp] theorem release_cfg (s : State) : (release s).cfg = s.cfg := rfl
@[simp] theorem release_ret (s : State) : (release s).ret = s.ret := rfl
@[simp] theorem release_host (s : State) : (release s).host = s.host := rfl
@[simp] theorem release_bus (s : State) : (release s).bus = s.bus.emit (.cs true) := rfl

@[simp] theorem configure_flags (s : State) : (configure s).flags = s.flags := rfl
@[simp] theorem configure_err (s : State) : (configure s).err = s.err := rfl
@[simp] theorem configure_seq (s : State) : (configure s).seq = s.seq := rfl
@[simp] theorem configure_cs (s : State) : (configure s).cs = true := rfl
@[simp] theorem configure_rate (s : State) : (configure s).rate = s.rate := rfl
@[simp] theorem configure_fb (s : State) : (configure s).fb = s.fb := rfl
@[simp] theorem configure_rb (s : State) : (configure s).rb = s.rb := rfl
@[simp] theorem configure_arg (s : State) : (configure s).arg = s.arg := rfl
@[simp] theorem configure_att (s : State) : (configure s).att = s.att := rfl
@[simp] theorem configure_ver (s : State) : (configure s).ver = s.ver := rfl
@[simp] theorem configure_fault (s : State) : (configure s).fault = s.fault := rfl
@[simp] theorem configure_crc (s : State) : (configure s).crc = s.crc := rfl
@[simp] theorem configure_crcRx (s : State) : (configure s).crcRx = s.crcRx := rfl
@[simp] theorem configure_deadline (s : State) : (configure s).deadline = s.deadline := rfl
@[simp] theorem configure_csd (s : State) : (configure s).csd = s.csd := rfl
@[simp] theorem configure_buf (s : State) : (configure s).buf = s.buf := rfl
@[simp] theorem configure_rsp (s : State) : (configure s).rsp = s.rsp := rfl
@[simp] theorem configure_cfg (s : State) : (configure s).cfg = s.cfg := rfl
@[simp] theorem configure_ret (s : State) : (configure s).ret = s.ret := rfl
@[simp] theorem configure_host (s : State) : (configure s).host = s.host := rfl
@[simp] theorem configure_bus (s : State) : (configure s).bus = s.bus.emit (.configure s.cfg.spiBus s.cfg.spiMode) := rfl

@[simp] theorem setRate_flags (r : Rate) (s : State) : (setRate r s).flags = s.flags := rfl
@[simp] theorem setRate_err (r : Rate) (s : State) : (setRate r s).err = s.err := rfl
@[simp] theorem setRate_seq (r : Rate) (s : State) : (setRate r s).seq = s.seq := rfl
@[simp] theorem setRate_cs (r : Rate) (s : State) : (setRate r s).cs = s.cs := rfl
@[simp] theorem setRate_rate (r : Rate) (s : State) : (setRate r s).rate = r := rfl
@[simp] theorem setRate_fb (r : Rate) (s : State) : (setRate r s).fb = s.fb := rfl
@[simp] theorem setRate_rb (r : Rate) (s : State) : (setRate r s).rb = s.rb := rfl
@[simp] theorem setRate_arg (r : Rate) (s : State) : (setRate r s).arg = s.arg := rfl
@[simp] theorem setRate_att (r : Rate) (s : State) : (setRate r s).att = s.att := rfl
@[simp] theorem setRate_ver (r : Rate) (s : State) : (setRate r s).ver = s.ver := rfl
@[simp] theorem setRate_fault (r : Rate) (s : State) : (setRate r s).fault = s.fault := rfl
@[simp] theorem setRate_crc (r : Rate) (s : State) : (setRate r s).crc = s.crc := rfl
@[simp] theorem setRate_crcRx (r : Rate) (s : State) : (setRate r s).crcRx = s.crcRx := rfl
@[simp] theorem setRate_deadline (r : Rate) (s : State) : (setRate r s).deadline = s.deadline := rfl
@[simp] theorem setRate_csd (r : Rate) (s : State) : (setRate r s).csd = s.csd := rfl
@[simp] theorem setRate_buf (r : Rate) (s : State) : (setRate r s).buf = s.buf := rfl
@[simp] theorem setRate_rsp (r : Rate) (s : State) : (setRate r s).rsp = s.rsp := rfl
@[simp] theorem setRate_cfg (r : Rate) (s : State) : (setRate r s).cfg = s.cfg := rfl
@[simp] theorem setRate_ret (r : Rate) (s : State) : (setRate r s).ret = s.ret := rfl
@[simp] theorem setRate_host (r : Rate) (s : State) : (setRate r s).host = s.host := rfl
@[simp] theorem setRate_bus (r : Rate) (s : State) : (setRate r s).bus = s.bus.emit (.setRate r) := rfl

@[simp] theorem delay_flags (us : Nat) (s : State) : (delay us s).flags = s.flags := rfl
@[simp] theorem delay_err (us : Nat) (s : State) : (delay us s).err = s.err := rfl
@[simp] theorem delay_seq (us : Nat) (s : State) : (delay us s).seq = s.seq := rfl
@[simp] theorem delay_cs (us : Nat) (s : State) : (delay us s).cs = s.cs := rfl
@[simp] theorem delay_rate (us : Nat) (s : State) : (delay us s).rate = s.rate := rfl
@[simp] theorem delay_fb (us : Nat) (s : State) : (delay us s).fb = s.fb := rfl
@[simp] theorem delay_rb (us : Nat) (s : State) : (delay us s).rb = s.rb := rfl
@[simp] theorem delay_arg (us : Nat) (s : State) : (delay us s).arg = s.arg := rfl
@[simp] theorem delay_att (us : Nat) (s : State) : (delay us s).att = s.att := rfl
@[simp] theorem delay_ver (us : Nat) (s : State) : (delay us s).ver = s.ver := rfl
@[simp] theorem delay_fault (us : Nat) (s : State) : (delay us s).fault = s.fault := rfl
@[simp] theorem delay_crc (us : Nat) (s : State) : (delay us s).crc = s.crc := rfl
@[simp] theorem delay_crcRx (us : Nat) (s : State) : (delay us s).crcRx = s.crcRx := rfl
@[simp] theorem delay_deadline (us : Nat) (s : State) : (delay us s).deadline = s.deadline := rfl
@[simp] theorem delay_csd (us : Nat) (s : State) : (delay us s).csd = s.csd := rfl
@[simp] theorem delay_buf (us : Nat) (s : State) : (delay us s).buf = s.buf := rfl
@[simp] theorem delay_rsp (us : Nat) (s : State) : (delay us s).rsp = s.rsp := rfl
@[simp] theorem delay_cfg (us : Nat) (s : State) : (delay us s).cfg = s.cfg := rfl
@[simp] theorem delay_ret (us : Nat) (s : State) : (delay us s).ret = s.ret := rfl
@[simp] theorem delay_host (us : Nat) (s : State) : (delay us s).host = s.host := rfl
@[simp] theorem delay_bus (us : Nat) (s : State) : (delay us s).bus = s.bus.emit (.delay us) := rfl

@[simp] theorem buildFrame_flags (cmd : BitVec 6) (a : Word) (s : State) : (buildFrame cmd a s).flags = s.flags := rfl
@[simp] theorem buildFrame_err (cmd : BitVec 6) (a : Word) (s : State) : (buildFrame cmd a s).err = s.err := rfl
@[simp] theorem buildFrame_seq (cmd : BitVec 6) (a : Word) (s : State) : (buildFrame cmd a s).seq = s.seq := rfl
@[simp] theorem buildFrame_cs (cmd : BitVec 6) (a : Word) (s : State) : (buildFrame cmd a s).cs = s.cs := rfl
@[simp] theorem buildFrame_rate (cmd : BitVec 6) (a : Word) (s : State) : (buildFrame cmd a s).rate = s.rate := rfl
@[simp] theorem buildFrame_fb (cmd : BitVec 6) (a : Word) (s : State) : (buildFrame cmd a s).fb = frameBytes cmd a := rfl
@[simp] theorem buildFrame_rb (cmd : BitVec 6) (a : Word) (s : State) : (buildFrame cmd a s).rb = s.rb := rfl
@[simp] theorem buildFrame_arg (cmd : BitVec 6) (a : Word) (s : State) : (buildFrame cmd a s).arg = s.arg := rfl
@[simp] theorem buildFrame_att (cmd : BitVec 6) (a : Word) (s : State) : (buildFrame cmd a s).att = s.att := rfl
@[simp] theorem buildFrame_ver (cmd : BitVec 6) (a : Word) (s : State) : (buildFrame cmd a s).ver = s.ver := rfl
@[simp] theorem buildFrame_fault (cmd : BitVec 6) (a : Word) (s : State) : (buildFrame cmd a s).fault = s.fault := rfl
@[simp] theorem buildFrame_crc (cmd : BitVec 6) (a : Word) (s : State) : (buildFrame cmd a s).crc = s.crc := rfl
@[simp] theorem buildFrame_crcRx (cmd : BitVec 6) (a : Word) (s : State) : (buildFrame cmd a s).crcRx = s.crcRx := rfl
@[simp] theorem buildFrame_deadline (cmd : BitVec 6) (a : Word) (s : State) : (buildFrame cmd a s).deadline = s.deadline := rfl
@[simp] theorem buildFrame_csd (cmd : BitVec 6) (a : Word) (s : State) : (buildFrame cmd a s).csd = s.csd := rfl
@[simp] theorem buildFrame_buf (cmd : BitVec 6) (a : Word) (s : State) : (buildFrame cmd a s).buf = s.buf := rfl
@[simp] theorem buildFrame_rsp (cmd : BitVec 6) (a : Word) (s : State) : (buildFrame cmd a s).rsp = s.rsp := rfl
@[simp] theorem buildFrame_cfg (cmd : BitVec 6) (a : Word) (s : State) : (buildFrame cmd a s).cfg = s.cfg := rfl
@[simp] theorem buildFrame_ret (cmd : BitVec 6) (a : Word) (s : State) : (buildFrame cmd a s).ret = s.ret := rfl
@[simp] theorem buildFrame_host (cmd : BitVec 6) (a : Word) (s : State) : (buildFrame cmd a s).host = s.host := rfl
@[simp] theorem buildFrame_bus (cmd : BitVec 6) (a : Word) (s : State) : (buildFrame cmd a s).bus = s.bus := rfl

@[simp] theorem sendFrame_flags (s : State) : (sendFrame s).flags = s.flags := rfl
@[simp] theorem sendFrame_err (s : State) : (sendFrame s).err = s.err := rfl
@[simp] theorem sendFrame_seq (s : State) : (sendFrame s).seq = s.seq := rfl
@[simp] theorem sendFrame_cs (s : State) : (sendFrame s).cs = s.cs := rfl
@[simp] theorem sendFrame_rate (s : State) : (sendFrame s).rate = s.rate := rfl
@[simp] theorem sendFrame_fb (s : State) : (sendFrame s).fb = s.fb := rfl
@[simp] theorem sendFrame_rb (s : State) : (sendFrame s).rb = s.rb := rfl
@[simp] theorem sendFrame_arg (s : State) : (sendFrame s).arg = s.arg := rfl
@[simp] theorem sendFrame_att (s : State) : (sendFrame s).att = s.att := rfl
@[simp] theorem sendFrame_ver (s : State) : (sendFrame s).ver = s.ver := rfl
@[simp] theorem sendFrame_fault (s : State) : (sendFrame s).fault = s.fault := rfl
@[simp] theorem sendFrame_crc (s : State) : (sendFrame s).crc = s.crc := rfl
@[simp] theorem sendFrame_crcRx (s : State) : (sendFrame s).crcRx = s.crcRx := rfl
@[simp] theorem sendFrame_deadline (s : State) : (sendFrame s).deadline = s.deadline := rfl
@[simp] theorem sendFrame_csd (s : State) : (sendFrame s).csd = s.csd := rfl
@[simp] theorem sendFrame_buf (s : State) : (sendFrame s).buf = s.buf := rfl
@[simp] theorem sendFrame_rsp (s : State) : (sendFrame s).rsp = s.rsp := rfl
@[simp] theorem sendFrame_cfg (s : State) : (sendFrame s).cfg = s.cfg := rfl
@[simp] theorem sendFrame_ret (s : State) : (sendFrame s).ret = s.ret := rfl
@[simp] theorem sendFrame_host (s : State) : (sendFrame s).host = s.host := rfl
@[simp] theorem sendFrame_bus (s : State) : (sendFrame s).bus = s.bus.send s.fb.toList := rfl

@[simp] theorem sendCommandFrame_flags (cmd : BitVec 6) (a : Word) (s : State) : (sendCommandFrame cmd a s).flags = s.flags := rfl
@[simp] theorem sendCommandFrame_err (cmd : BitVec 6) (a : Word) (s : State) : (sendCommandFrame cmd a s).err = s.err := rfl
@[simp] theorem sendCommandFrame_seq (cmd : BitVec 6) (a : Word) (s : State) : (sendCommandFrame cmd a s).seq = s.seq := rfl
@[simp] theorem sendCommandFrame_cs (cmd : BitVec 6) (a : Word) (s : State) : (sendCommandFrame cmd a s).cs = s.cs := rfl
@[simp] theorem sendCommandFrame_rate (cmd : BitVec 6) (a : Word) (s : State) : (sendCommandFrame cmd a s).rate = s.rate := rfl
@[simp] theorem sendCommandFrame_fb (cmd : BitVec 6) (a : Word) (s : State) : (sendCommandFrame cmd a s).fb = frameBytes cmd a := rfl
@[simp] theorem sendCommandFrame_rb (cmd : BitVec 6) (a : Word) (s : State) : (sendCommandFrame cmd a s).rb = s.rb := rfl
@[simp] theorem sendCommandFrame_arg (cmd : BitVec 6) (a : Word) (s : State) : (sendCommandFrame cmd a s).arg = a := rfl
@[simp] theorem sendCommandFrame_att (cmd : BitVec 6) (a : Word) (s : State) : (sendCommandFrame cmd a s).att = s.att := rfl
@[simp] theorem sendCommandFrame_ver (cmd : BitVec 6) (a : Word) (s : State) : (sendCommandFrame cmd a s).ver = s.ver := rfl
@[simp] theorem sendCommandFrame_fault (cmd : BitVec 6) (a : Word) (s : State) : (sendCommandFrame cmd a s).fault = s.fault := rfl
@[simp] theorem sendCommandFrame_crc (cmd : BitVec 6) (a : Word) (s : State) : (sendCommandFrame cmd a s).crc = s.crc := rfl
@[simp] theorem sendCommandFrame_crcRx (cmd : BitVec 6) (a : Word) (s : State) : (sendCommandFrame cmd a s).crcRx = s.crcRx := rfl
@[simp] theorem sendCommandFrame_deadline (cmd : BitVec 6) (a : Word) (s : State) : (sendCommandFrame cmd a s).deadline = s.deadline := rfl
@[simp] theorem sendCommandFrame_csd (cmd : BitVec 6) (a : Word) (s : State) : (sendCommandFrame cmd a s).csd = s.csd := rfl
@[simp] theorem sendCommandFrame_buf (cmd : BitVec 6) (a : Word) (s : State) : (sendCommandFrame cmd a s).buf = s.buf := rfl
@[simp] theorem sendCommandFrame_rsp (cmd : BitVec 6) (a : Word) (s : State) : (sendCommandFrame cmd a s).rsp = s.rsp := rfl
@[simp] theorem sendCommandFrame_cfg (cmd : BitVec 6) (a : Word) (s : State) : (sendCommandFrame cmd a s).cfg = s.cfg := rfl
@[simp] theorem sendCommandFrame_ret (cmd : BitVec 6) (a : Word) (s : State) : (sendCommandFrame cmd a s).ret = s.ret := rfl
@[simp] theorem sendCommandFrame_host (cmd : BitVec 6) (a : Word) (s : State) : (sendCommandFrame cmd a s).host = s.host := rfl
@[simp] theorem sendCommandFrame_bus (cmd : BitVec 6) (a : Word) (s : State) : (sendCommandFrame cmd a s).bus = s.bus.send (frameBytes cmd a).toList := rfl

@[simp] theorem appPrefix_flags (s : State) : (appPrefix s).flags = s.flags := rfl
@[simp] theorem appPrefix_err (s : State) : (appPrefix s).err = s.err := rfl
@[simp] theorem appPrefix_seq (s : State) : (appPrefix s).seq = s.seq := rfl
@[simp] theorem appPrefix_cs (s : State) : (appPrefix s).cs = s.cs := rfl
@[simp] theorem appPrefix_rate (s : State) : (appPrefix s).rate = s.rate := rfl
@[simp] theorem appPrefix_fb (s : State) : (appPrefix s).fb = frameBytes 55 argNone := rfl
@[simp] theorem appPrefix_rb (s : State) : (appPrefix s).rb = s.rb := rfl
@[simp] theorem appPrefix_arg (s : State) : (appPrefix s).arg = s.arg := rfl
@[simp] theorem appPrefix_att (s : State) : (appPrefix s).att = s.att := rfl
@[simp] theorem appPrefix_ver (s : State) : (appPrefix s).ver = s.ver := rfl
@[simp] theorem appPrefix_fault (s : State) : (appPrefix s).fault = s.fault := rfl
@[simp] theorem appPrefix_crc (s : State) : (appPrefix s).crc = s.crc := rfl
@[simp] theorem appPrefix_crcRx (s : State) : (appPrefix s).crcRx = s.crcRx := rfl
@[simp] theorem appPrefix_deadline (s : State) : (appPrefix s).deadline = s.deadline := rfl
@[simp] theorem appPrefix_csd (s : State) : (appPrefix s).csd = s.csd := rfl
@[simp] theorem appPrefix_buf (s : State) : (appPrefix s).buf = s.buf := rfl
@[simp] theorem appPrefix_rsp (s : State) : (appPrefix s).rsp = s.rsp := rfl
@[simp] theorem appPrefix_cfg (s : State) : (appPrefix s).cfg = s.cfg := rfl
@[simp] theorem appPrefix_ret (s : State) : (appPrefix s).ret = s.ret := rfl
@[simp] theorem appPrefix_host (s : State) : (appPrefix s).host = s.host := rfl
@[simp] theorem appPrefix_bus (s : State) : (appPrefix s).bus = (s.bus.send (frameBytes 55 argNone).toList).send (List.replicate Config.windowLen Config.fillerByte) := rfl

@[simp] theorem readWindow_flags (s : State) : (readWindow s).flags = s.flags := rfl
@[simp] theorem readWindow_err (s : State) : (readWindow s).err = s.err := rfl
@[simp] theorem readWindow_seq (s : State) : (readWindow s).seq = s.seq := rfl
@[simp] theorem readWindow_cs (s : State) : (readWindow s).cs = s.cs := rfl
@[simp] theorem readWindow_rate (s : State) : (readWindow s).rate = s.rate := rfl
@[simp] theorem readWindow_fb (s : State) : (readWindow s).fb = s.fb := rfl
@[simp] theorem readWindow_rb (s : State) : (readWindow s).rb = windowOf (s.bus.recv Config.windowLen).1 (fun _ => Config.fillerByte) := rfl
@[simp] theorem readWindow_arg (s : State) : (readWindow s).arg = s.arg := rfl
@[simp] theorem readWindow_att (s : State) : (readWindow s).att = s.att := rfl
@[simp] theorem readWindow_ver (s : State) : (readWindow s).ver = s.ver := rfl
@[simp] theorem readWindow_fault (s : State) : (readWindow s).fault = s.fault := rfl
@[simp] theorem readWindow_crc (s : State) : (readWindow s).crc = s.crc := rfl
@[simp] theorem readWindow_crcRx (s : State) : (readWindow s).crcRx = s.crcRx := rfl
@[simp] theorem readWindow_deadline (s : State) : (readWindow s).deadline = s.deadline := rfl
@[simp] theorem readWindow_csd (s : State) : (readWindow s).csd = s.csd := rfl
@[simp] theorem readWindow_buf (s : State) : (readWindow s).buf = s.buf := rfl
@[simp] theorem readWindow_rsp (s : State) : (readWindow s).rsp = s.rsp := rfl
@[simp] theorem readWindow_cfg (s : State) : (readWindow s).cfg = s.cfg := rfl
@[simp] theorem readWindow_ret (s : State) : (readWindow s).ret = s.ret := rfl
@[simp] theorem readWindow_host (s : State) : (readWindow s).host = s.host := rfl
@[simp] theorem readWindow_bus (s : State) : (readWindow s).bus = (s.bus.recv Config.windowLen).2 := rfl

@[simp] theorem setFlag_flags (f : Flag) (s : State) : (setFlag f s).flags = s.flags ||| f.mask := rfl
@[simp] theorem setFlag_err (f : Flag) (s : State) : (setFlag f s).err = s.err := rfl
@[simp] theorem setFlag_seq (f : Flag) (s : State) : (setFlag f s).seq = s.seq := rfl
@[simp] theorem setFlag_cs (f : Flag) (s : State) : (setFlag f s).cs = s.cs := rfl
@[simp] theorem setFlag_rate (f : Flag) (s : State) : (setFlag f s).rate = s.rate := rfl
@[simp] theorem setFlag_fb (f : Flag) (s : State) : (setFlag f s).fb = s.fb := rfl
@[simp] theorem setFlag_rb (f : Flag) (s : State) : (setFlag f s).rb = s.rb := rfl
@[simp] theorem setFlag_arg (f : Flag) (s : State) : (setFlag f s).arg = s.arg := rfl
@[simp] theorem setFlag_att (f : Flag) (s : State) : (setFlag f s).att = s.att := rfl
@[simp] theorem setFlag_ver (f : Flag) (s : State) : (setFlag f s).ver = s.ver := rfl
@[simp] theorem setFlag_fault (f : Flag) (s : State) : (setFlag f s).fault = s.fault := rfl
@[simp] theorem setFlag_crc (f : Flag) (s : State) : (setFlag f s).crc = s.crc := rfl
@[simp] theorem setFlag_crcRx (f : Flag) (s : State) : (setFlag f s).crcRx = s.crcRx := rfl
@[simp] theorem setFlag_deadline (f : Flag) (s : State) : (setFlag f s).deadline = s.deadline := rfl
@[simp] theorem setFlag_csd (f : Flag) (s : State) : (setFlag f s).csd = s.csd := rfl
@[simp] theorem setFlag_buf (f : Flag) (s : State) : (setFlag f s).buf = s.buf := rfl
@[simp] theorem setFlag_rsp (f : Flag) (s : State) : (setFlag f s).rsp = s.rsp := rfl
@[simp] theorem setFlag_cfg (f : Flag) (s : State) : (setFlag f s).cfg = s.cfg := rfl
@[simp] theorem setFlag_ret (f : Flag) (s : State) : (setFlag f s).ret = s.ret := rfl
@[simp] theorem setFlag_host (f : Flag) (s : State) : (setFlag f s).host = s.host := rfl
@[simp] theorem setFlag_bus (f : Flag) (s : State) : (setFlag f s).bus = s.bus := rfl

@[simp] theorem orErr_flags (c : Cause) (s : State) : (orErr c s).flags = s.flags := rfl
@[simp] theorem orErr_err (c : Cause) (s : State) : (orErr c s).err = s.err ||| c.mask := rfl
@[simp] theorem orErr_seq (c : Cause) (s : State) : (orErr c s).seq = s.seq := rfl
@[simp] theorem orErr_cs (c : Cause) (s : State) : (orErr c s).cs = s.cs := rfl
@[simp] theorem orErr_rate (c : Cause) (s : State) : (orErr c s).rate = s.rate := rfl
@[simp] theorem orErr_fb (c : Cause) (s : State) : (orErr c s).fb = s.fb := rfl
@[simp] theorem orErr_rb (c : Cause) (s : State) : (orErr c s).rb = s.rb := rfl
@[simp] theorem orErr_arg (c : Cause) (s : State) : (orErr c s).arg = s.arg := rfl
@[simp] theorem orErr_att (c : Cause) (s : State) : (orErr c s).att = s.att := rfl
@[simp] theorem orErr_ver (c : Cause) (s : State) : (orErr c s).ver = s.ver := rfl
@[simp] theorem orErr_fault (c : Cause) (s : State) : (orErr c s).fault = s.fault := rfl
@[simp] theorem orErr_crc (c : Cause) (s : State) : (orErr c s).crc = s.crc := rfl
@[simp] theorem orErr_crcRx (c : Cause) (s : State) : (orErr c s).crcRx = s.crcRx := rfl
@[simp] theorem orErr_deadline (c : Cause) (s : State) : (orErr c s).deadline = s.deadline := rfl
@[simp] theorem orErr_csd (c : Cause) (s : State) : (orErr c s).csd = s.csd := rfl
@[simp] theorem orErr_buf (c : Cause) (s : State) : (orErr c s).buf = s.buf := rfl
@[simp] theorem orErr_rsp (c : Cause) (s : State) : (orErr c s).rsp = s.rsp := rfl
@[simp] theorem orErr_cfg (c : Cause) (s : State) : (orErr c s).cfg = s.cfg := rfl
@[simp] theorem orErr_ret (c : Cause) (s : State) : (orErr c s).ret = s.ret := rfl
@[simp] theorem orErr_host (c : Cause) (s : State) : (orErr c s).host = s.host := rfl
@[simp] theorem orErr_bus (c : Cause) (s : State) : (orErr c s).bus = s.bus := rfl

@[simp] theorem respond_flags (st : Status) (s : State) : (respond st s).flags = s.flags := rfl
@[simp] theorem respond_err (st : Status) (s : State) : (respond st s).err = s.err := rfl
@[simp] theorem respond_seq (st : Status) (s : State) : (respond st s).seq = [] := rfl
@[simp] theorem respond_cs (st : Status) (s : State) : (respond st s).cs = s.cs := rfl
@[simp] theorem respond_rate (st : Status) (s : State) : (respond st s).rate = s.rate := rfl
@[simp] theorem respond_fb (st : Status) (s : State) : (respond st s).fb = s.fb := rfl
@[simp] theorem respond_rb (st : Status) (s : State) : (respond st s).rb = s.rb := rfl
@[simp] theorem respond_arg (st : Status) (s : State) : (respond st s).arg = s.arg := rfl
@[simp] theorem respond_att (st : Status) (s : State) : (respond st s).att = s.att := rfl
@[simp] theorem respond_ver (st : Status) (s : State) : (respond st s).ver = s.ver := rfl
@[simp] theorem respond_fault (st : Status) (s : State) : (respond st s).fault = s.fault := rfl
@[simp] theorem respond_crc (st : Status) (s : State) : (respond st s).crc = s.crc := rfl
@[simp] theorem respond_crcRx (st : Status) (s : State) : (respond st s).crcRx = s.crcRx := rfl
@[simp] theorem respond_deadline (st : Status) (s : State) : (respond st s).deadline = s.deadline := rfl
@[simp] theorem respond_csd (st : Status) (s : State) : (respond st s).csd = s.csd := rfl
@[simp] theorem respond_buf (st : Status) (s : State) : (respond st s).buf = s.buf := rfl
@[simp] theorem respond_rsp (st : Status) (s : State) : (respond st s).rsp = some st := rfl
@[simp] theorem respond_cfg (st : Status) (s : State) : (respond st s).cfg = s.cfg := rfl
@[simp] theorem respond_ret (st : Status) (s : State) : (respond st s).ret = s.ret := rfl
@[simp] theorem respond_host (st : Status) (s : State) : (respond st s).host = s.host := rfl
@[simp] theorem respond_bus (st : Status) (s : State) : (respond st s).bus = s.bus.emit (.rsp st) := rfl

@[simp] theorem raise_flags (c : Cause) (s : State) : (raise c s).flags = s.flags := rfl
@[simp] theorem raise_err (c : Cause) (s : State) : (raise c s).err = s.err ||| c.mask := rfl
@[simp] theorem raise_seq (c : Cause) (s : State) : (raise c s).seq = [] := rfl
@[simp] theorem raise_cs (c : Cause) (s : State) : (raise c s).cs = s.cs := rfl
@[simp] theorem raise_rate (c : Cause) (s : State) : (raise c s).rate = s.rate := rfl
@[simp] theorem raise_fb (c : Cause) (s : State) : (raise c s).fb = s.fb := rfl
@[simp] theorem raise_rb (c : Cause) (s : State) : (raise c s).rb = s.rb := rfl
@[simp] theorem raise_arg (c : Cause) (s : State) : (raise c s).arg = s.arg := rfl
@[simp] theorem raise_att (c : Cause) (s : State) : (raise c s).att = s.att := rfl
@[simp] theorem raise_ver (c : Cause) (s : State) : (raise c s).ver = s.ver := rfl
@[simp] theorem raise_fault (c : Cause) (s : State) : (raise c s).fault = s.fault := rfl
@[simp] theorem raise_crc (c : Cause) (s : State) : (raise c s).crc = s.crc := rfl
@[simp] theorem raise_crcRx (c : Cause) (s : State) : (raise c s).crcRx = s.crcRx := rfl
@[simp] theorem raise_deadline (c : Cause) (s : State) : (raise c s).deadline = s.deadline := rfl
@[simp] theorem raise_csd (c : Cause) (s : State) : (raise c s).csd = s.csd := rfl
@[simp] theorem raise_buf (c : Cause) (s : State) : (raise c s).buf = s.buf := rfl
@[simp] theorem raise_rsp (c : Cause) (s : State) : (raise c s).rsp = some .fail := rfl
@[simp] theorem raise_cfg (c : Cause) (s : State) : (raise c s).cfg = s.cfg := rfl
@[simp] theorem raise_ret (c : Cause) (s : State) : (raise c s).ret = s.ret := rfl
@[simp] theorem raise_host (c : Cause) (s : State) : (raise c s).host = s.host := rfl
@[simp] theorem raise_bus (c : Cause) (s : State) : (raise c s).bus = s.bus.emit (.rsp .fail) := rfl

@[simp] theorem accept_flags (op : BitVec 2) (sector : Word) (q : List Point) (s : State) : (accept op sector q s).flags = s.flags := rfl
@[simp] theorem accept_err (op : BitVec 2) (sector : Word) (q : List Point) (s : State) : (accept op sector q s).err = s.err := rfl
@[simp] theorem accept_seq (op : BitVec 2) (sector : Word) (q : List Point) (s : State) : (accept op sector q s).seq = q := rfl
@[simp] theorem accept_cs (op : BitVec 2) (sector : Word) (q : List Point) (s : State) : (accept op sector q s).cs = s.cs := rfl
@[simp] theorem accept_rate (op : BitVec 2) (sector : Word) (q : List Point) (s : State) : (accept op sector q s).rate = s.rate := rfl
@[simp] theorem accept_fb (op : BitVec 2) (sector : Word) (q : List Point) (s : State) : (accept op sector q s).fb = s.fb := rfl
@[simp] theorem accept_rb (op : BitVec 2) (sector : Word) (q : List Point) (s : State) : (accept op sector q s).rb = s.rb := rfl
@[simp] theorem accept_arg (op : BitVec 2) (sector : Word) (q : List Point) (s : State) : (accept op sector q s).arg = s.arg := rfl
@[simp] theorem accept_att (op : BitVec 2) (sector : Word) (q : List Point) (s : State) : (accept op sector q s).att = s.att := rfl
@[simp] theorem accept_ver (op : BitVec 2) (sector : Word) (q : List Point) (s : State) : (accept op sector q s).ver = s.ver := rfl
@[simp] theorem accept_fault (op : BitVec 2) (sector : Word) (q : List Point) (s : State) : (accept op sector q s).fault = s.fault := rfl
@[simp] theorem accept_crc (op : BitVec 2) (sector : Word) (q : List Point) (s : State) : (accept op sector q s).crc = s.crc := rfl
@[simp] theorem accept_crcRx (op : BitVec 2) (sector : Word) (q : List Point) (s : State) : (accept op sector q s).crcRx = s.crcRx := rfl
@[simp] theorem accept_deadline (op : BitVec 2) (sector : Word) (q : List Point) (s : State) : (accept op sector q s).deadline = s.deadline := rfl
@[simp] theorem accept_csd (op : BitVec 2) (sector : Word) (q : List Point) (s : State) : (accept op sector q s).csd = s.csd := rfl
@[simp] theorem accept_buf (op : BitVec 2) (sector : Word) (q : List Point) (s : State) : (accept op sector q s).buf = s.buf := rfl
@[simp] theorem accept_rsp (op : BitVec 2) (sector : Word) (q : List Point) (s : State) : (accept op sector q s).rsp = s.rsp := rfl
@[simp] theorem accept_cfg (op : BitVec 2) (sector : Word) (q : List Point) (s : State) : (accept op sector q s).cfg = s.cfg := rfl
@[simp] theorem accept_ret (op : BitVec 2) (sector : Word) (q : List Point) (s : State) : (accept op sector q s).ret = s.ret := rfl
@[simp] theorem accept_host (op : BitVec 2) (sector : Word) (q : List Point) (s : State) : (accept op sector q s).host = s.host := rfl
@[simp] theorem accept_bus (op : BitVec 2) (sector : Word) (q : List Point) (s : State) : (accept op sector q s).bus = s.bus.emit (.req op sector) := rfl

@[simp] theorem faultIf_flags (c : Bool) (s : State) : (faultIf c s).flags = s.flags := rfl
@[simp] theorem faultIf_err (c : Bool) (s : State) : (faultIf c s).err = s.err := rfl
@[simp] theorem faultIf_seq (c : Bool) (s : State) : (faultIf c s).seq = s.seq := rfl
@[simp] theorem faultIf_cs (c : Bool) (s : State) : (faultIf c s).cs = s.cs := rfl
@[simp] theorem faultIf_rate (c : Bool) (s : State) : (faultIf c s).rate = s.rate := rfl
@[simp] theorem faultIf_fb (c : Bool) (s : State) : (faultIf c s).fb = s.fb := rfl
@[simp] theorem faultIf_rb (c : Bool) (s : State) : (faultIf c s).rb = s.rb := rfl
@[simp] theorem faultIf_arg (c : Bool) (s : State) : (faultIf c s).arg = s.arg := rfl
@[simp] theorem faultIf_att (c : Bool) (s : State) : (faultIf c s).att = s.att := rfl
@[simp] theorem faultIf_ver (c : Bool) (s : State) : (faultIf c s).ver = s.ver := rfl
@[simp] theorem faultIf_fault (c : Bool) (s : State) : (faultIf c s).fault = (s.fault || c) := rfl
@[simp] theorem faultIf_crc (c : Bool) (s : State) : (faultIf c s).crc = s.crc := rfl
@[simp] theorem faultIf_crcRx (c : Bool) (s : State) : (faultIf c s).crcRx = s.crcRx := rfl
@[simp] theorem faultIf_deadline (c : Bool) (s : State) : (faultIf c s).deadline = s.deadline := rfl
@[simp] theorem faultIf_csd (c : Bool) (s : State) : (faultIf c s).csd = s.csd := rfl
@[simp] theorem faultIf_buf (c : Bool) (s : State) : (faultIf c s).buf = s.buf := rfl
@[simp] theorem faultIf_rsp (c : Bool) (s : State) : (faultIf c s).rsp = s.rsp := rfl
@[simp] theorem faultIf_cfg (c : Bool) (s : State) : (faultIf c s).cfg = s.cfg := rfl
@[simp] theorem faultIf_ret (c : Bool) (s : State) : (faultIf c s).ret = s.ret := rfl
@[simp] theorem faultIf_host (c : Bool) (s : State) : (faultIf c s).host = s.host := rfl
@[simp] theorem faultIf_bus (c : Bool) (s : State) : (faultIf c s).bus = s.bus := rfl

end Sys2Proof.Machine
end

