-- ==== Sys2Proof/Laws/Bus.lean ====
section
/-! SUPPORT. The byte port and the time source: everything `send` and `recv` can do, said once, and what the loops on the byte
port (`scan`, `poll`) leave behind. -/

namespace Sys2Proof.Machine.Bus

/-- The next `n` bytes the card will answer with: the listed ones, then free values. -/
def answers (n : Nat) (b : Bus) : List Byte :=
  (List.range n).map fun k => b.miso.getD k (Config.cardByte (b.free + (k - b.miso.length)))

@[simp] theorem answers_zero (b : Bus) : answers 0 b = [] := rfl

@[simp] theorem length_answers (n : Nat) (b : Bus) : (answers n b).length = n := by simp [answers]

theorem rx_eq (b : Bus) : b.rx = b.miso.getD 0 (Config.cardByte b.free) := by
  unfold Bus.rx; cases b.miso <;> rfl

theorem answers_succ (n : Nat) (tx : Byte) (b : Bus) : answers (n + 1) b = b.rx :: answers n (b.xfer tx) := by
  rw [answers, List.range_succ_eq_map, List.map_cons, List.map_map, rx_eq]
  refine congrArg₂ _ (by cases b.miso <;> rfl) (List.map_congr_left fun k _ => ?_)
  cases hm : b.miso with
  | nil => simp [Bus.xfer, hm]; congr 1; omega
  | cons x xs => simp [Bus.xfer, hm]

/-- Where the card's answers are listed, they are what is received. -/
theorem answers_listed {n : Nat} {b : Bus} {l rest : List Byte} (h : b.miso = l ++ rest) (hl : l.length = n) :
    answers n b = l := by
  subst hl
  apply List.ext_getElem (by simp)
  intro k h1 h2
  simp [answers, h, List.getElem?_append_left h2, List.getElem?_eq_getElem h2]

/-- Everything `send` does. -/
theorem send_eq (txs : List Byte) (b : Bus) :
    b.send txs = { b with
      miso := b.miso.drop txs.length
      free := b.free + (txs.length - b.miso.length)
      trace := b.trace ++ List.zipWith Event.xfer txs (answers txs.length b) } := by
  induction txs generalizing b with
  | nil => cases b; simp [Bus.send]
  | cons tx txs ih =>
    rw [Bus.send, ih, List.length_cons, answers_succ _ tx]
    cases hm : b.miso with
    | nil => simp [Bus.xfer, hm]; omega
    | cons x xs => simp [Bus.xfer, hm]

/-- `send` is a run of byte exchanges and nothing else. -/
theorem exchanged_send (tx : List Byte) (b : Bus) : Exchanged tx (answers tx.length b) b (b.send tx) := by
  rw [send_eq]
  refine ⟨by simp, ?_, rfl, rfl, rfl⟩
  rw [List.prefix_iff_eq_take]
  apply List.ext_getElem
  · simp [answers]
  · intro k h1 h2
    simp [answers] at h1 h2 ⊢
    have : k < b.miso.length := by omega
    simp [this]

@[simp] theorem send_clock (txs : List Byte) (b : Bus) : (b.send txs).clock = b.clock := by rw [send_eq]

theorem send_append (xs ys : List Byte) (b : Bus) : b.send (xs ++ ys) = (b.send xs).send ys := by
  induction xs generalizing b with
  | nil => rfl
  | cons x xs ih => simp [Bus.send, ih]

/-- `recv` receives the next answers and sends filler. -/
theorem recv_eq (n : Nat) (b : Bus) :
    b.recv n = (answers n b, b.send (List.replicate n Config.fillerByte)) := by
  induction n generalizing b with
  | zero => rfl
  | succ n ih => rw [Bus.recv, ih, answers_succ _ Config.fillerByte]; rfl

theorem xfer_eq_send (tx : Byte) (b : Bus) : b.xfer tx = b.send [tx] := rfl

/-- `scan` receives until the first response, at most `n` bytes: the bytes it took are filler but perhaps the last, and
it returns that last one. -/
theorem scan_spec (n : Nat) (b : Bus) :
    ∃ k, k ≤ n ∧ (0 < n → 0 < k) ∧ (b.scan n).2 = b.send (List.replicate k Config.fillerByte) ∧
      (((b.scan n).1 = Config.fillerByte ∧ k = n ∧ answers k b = List.replicate k Config.fillerByte) ∨
        ((b.scan n).1 ≠ Config.fillerByte ∧ 0 < k ∧
          answers k b = List.replicate (k - 1) Config.fillerByte ++ [(b.scan n).1])) := by
  induction n generalizing b with
  | zero => exact ⟨0, by simp [Bus.scan, Bus.send]⟩
  | succ n ih =>
    by_cases hr : isResponse b.rx = true
    · refine ⟨1, by simp, by simp, ?_⟩
      have : b.rx ≠ Config.fillerByte := by simpa [isResponse] using hr
      simp [Bus.scan, hr, Bus.send, answers_succ 0 Config.fillerByte, this]
    · obtain ⟨k, hk, hpos, hs, hc⟩ := ih (b.xfer Config.fillerByte)
      have hf : b.rx = Config.fillerByte := by simpa [isResponse] using hr
      refine ⟨k + 1, by omega, by simp, ?_⟩
      simp only [Bus.scan, hr, if_neg, Bool.false_eq_true, not_false_eq_true]
      refine ⟨by rw [hs]; rfl, ?_⟩
      rw [answers_succ _ Config.fillerByte, hf]
      rcases hc with ⟨h1, h2, h3⟩ | ⟨h1, h2, h3⟩
      · exact .inl ⟨h1, by omega, by rw [h3]; rfl⟩
      · refine .inr ⟨h1, by omega, ?_⟩
        rw [h3]
        obtain ⟨k, rfl⟩ : ∃ j, k = j + 1 := ⟨k - 1, by omega⟩
        simp [List.replicate_succ]

/-- A listed response within the scan's reach ends it, and no byte beyond is taken (44_block_io.md R252). -/
theorem scan_listed {N n : Nat} {r : Byte} {more : List Byte} {b : Bus} (hr : r ≠ Config.fillerByte) (hn : n < N)
    (hm : b.miso = List.replicate n Config.fillerByte ++ r :: more) :
    (b.scan N).1 = r ∧ (b.scan N).2.miso = more := by
  induction N generalizing n b with
  | zero => omega
  | succ N ih =>
    cases n with
    | zero =>
      have hx : b.rx = r := by simp [Bus.rx, hm]
      have hi : isResponse r = true := by simpa [isResponse] using hr
      simp [Bus.scan, hx, hi, Bus.xfer, hm]
    | succ n =>
      have hx : b.rx = Config.fillerByte := by simp [Bus.rx, hm, List.replicate_succ]
      have hi : isResponse Config.fillerByte = false := rfl
      simp only [Bus.scan, hx, hi, Bool.false_eq_true, if_false]
      exact ih (n := n) (by omega) (by simp [Bus.xfer, hm, List.replicate_succ])

/-- What a wait for a token leaves behind: the bytes it received, `rs`, in the events it added; at least one; the
token, if found, is the last and was not seen before; the listed answers come first. -/
def Waited (token : Byte) (b : Bus) (r : Bool × Bus) : Prop :=
  ∃ evs rs, r.2.trace = b.trace ++ evs ∧ (∀ e ∈ evs, e.isWait = true) ∧ receivedBytes evs = rs ∧
    sentBytes evs = List.replicate rs.length Config.fillerByte ∧ rs ≠ [] ∧
    (r.1 = true → ∃ pre, rs = pre ++ [token] ∧ token ∉ pre) ∧ (r.1 = false → token ∉ rs) ∧
    r.2.miso = b.miso.drop rs.length

theorem waited_hit {token : Byte} {b c : Bus} (h : b.rx = token) (hc : c.trace = b.trace ++ [.xfer Config.fillerByte b.rx])
    (hm : c.miso = b.miso.tail) : Waited token b (true, c) :=
  ⟨[.xfer Config.fillerByte b.rx], [b.rx], hc, by simp [Event.isWait], rfl, rfl, by simp, fun _ => ⟨[], by simp [h]⟩,
    by simp, by simp [hm]⟩

theorem waited_miss {token : Byte} {t : Nat} {b c : Bus} (h : b.rx ≠ token)
    (hc : c.trace = b.trace ++ [.xfer Config.fillerByte b.rx, .now t]) (hm : c.miso = b.miso.tail) :
    Waited token b (false, c) :=
  ⟨[.xfer Config.fillerByte b.rx, .now t], [b.rx], hc, by simp [Event.isWait], rfl, rfl, by simp, by simp,
    by simpa using fun e => h e.symm, by simp [hm]⟩

theorem waited_more {token : Byte} {t : Nat} {b c : Bus} {r : Bool × Bus} (h : b.rx ≠ token)
    (hc : c.trace = b.trace ++ [.xfer Config.fillerByte b.rx, .now t]) (hm : c.miso = b.miso.tail)
    (hr : Waited token c r) : Waited token b r := by
  obtain ⟨evs, rs, h1, h2, h3, h4, h5, h6, h7, h8⟩ := hr
  refine ⟨.xfer Config.fillerByte b.rx :: .now t :: evs, b.rx :: rs, by simp [h1, hc], ?_, ?_, ?_, by simp, ?_, ?_, ?_⟩
  · simpa [Event.isWait] using h2
  · simpa [receivedBytes] using h3
  · simpa [sentBytes, List.replicate_succ] using h4
  · intro ht
    obtain ⟨pre, hp, hn⟩ := h6 ht
    exact ⟨b.rx :: pre, by simp [hp], by simpa [hn] using fun e => h e.symm⟩
  · intro hf
    simpa [h7 hf] using fun e => h e.symm
  · simp [h8, hm]

theorem waited_pollFree (w : Nat) (token : Byte) (deadline n : Nat) (b : Bus) :
    Waited token b (pollFree w token deadline n b) := by
  induction n generalizing b with
  | zero =>
    unfold pollFree
    by_cases h : b.rx = token
    · simp only [h, if_true]; exact waited_hit h (by simp [Bus.xfer]) rfl
    · simp only [h, if_false]; exact waited_miss h (by simp [Bus.xfer, Bus.nowFree]; rfl) rfl
  | succ n ih =>
    unfold pollFree
    by_cases h : b.rx = token
    · simp only [h, if_true]; exact waited_hit h (by simp [Bus.xfer]) rfl
    · simp only [h, if_false]; exact waited_more h (by simp [Bus.xfer, Bus.nowFree]; rfl) rfl (ih _)

/-- Everything the poll loop of `find_token` can do (R187). -/
theorem waited_poll (w : Nat) (token : Byte) (deadline : Nat) (ts : List Nat) (b : Bus) :
    Waited token b (poll w token deadline ts b) := by
  induction ts generalizing b with
  | nil =>
    obtain ⟨evs, rs, h⟩ := waited_pollFree w token deadline (Config.pollBudget b.free) { b with free := b.free + 1 }
    exact ⟨evs, rs, h⟩
  | cons t ts ih =>
    unfold poll
    by_cases h : b.rx = token
    · simp only [h, if_true]; exact waited_hit h (by simp [Bus.xfer]) rfl
    · simp only [h, if_false]
      by_cases hb : before w (t % 2 ^ w) deadline = true
      · simp only [hb, if_true]
        exact waited_more h (by simp [Bus.xfer]; rfl) rfl (ih _)
      · simp only [hb, if_false, Bool.false_eq_true]
        exact waited_miss h (by simp [Bus.xfer]; rfl) rfl

/-- A wait whose token is the next listed answer ends at once (R187), whatever the clock. -/
theorem poll_first {w : Nat} {token : Byte} {deadline : Nat} {b : Bus} {rest : List Byte}
    (h : b.miso = token :: rest) :
    (poll w token deadline b.clock b).1 = true ∧ (poll w token deadline b.clock b).2.miso = rest ∧
      (poll w token deadline b.clock b).2.trace = b.trace ++ [.xfer Config.fillerByte token] := by
  have hr : b.rx = token := by simp [Bus.rx, h]
  cases hc : b.clock with
  | nil =>
    simp only [poll]
    cases Config.pollBudget b.free <;> simp [pollFree, Bus.rx, Bus.xfer, h]
  | cons t ts => simp [poll, hr, Bus.xfer, h]

end Sys2Proof.Machine.Bus
end

