-- ==== Sys2Proof/Laws/Command.lean ====
section
/-! SUPPORT. What `send_command`, the retry loop and `find_token` can do, said once: their frames, their brackets on the wire, and
the relation `Inner` that every internal operation keeps. -/

namespace Sys2Proof.Machine

/-! ## What every internal operation keeps -/

/-- From `s` to `t` only data-path registers, `CS`, `ERR`, `BUF` and the bus may have moved, within their ranges, and
nothing happened at the host's port. -/
structure Inner (s t : State) : Prop where
  flags : t.flags = s.flags
  seq : t.seq = s.seq
  rate : t.rate = s.rate
  ver : t.ver = s.ver
  rsp : t.rsp = s.rsp
  cfg : t.cfg = s.cfg
  ret : t.ret = s.ret
  host : t.host = s.host
  trace : ∃ evs, t.bus.trace = s.bus.trace ++ evs ∧ ∀ e ∈ evs, e.isHost = false
  frame : FrameRegister s.fb → FrameRegister t.fb
  attempt : s.att.toNat ≤ 250 → t.att.toNat ≤ 250
  tick : s.deadline < 2 ^ s.cfg.tickW → t.deadline < 2 ^ t.cfg.tickW

theorem Inner.refl (s : State) : Inner s s :=
  ⟨rfl, rfl, rfl, rfl, rfl, rfl, rfl, rfl, ⟨[], by simp⟩, id, id, id⟩

theorem Inner.trans {s t u : State} (h : Inner s t) (k : Inner t u) : Inner s u := by
  obtain ⟨e1, h1, n1⟩ := h.trace
  obtain ⟨e2, h2, n2⟩ := k.trace
  exact ⟨k.flags.trans h.flags, k.seq.trans h.seq, k.rate.trans h.rate, k.ver.trans h.ver, k.rsp.trans h.rsp,
    k.cfg.trans h.cfg, k.ret.trans h.ret, k.host.trans h.host,
    ⟨e1 ++ e2, by rw [h2, h1, List.append_assoc], by
      intro e he
      rcases List.mem_append.1 he with h' | h'
      · exact n1 e h'
      · exact n2 e h'⟩,
    k.frame ∘ h.frame, k.attempt ∘ h.attempt, k.tick ∘ h.tick⟩

/-! ## send_command -/

theorem completeResponse_frame (full : Bool) (s : State) :
    completeResponse full s = { s with
      rb := (completeResponse full s).rb
      bus := (completeResponse full s).bus } := by
  unfold completeResponse; cases firstResponse s.rb <;> rfl

/-- The frame of `send_command` (R150): `FB`, `RB`, `ARG`, `CS` and the bus; `CS` ends at 1. -/
theorem sendCommand_frame (cmd : BitVec 6) (arg : Word) (fl : CmdFlags) (s : State) :
    (sendCommand cmd arg fl s).2 = { s with
      cs := true
      fb := frameBytes cmd arg
      arg := arg
      rb := (sendCommand cmd arg fl s).2.rb
      bus := (sendCommand cmd arg fl s).2.bus } := by
  unfold sendCommand
  simp only []
  rw [completeResponse_frame]
  unfold release transmitCommand
  cases fl.appCmd <;> rfl

theorem prefixFrame : (frameBytes 55 argNone).toList = [0x77#8, 0x00#8, 0x00#8, 0x00#8, 0x00#8, 0x65#8] := by
  decide +kernel

theorem transmitCommand_bus (cmd : BitVec 6) (arg : Word) (app : Bool) (s : State) :
    (transmitCommand cmd arg app s).bus = s.bus.send (commandBytes cmd arg app) := by
  unfold transmitCommand commandBytes
  rw [← prefixFrame]
  cases app
  · rfl
  · simp only [if_true, sendCommandFrame_bus, appPrefix_bus, Bus.send_append]

/-- The number of extra exchanges of one `send_command` (R159). -/
def extraOf (full : Bool) (rb : Vector Byte 8) : Nat :=
  match firstResponse rb with
  | none => 0
  | some i => extraCount full i

theorem firstResponse_lt {rb : Vector Byte 8} {i : Nat} (h : firstResponse rb = some i) : i < 8 := by
  unfold firstResponse at h
  have := (List.findIdx?_eq_some_iff_findIdx_eq.1 h).1
  simpa using this

theorem extraOf_le (full : Bool) (rb : Vector Byte 8) : extraOf full rb ≤ 4 := by
  unfold extraOf extraCount
  cases h : firstResponse rb with
  | none => simp
  | some i =>
    have := firstResponse_lt h
    simp only [Config.fullRespLen]
    split <;> omega

theorem extraOf_plain (rb : Vector Byte 8) : extraOf false rb = 0 := by
  unfold extraOf extraCount; cases firstResponse rb <;> simp

theorem completeResponse_trace (full : Bool) (s : State) :
    (completeResponse full s).bus.trace =
      (s.bus.send (List.replicate (extraOf full s.rb) Config.fillerByte)).trace := by
  unfold completeResponse extraOf
  cases firstResponse s.rb with
  | none => simp [Bus.send]
  | some i => simp [Bus.recv_eq]

theorem completeResponse_miso (full : Bool) (s : State) :
    (completeResponse full s).bus.miso =
      (s.bus.send (List.replicate (extraOf full s.rb) Config.fillerByte)).miso := by
  unfold completeResponse extraOf
  cases firstResponse s.rb with
  | none => simp [Bus.send]
  | some i => simp [Bus.recv_eq]

theorem completeResponse_clock (full : Bool) (s : State) : (completeResponse full s).bus.clock = s.bus.clock := by
  unfold completeResponse
  cases firstResponse s.rb with
  | none => rfl
  | some i => simp [Bus.recv_eq]

/-- The window `send_command` reads. -/
def windowRead (cmd : BitVec 6) (arg : Word) (fl : CmdFlags) (s : State) : State :=
  readWindow (transmitCommand cmd arg fl.appCmd (acquire s))

theorem windowOf_toList {l : List Byte} (h : l.length = 8) (f : Nat → Byte) : (windowOf l f).toList = l := by
  match l, h with
  | [_, _, _, _, _, _, _, _], _ => rfl

theorem windowRead_rb (cmd : BitVec 6) (arg : Word) (fl : CmdFlags) (s : State) :
    (windowRead cmd arg fl s).rb.toList =
      Bus.answers 8 (((s.bus.emit .prepare).emit (.cs false)).send (commandBytes cmd arg fl.appCmd)) := by
  unfold windowRead
  rw [readWindow_rb, transmitCommand_bus, acquire_bus, Bus.recv_eq, windowOf_toList]
  exact Bus.length_answers _ _

/-- The bracket of `send_command` (R158, R159): prepare, select, the exchanges, deselect. -/
theorem sendCommand_trace (cmd : BitVec 6) (arg : Word) (fl : CmdFlags) (s : State) :
    ∃ rx e, e = extraOf fl.fullResponse (windowRead cmd arg fl s).rb ∧
      rx.length = (commandBytes cmd arg fl.appCmd).length + (8 + e) ∧
      (sendCommand cmd arg fl s).2.bus.trace = s.bus.trace ++ ([.prepare, .cs false] ++
        List.zipWith Event.xfer (commandBytes cmd arg fl.appCmd ++ List.replicate (8 + e) Config.fillerByte) rx ++
        [.cs true]) := by
  have hw : (windowRead cmd arg fl s).bus =
      ((s.bus.emit .prepare).emit (.cs false)).send
        (commandBytes cmd arg fl.appCmd ++ List.replicate 8 Config.fillerByte) := by
    unfold windowRead
    rw [readWindow_bus, Bus.recv_eq, transmitCommand_bus, acquire_bus, ← Bus.send_append]
  have hs : (sendCommand cmd arg fl s).2.bus.trace =
      (completeResponse fl.fullResponse (windowRead cmd arg fl s)).bus.trace ++ [.cs true] := rfl
  refine ⟨Bus.answers ((commandBytes cmd arg fl.appCmd).length +
    (8 + extraOf fl.fullResponse (windowRead cmd arg fl s).rb)) ((s.bus.emit .prepare).emit (.cs false)),
    _, rfl, Bus.length_answers _ _, ?_⟩
  · rw [hs, completeResponse_trace, hw, ← Bus.send_append, Bus.send_eq]
    simp only [Bus.emit, List.append_assoc, List.length_append, List.length_replicate, List.replicate_append_replicate]
    simp

theorem zipWith_xfer_not_host (txs rxs : List Byte) : ∀ e ∈ List.zipWith Event.xfer txs rxs, e.isHost = false := by
  intro e he
  obtain ⟨k, hk, rfl⟩ := List.getElem_of_mem he
  simp [Event.isHost]

theorem sendCommand_miso (cmd : BitVec 6) (arg : Word) (fl : CmdFlags) (s : State) :
    (sendCommand cmd arg fl s).2.bus.miso = s.bus.miso.drop ((commandBytes cmd arg fl.appCmd).length +
      (8 + extraOf fl.fullResponse (windowRead cmd arg fl s).rb)) := by
  have hs : (sendCommand cmd arg fl s).2.bus.miso =
      (completeResponse fl.fullResponse (windowRead cmd arg fl s)).bus.miso := rfl
  have hw : (windowRead cmd arg fl s).bus.miso =
      s.bus.miso.drop ((commandBytes cmd arg fl.appCmd).length + 8) := by
    unfold windowRead
    rw [readWindow_bus, Bus.recv_eq, transmitCommand_bus, acquire_bus, Bus.send_eq, Bus.send_eq]
    simp [Bus.emit]
  rw [hs, completeResponse_miso, Bus.send_eq]
  simp only [hw, List.length_replicate, List.drop_drop, Nat.add_assoc]

theorem sendCommand_clock (cmd : BitVec 6) (arg : Word) (fl : CmdFlags) (s : State) :
    (sendCommand cmd arg fl s).2.bus.clock = s.bus.clock := by
  have hs : (sendCommand cmd arg fl s).2.bus.clock =
      (completeResponse fl.fullResponse (windowRead cmd arg fl s)).bus.clock := rfl
  rw [hs, completeResponse_clock]
  unfold windowRead
  rw [readWindow_bus, Bus.recv_eq, transmitCommand_bus, acquire_bus]
  simp [Bus.emit]

theorem sendCommand_inner {cmd : BitVec 6} (arg : Word) (fl : CmdFlags) (s : State) (h : emitted cmd = true) :
    Inner s (sendCommand cmd arg fl s).2 := by
  obtain ⟨rx, e, -, -, ht⟩ := sendCommand_trace cmd arg fl s
  have hf := sendCommand_frame cmd arg fl s
  refine ⟨?_, ?_, ?_, ?_, ?_, ?_, ?_, ?_, ⟨_, ht, ?_⟩, ?_, ?_, ?_⟩ <;> try (rw [hf]; try exact id)
  · intro e he
    simp only [List.mem_append, List.mem_cons, List.not_mem_nil, or_false] at he
    rcases he with ((rfl | rfl) | he) | rfl
    · rfl
    · rfl
    · exact zipWith_xfer_not_host _ _ e he
    · rfl
  · exact fun _ => .inr ⟨cmd, arg, h, rfl⟩

/-- With the window listed, `send_command` reads exactly it. -/
theorem windowRead_listed {cmd : BitVec 6} {arg : Word} {fl : CmdFlags} {s : State} {skip w more : List Byte}
    (hm : s.bus.miso = skip ++ (w ++ more)) (hs : skip.length = (commandBytes cmd arg fl.appCmd).length)
    (hw : w.length = 8) :
    (windowRead cmd arg fl s).rb.toList = w ∧ (windowRead cmd arg fl s).bus.miso = more := by
  have hb : (((s.bus.emit .prepare).emit (.cs false)).send (commandBytes cmd arg fl.appCmd)).miso = w ++ more := by
    rw [Bus.send_eq]; simp [Bus.emit, hm, ← hs]
  refine ⟨by rw [windowRead_rb, Bus.answers_listed hb hw], ?_⟩
  unfold windowRead
  rw [readWindow_bus, Bus.recv_eq, transmitCommand_bus, acquire_bus, Bus.send_eq (List.replicate _ _)]
  simp only [hb, List.length_replicate, Config.windowLen, ← hw, List.drop_left]

theorem sendCommand_returns (cmd : BitVec 6) (arg : Word) (fl : CmdFlags) (s : State) :
    (sendCommand cmd arg fl s).1 = (sendCommand cmd arg fl s).2.rb[0] := rfl

theorem sendCommand_rb (cmd : BitVec 6) (arg : Word) (fl : CmdFlags) (s : State) :
    (sendCommand cmd arg fl s).2.rb = (completeResponse fl.fullResponse (windowRead cmd arg fl s)).rb := rfl

/-- No response (R157, R161 f): the window stays as read and 0xFF is returned. -/
theorem sendCommand_silent {cmd : BitVec 6} {arg : Word} {fl : CmdFlags} {s : State} {skip more : List Byte}
    (hm : s.bus.miso = skip ++ (List.replicate 8 0xFF#8 ++ more))
    (hs : skip.length = (commandBytes cmd arg fl.appCmd).length) :
    (sendCommand cmd arg fl s).1 = 0xFF#8 ∧ (sendCommand cmd arg fl s).2.rb.toList = List.replicate 8 0xFF#8 ∧
      (sendCommand cmd arg fl s).2.bus.miso = more := by
  obtain ⟨h1, h2⟩ := windowRead_listed hm hs (by simp)
  have hf : firstResponse (windowRead cmd arg fl s).rb = none := by
    unfold firstResponse; rw [h1]; decide
  have hc : completeResponse fl.fullResponse (windowRead cmd arg fl s) = windowRead cmd arg fl s := by
    unfold completeResponse; rw [hf]
  have hr : (sendCommand cmd arg fl s).2.rb.toList = List.replicate 8 0xFF#8 := by
    rw [sendCommand_rb, hc, h1]
  refine ⟨?_, hr, ?_⟩
  · rw [sendCommand_returns]
    have : (sendCommand cmd arg fl s).2.rb[0] = (sendCommand cmd arg fl s).2.rb.toList[0]'(by simp) := by simp
    rw [this]
    simp [hr]
  · have : (sendCommand cmd arg fl s).2.bus.miso =
      (completeResponse fl.fullResponse (windowRead cmd arg fl s)).bus.miso := rfl
    rw [this, hc, h2]

theorem length_commandBytes (cmd : BitVec 6) (arg : Word) (app : Bool) :
    (commandBytes cmd arg app).length = (if app then 14 else 0) + 6 := by
  cases app <;> rfl

theorem firstResponse_at {rb : Vector Byte 8} {i : Nat} {r0 : Byte} {tail : List Byte} (hr : r0 ≠ 0xFF#8)
    (h : rb.toList = List.replicate i 0xFF#8 ++ r0 :: tail) : firstResponse rb = some i := by
  unfold firstResponse
  rw [h, List.findIdx?_append]
  have : List.findIdx? isResponse (List.replicate i 0xFF#8) = none := by
    rw [List.findIdx?_eq_none_iff]; simp [isResponse, Config.fillerByte]
  rw [this]
  simp [List.findIdx?_cons, isResponse, Config.fillerByte, hr]

theorem getElem_windowOf {l : List Byte} {f : Nat → Byte} {k : Nat} (h : k < 8) (h' : k < l.length) :
    (windowOf l f)[k] = l[k] := by
  have : ∀ k, (hk : k < 8) → (windowOf l f)[k] = l.getD k (f k) := by
    intro k hk
    match k, hk with
    | 0, _ | 1, _ | 2, _ | 3, _ | 4, _ | 5, _ | 6, _ | 7, _ => rfl
  rw [this k h]
  simp [h']

/-- A response at offset `i` of the window (R154, R155, R160): it is returned, it stands at the front of `RB` with the
bytes behind it, and a full response takes the extra bytes it owes, no more. -/
theorem sendCommand_response {cmd : BitVec 6} {arg : Word} {fl : CmdFlags} {s : State} {skip tail extra more : List Byte}
    {i : Nat} {r0 : Byte} (hr : r0 ≠ 0xFF#8) (hi : i + 1 + tail.length = 8)
    (he : extra.length = if fl.fullResponse then i - 3 else 0)
    (hm : s.bus.miso = skip ++ (List.replicate i 0xFF#8 ++ r0 :: tail) ++ extra ++ more)
    (hs : skip.length = (commandBytes cmd arg fl.appCmd).length) :
    (sendCommand cmd arg fl s).1 = r0 ∧ (sendCommand cmd arg fl s).2.bus.miso = more ∧
      ∀ (k : Nat) (h : k < 8) (h' : k < (r0 :: (tail ++ extra)).length),
        (sendCommand cmd arg fl s).2.rb[k] = (r0 :: (tail ++ extra))[k] := by
  obtain ⟨hw, hb⟩ := windowRead_listed (cmd := cmd) (arg := arg) (fl := fl) (s := s) (skip := skip)
    (w := List.replicate i 0xFF#8 ++ r0 :: tail) (more := extra ++ more) (by simp [hm]) hs (by simp; omega)
  have hx : extraCount fl.fullResponse i = extra.length := by
    rw [he]
    unfold extraCount
    simp only [Config.fullRespLen]
    cases fl.fullResponse
    · rfl
    · by_cases h3 : 8 - i < 5
      · simp only [Bool.true_and, h3, decide_true, if_true]; omega
      · simp only [Bool.true_and, h3, decide_false, if_true, if_false, Bool.false_eq_true]; omega
  have hc : completeResponse fl.fullResponse (windowRead cmd arg fl s) = { windowRead cmd arg fl s with
      rb := windowOf (r0 :: (tail ++ extra)) (fun k =>
        Config.unspecifiedByte (((windowRead cmd arg fl s).bus.recv extra.length).2.free + k))
      bus := { ((windowRead cmd arg fl s).bus.recv extra.length).2 with
        free := ((windowRead cmd arg fl s).bus.recv extra.length).2.free + 8 } } := by
    unfold completeResponse
    rw [firstResponse_at hr hw]
    have h1 : (Bus.recv extra.length (windowRead cmd arg fl s).bus).1 = extra := by
      rw [Bus.recv_eq]; exact Bus.answers_listed hb rfl
    simp only [hx, h1, responseBytes, hw]
    congr 2
    simp
  have hrb : (sendCommand cmd arg fl s).2.rb = _ := (sendCommand_rb cmd arg fl s).trans (by rw [hc])
  refine ⟨?_, ?_, ?_⟩
  · rw [sendCommand_returns, hrb]; rfl
  · have : (sendCommand cmd arg fl s).2.bus.miso =
      (completeResponse fl.fullResponse (windowRead cmd arg fl s)).bus.miso := rfl
    rw [this, hc]
    simp only [Bus.recv_eq, Bus.send_eq, hb]
    simp
  · intro k h h'
    simp only [hrb]
    exact getElem_windowOf h h'

/-! ## The retry loop -/

theorem attempts_frame (cmd : BitVec 6) (arg : Word) (fl : CmdFlags) (ok : Byte → State → Bool) (n : Nat) (s : State) :
    (attempts cmd arg fl ok n s).2 = { s with
      cs := (attempts cmd arg fl ok n s).2.cs
      fb := (attempts cmd arg fl ok n s).2.fb
      arg := (attempts cmd arg fl ok n s).2.arg
      rb := (attempts cmd arg fl ok n s).2.rb
      att := (attempts cmd arg fl ok n s).2.att
      bus := (attempts cmd arg fl ok n s).2.bus } := by
  induction n generalizing s with
  | zero => rfl
  | succ n ih =>
    unfold attempts
    simp only []
    split
    · rw [sendCommand_frame]
    · split
      · rw [sendCommand_frame]
      · rw [ih, sendCommand_frame]; rfl

theorem attempts_cs (cmd : BitVec 6) (arg : Word) (fl : CmdFlags) (ok : Byte → State → Bool) {n : Nat} (s : State)
    (h : 0 < n) : (attempts cmd arg fl ok n s).2.cs = true := by
  induction n generalizing s with
  | zero => omega
  | succ n ih =>
    unfold attempts
    simp only []
    split
    · rw [sendCommand_frame]
    · split
      · rw [sendCommand_frame]
      · exact ih _ (by omega)

theorem count_zipWith_xfer {e : Event} (h : e.isXfer = false) (txs rxs : List Byte) :
    (List.zipWith Event.xfer txs rxs).count e = 0 := by
  rw [List.count_eq_zero]
  intro he
  obtain ⟨k, hk, rfl⟩ := List.getElem_of_mem he
  simp [Event.isXfer] at h

/-- The counts of the retry loop (R184): `k` attempts, each one bracket, `k - 1` delays between them. -/
theorem attempts_counts (cmd : BitVec 6) (arg : Word) (fl : CmdFlags) (ok : Byte → State → Bool) (n : Nat) (s : State)
    (hn : s.att.toNat + n ≤ 255) :
    ∃ k evs, (attempts cmd arg fl ok n s).2.bus.trace = s.bus.trace ++ evs ∧ (∀ e ∈ evs, e.isHost = false) ∧
      (attempts cmd arg fl ok n s).2.att.toNat = s.att.toNat + k ∧ k ≤ n ∧ (0 < n → 0 < k) ∧
      ((attempts cmd arg fl ok n s).1 = false → k = n) ∧
      evs.count .prepare = k ∧ evs.count (.cs false) = k ∧ evs.count (.cs true) = k ∧
      evs.count (.delay Config.retrySpacingUs) = k - 1 := by
  induction n generalizing s with
  | zero => exact ⟨0, [], by simp [attempts]⟩
  | succ n ih =>
    obtain ⟨rx, e, -, -, ht⟩ := sendCommand_trace cmd arg fl s
    have ha : (sendCommand cmd arg fl s).2.att = s.att := by rw [sendCommand_frame]
    have hone : ((sendCommand cmd arg fl s).2.att + 1).toNat = s.att.toNat + 1 := by
      rw [ha, BitVec.toNat_add]; simp; omega
    have hh : ∀ e' ∈ [Event.prepare, Event.cs false] ++ List.zipWith Event.xfer
        (commandBytes cmd arg fl.appCmd ++ List.replicate (8 + e) Config.fillerByte) rx ++ [Event.cs true],
        e'.isHost = false := by
      intro e' he
      simp only [List.mem_append, List.mem_cons, List.not_mem_nil, or_false] at he
      rcases he with ((rfl | rfl) | he) | rfl
      · rfl
      · rfl
      · exact zipWith_xfer_not_host _ _ _ he
      · rfl
    have hp := count_zipWith_xfer (e := Event.prepare) rfl
      (commandBytes cmd arg fl.appCmd ++ List.replicate (8 + e) Config.fillerByte) rx
    have hf := count_zipWith_xfer (e := Event.cs false) rfl
      (commandBytes cmd arg fl.appCmd ++ List.replicate (8 + e) Config.fillerByte) rx
    have ht' := count_zipWith_xfer (e := Event.cs true) rfl
      (commandBytes cmd arg fl.appCmd ++ List.replicate (8 + e) Config.fillerByte) rx
    have hd := count_zipWith_xfer (e := Event.delay Config.retrySpacingUs) rfl
      (commandBytes cmd arg fl.appCmd ++ List.replicate (8 + e) Config.fillerByte) rx
    unfold attempts
    simp only []
    split
    · exact ⟨1, _, ht, hh, hone, by omega, by omega, by simp, by simp [hp], by simp [hf], by simp [ht'], by simp [hd]⟩
    · split
      · exact ⟨1, _, ht, hh, hone, by omega, by omega, by omega, by simp [hp], by simp [hf], by simp [ht'], by simp [hd]⟩
      · obtain ⟨k, evs, h1, h2, h3, h4, h5, h6, h7, h9, h10, h8⟩ :=
          ih (delay Config.retrySpacingUs
            { (sendCommand cmd arg fl s).2 with att := (sendCommand cmd arg fl s).2.att + 1 }) (by
              show (_ + 1 : Byte).toNat + n ≤ 255
              rw [hone]; omega)
        have hk : 0 < k := h5 (by omega)
        refine ⟨k + 1, ([.prepare, .cs false] ++ List.zipWith Event.xfer
          (commandBytes cmd arg fl.appCmd ++ List.replicate (8 + e) Config.fillerByte) rx ++ [.cs true]) ++
          (.delay Config.retrySpacingUs :: evs), ?_, ?_, ?_, by omega, by omega, ?_, ?_, ?_, ?_, ?_⟩
        · rw [h1]
          simp only [delay, emit_bus, Bus.emit]
          rw [ht]
          simp
        · intro e' he
          rcases List.mem_append.1 he with h' | h'
          · exact hh e' h'
          · rcases List.mem_cons.1 h' with rfl | h'
            · rfl
            · exact h2 e' h'
        · rw [h3]
          show (_ + 1 : Byte).toNat + k = _
          rw [hone]; omega
        · intro hr; rw [h6 hr]
        · rw [List.count_append, List.count_cons, h7]; simp [hp]; omega
        · rw [List.count_append, List.count_cons, h9]; simp [hf]; omega
        · rw [List.count_append, List.count_cons, h10]; simp [ht']; omega
        · rw [List.count_append, List.count_cons, h8]; simp [hd]; omega

/-- Which attempt the retry loop stops at (R183): the first whose response is accepted, or the last; `RB[0]` is its
response. -/
theorem attempts_first (cmd : BitVec 6) (arg : Word) (fl : CmdFlags) (ok : Byte → Bool) (n : Nat) (s : State)
    (hn : s.att.toNat + n ≤ 255) :
    let r := attempts cmd arg fl (fun b _ => ok b) n s
    let answers := attemptAnswers cmd arg fl n s
    (r.1 = true ∧ ∃ k, ∃ h : k < answers.length, ok answers[k] = true ∧ r.2.rb[0] = answers[k] ∧
      r.2.att.toNat = s.att.toNat + k + 1 ∧ ∀ j (_ : j < answers.length), j < k → ok answers[j] = false) ∨
    (r.1 = false ∧ r.2.att.toNat = s.att.toNat + n ∧ ∀ b ∈ answers, ok b = false) := by
  induction n generalizing s with
  | zero => exact .inr ⟨rfl, rfl, by simp [attemptAnswers]⟩
  | succ n ih =>
    have ha : (sendCommand cmd arg fl s).2.att = s.att := by rw [sendCommand_frame]
    have hone : ((sendCommand cmd arg fl s).2.att + 1).toNat = s.att.toNat + 1 := by
      rw [ha, BitVec.toNat_add]; simp; omega
    unfold attempts attemptAnswers
    simp only []
    by_cases h : ok (sendCommand cmd arg fl s).1 = true
    · simp only [h, if_true]
      exact .inl ⟨trivial, 0, by simp, h, rfl, hone, by simp⟩
    · simp only [h, if_false, Bool.false_eq_true]
      by_cases hz : n = 0
      · subst hz
        simp only [if_true]
        exact .inr ⟨trivial, hone, by simpa [attemptAnswers] using h⟩
      · simp only [hz, if_false]
        have ht : (delay Config.retrySpacingUs
            { (sendCommand cmd arg fl s).2 with att := (sendCommand cmd arg fl s).2.att + 1 }).att.toNat =
          s.att.toNat + 1 := hone
        rcases ih (delay Config.retrySpacingUs
            { (sendCommand cmd arg fl s).2 with att := (sendCommand cmd arg fl s).2.att + 1 }) (by omega) with
          ⟨h1, k, hk, h2, h3, h4, h5⟩ | ⟨h1, h2, h3⟩
        · refine .inl ⟨h1, k + 1, by simpa using hk, h2, h3,
            h4.trans (by show (_ + 1 : Byte).toNat + k + 1 = _; rw [hone]; omega), ?_⟩
          intro j hj hjk
          cases j with
          | zero => simpa using h
          | succ j => exact h5 j (by simpa using hj) (by omega)
        · refine .inr ⟨h1, h2.trans (by show (_ + 1 : Byte).toNat + n = _; rw [hone]; omega), ?_⟩
          intro b hb
          rcases List.mem_cons.1 hb with rfl | hb
          · simpa using h
          · exact h3 b hb

/-- What the last attempt made leaves: its frame in `FB`, its argument in `ARG`, and in `RB` the response that the outcome
of the whole loop is the verdict on. -/
theorem attempts_last (cmd : BitVec 6) (arg : Word) (fl : CmdFlags) (ok : Byte → State → Bool) (n : Nat) (s : State)
    (h : 0 < n) : (attempts cmd arg fl ok n s).2.fb = frameBytes cmd arg ∧ (attempts cmd arg fl ok n s).2.arg = arg ∧
      ok (attempts cmd arg fl ok n s).2.rb[0] (attempts cmd arg fl ok n s).2 = (attempts cmd arg fl ok n s).1 := by
  induction n generalizing s with
  | zero => omega
  | succ n ih =>
    have hs := sendCommand_frame cmd arg fl s
    have h1 : (sendCommand cmd arg fl s).2.fb = frameBytes cmd arg := by rw [hs]
    have h2 : (sendCommand cmd arg fl s).2.arg = arg := by rw [hs]
    unfold attempts
    simp only []
    split
    · rename_i hok; exact ⟨h1, h2, hok⟩
    · rename_i hok
      split
      · exact ⟨h1, h2, Bool.eq_false_iff.2 hok⟩
      · exact ih _ (by omega)

theorem attempts_inner {cmd : BitVec 6} (arg : Word) (fl : CmdFlags) (ok : Byte → State → Bool) (n : Nat) (s : State)
    (h : emitted cmd = true) (hn : s.att.toNat + n ≤ 250) : Inner s (attempts cmd arg fl ok n s).2 := by
  obtain ⟨k, evs, h1, h2, h3, h4, -⟩ := attempts_counts cmd arg fl ok n s (by omega)
  have hf := attempts_frame cmd arg fl ok n s
  have hfb : FrameRegister s.fb → FrameRegister (attempts cmd arg fl ok n s).2.fb := by
    clear h1 h2 h3 h4 hf hn
    induction n generalizing s with
    | zero => exact id
    | succ n ih =>
      intro _
      have hs : FrameRegister (sendCommand cmd arg fl s).2.fb := by
        rw [sendCommand_frame]; exact .inr ⟨cmd, arg, h, rfl⟩
      unfold attempts
      simp only []
      split
      · exact hs
      · split
        · exact hs
        · exact ih _ hs
  refine ⟨?_, ?_, ?_, ?_, ?_, ?_, ?_, ?_, ⟨evs, h1, h2⟩, hfb, ?_, ?_⟩ <;> try (rw [hf]; try exact id)
  · intro _; rw [h3]; omega

theorem checkCommand_inner {cmd : BitVec 6} (arg : Word) (fl : CmdFlags) (expected m : Byte) (s : State)
    (h : emitted cmd = true) (hm : m.toNat ≤ 250) : Inner s (checkCommand cmd arg fl expected m s).2 := by
  have := attempts_inner arg fl (fun r _ => compareResponse fl expected r) m.toNat { s with att := 0#8 } h
    (by simpa using hm)
  exact ⟨this.flags, this.seq, this.rate, this.ver, this.rsp, this.cfg, this.ret, this.host, this.trace, this.frame,
    fun _ => this.attempt (by simp), this.tick⟩

/-! ## find_token -/

theorem findToken_frame (token : Byte) (us : Word) (s : State) :
    (findToken token us s).2 = { s with
      deadline := (findToken token us s).2.deadline
      bus := (findToken token us s).2.bus } := rfl

theorem isHost_of_isWait {e : Event} (h : e.isWait = true) : e.isHost = false := by
  cases e <;> simp_all [Event.isWait, Event.isHost]

/-- Everything `find_token` can do on the wire (R186, R187). -/
theorem findToken_waited (token : Byte) (us : Word) (s : State) :
    ∃ evs rs, (findToken token us s).2.bus.trace = s.bus.trace ++ (.now (s.bus.nowTick s.cfg.tickW) :: evs) ∧
      (∀ e ∈ evs, e.isWait = true) ∧ receivedBytes evs = rs ∧
      sentBytes evs = List.replicate rs.length Config.fillerByte ∧ rs ≠ [] ∧
      ((findToken token us s).1 = true → ∃ pre, rs = pre ++ [token] ∧ token ∉ pre) ∧
      ((findToken token us s).1 = false → token ∉ rs) ∧
      (findToken token us s).2.bus.miso = s.bus.miso.drop rs.length := by
  obtain ⟨evs, rs, h1, h2⟩ := Bus.waited_poll s.cfg.tickW token
    ((s.bus.nowTick s.cfg.tickW + usToTicks s.cfg us.toNat) % 2 ^ s.cfg.tickW) (s.bus.now s.cfg.tickW).clock
    (s.bus.now s.cfg.tickW)
  exact ⟨evs, rs, by unfold findToken; simp only []; rw [h1]; simp [Bus.now], h2⟩

theorem findToken_inner (token : Byte) (us : Word) (s : State) : Inner s (findToken token us s).2 := by
  obtain ⟨evs, rs, h1, h2, -⟩ := findToken_waited token us s
  refine ⟨rfl, rfl, rfl, rfl, rfl, rfl, rfl, rfl, ⟨_, h1, ?_⟩, id, id, ?_⟩
  · intro e he
    rcases List.mem_cons.1 he with rfl | he
    · rfl
    · exact isHost_of_isWait (h2 e he)
  · intro _
    exact Nat.mod_lt _ (Nat.two_pow_pos _)

/-- A token that is the card's next listed answer ends the wait at once, whatever the clock (R187). -/
theorem findToken_first {token : Byte} {us : Word} {s : State} {rest : List Byte} (h : s.bus.miso = token :: rest) :
    (findToken token us s).1 = true ∧ (findToken token us s).2.bus.miso = rest ∧
      (findToken token us s).2.bus.trace = s.bus.trace ++
        [.now (s.bus.nowTick s.cfg.tickW), .xfer Config.fillerByte token] := by
  have := Bus.poll_first (w := s.cfg.tickW)
    (deadline := (s.bus.nowTick s.cfg.tickW + usToTicks s.cfg us.toNat) % 2 ^ s.cfg.tickW)
    (b := s.bus.now s.cfg.tickW) (show _ = token :: rest from h)
  refine ⟨this.1, this.2.1, ?_⟩
  have h3 := this.2.2
  unfold findToken
  simp only []
  rw [h3]
  simp [Bus.now]

/-- The wrap-safe comparison of ticks, as arithmetic on integers (D7). -/
theorem before_iff (w a b : Nat) :
    before w (a % 2 ^ w) b = true ↔ (2 : Int) ^ (w - 1) ≤ ((a : Int) - b) % 2 ^ w := by
  have hb : b % 2 ^ w ≤ 2 ^ w := (Nat.mod_lt _ (Nat.two_pow_pos w)).le
  have h : (((a % 2 ^ w + (2 ^ w - b % 2 ^ w)) % 2 ^ w : Nat) : Int) = ((a : Int) - b) % 2 ^ w := by
    push_cast [Nat.cast_sub hb]
    rw [Int.emod_eq_emod_iff_emod_sub_eq_zero, Int.emod_def (a : Int), Int.emod_def (b : Int),
      show (a : Int) - 2 ^ w * (a / 2 ^ w) + (2 ^ w - (b - 2 ^ w * (b / 2 ^ w))) - (a - b) =
        2 ^ w * (1 - a / 2 ^ w + b / 2 ^ w) by ring]
    simp
  unfold before
  rw [decide_eq_true_eq, ← h]
  norm_cast

/-- A wait along listed ticks, all before the deadline but the last, on a line that never shows the token: it fails, and
takes exactly the bytes and ticks up to there (R186). -/
theorem Bus.poll_late {w : Nat} {token : Byte} {deadline last : Nat} {quiet more : List Byte} {ticks rest : List Nat}
    {b : Bus} (hq : token ∉ quiet) (ht : ∀ t ∈ ticks, before w (t % 2 ^ w) deadline = true)
    (hl : before w (last % 2 ^ w) deadline = false) (hn : ticks.length + 1 = quiet.length)
    (hm : b.miso = quiet ++ more) :
    (Bus.poll w token deadline (ticks ++ last :: rest) b).1 = false ∧
      (Bus.poll w token deadline (ticks ++ last :: rest) b).2.miso = more ∧
      (Bus.poll w token deadline (ticks ++ last :: rest) b).2.clock = rest := by
  induction quiet generalizing ticks b with
  | nil => simp at hn
  | cons q qs ih =>
    simp only [List.mem_cons, not_or] at hq
    have hr : b.rx ≠ token := by simpa [Bus.rx, hm] using fun h => hq.1 h.symm
    cases ticks with
    | nil =>
      obtain rfl : qs = [] := List.length_eq_zero_iff.1 (by simpa using hn.symm)
      simp [Bus.poll, hr, hl, Bus.xfer, hm]
    | cons t ts =>
      simp only [List.cons_append, Bus.poll, if_neg hr, ht t (by simp), if_true]
      exact ih hq.2 (fun x hx => ht x (by simp [hx])) (by simpa using hn) (by simp [Bus.xfer, hm])

/-- The deadline is taken once, `t0` plus the timeout in ticks (R186). -/
theorem findToken_deadline {token : Byte} {us : Word} {s : State} {t0 : Nat} {ticks : List Nat}
    (h : s.bus.clock = t0 :: ticks) :
    (findToken token us s).2.deadline = (t0 + us.toNat * s.cfg.ticksPerUs) % 2 ^ s.cfg.tickW := by
  simp only [findToken, Bus.nowTick, h, usToTicks, ← Nat.add_mod]

/-- A wait that the time source ends (R186, R187). -/
theorem findToken_late {token : Byte} {us : Word} {s : State} {t0 last : Nat} {quiet more : List Byte}
    {ticks rest : List Nat} (hq : token ∉ quiet)
    (ht : ∀ t ∈ ticks, (2 : Int) ^ (s.cfg.tickW - 1) ≤
      ((t : Int) - ((t0 + us.toNat * s.cfg.ticksPerUs) % 2 ^ s.cfg.tickW : Nat)) % 2 ^ s.cfg.tickW)
    (hl : ¬ (2 : Int) ^ (s.cfg.tickW - 1) ≤
      ((last : Int) - ((t0 + us.toNat * s.cfg.ticksPerUs) % 2 ^ s.cfg.tickW : Nat)) % 2 ^ s.cfg.tickW)
    (hn : ticks.length + 1 = quiet.length) (hm : s.bus.miso = quiet ++ more)
    (hc : s.bus.clock = t0 :: (ticks ++ last :: rest)) :
    (findToken token us s).1 = false ∧ (findToken token us s).2.bus.miso = more ∧
      (findToken token us s).2.bus.clock = rest := by
  simp only [← before_iff, Bool.not_eq_true] at ht hl
  have := Bus.poll_late (b := s.bus.now s.cfg.tickW) (rest := rest) hq ht hl hn (show _ = quiet ++ more from hm)
  simpa only [findToken, Bus.nowTick, Bus.now, hc, usToTicks, ← Nat.add_mod, List.tail_cons] using this

end Sys2Proof.Machine
end

