-- ==== Sys2Proof/Laws/Memory.lean ====
section
/-! SUPPORT. The laws of the sector buffer's memory: a read after a write, and that every operation keeps the canonical form. -/

namespace Sys2Proof.Machine.Memory

theorem wfFrom_mono {lo lo' : Nat} {m : Memory} (h : Memory.wfFrom lo m = true) (hl : lo' ≤ lo) :
    Memory.wfFrom lo' m = true := by
  cases m with
  | nil => rfl
  | cons c m =>
    obtain ⟨a, w⟩ := c
    simp only [Memory.wfFrom, Bool.and_eq_true, decide_eq_true_eq] at *
    exact ⟨⟨⟨by omega, h.1.1.2⟩, h.1.2⟩, h.2⟩

/-- An address below the lowest listed one is unlisted. -/
theorem read_below {lo k : Nat} {m : Memory} (h : Memory.wfFrom lo m = true) (hk : k < lo) :
    Memory.read m k = Memory.unlisted := by
  induction m generalizing lo with
  | nil => rfl
  | cons c m ih =>
    obtain ⟨a, w⟩ := c
    simp only [Memory.wfFrom, Bool.and_eq_true, decide_eq_true_eq] at h
    have : a ≠ k := by omega
    simp [Memory.read, this, ih h.2 (by omega)]

theorem wfFrom_write {lo k : Nat} {m : Memory} (v : Byte) (h : Memory.wfFrom lo m = true) (hl : lo ≤ k)
    (hk : k < Config.sectorSize) : Memory.wfFrom lo (Memory.write m k v) = true := by
  induction m generalizing lo with
  | nil =>
    unfold Memory.write
    split <;> simp_all [Memory.wfFrom]
  | cons c m ih =>
    obtain ⟨a, w⟩ := c
    have h' := h
    simp only [Memory.wfFrom, Bool.and_eq_true, decide_eq_true_eq] at h
    unfold Memory.write
    split
    · split
      · exact h'
      · simp_all [Memory.wfFrom]
    · split
      · split
        · exact wfFrom_mono h.2 (by omega)
        · subst_vars; simp_all [Memory.wfFrom]
      · have := ih h.2 (by omega)
        simp_all [Memory.wfFrom]

theorem read_write_same {lo k : Nat} {m : Memory} (v : Byte) (h : Memory.wfFrom lo m = true) :
    Memory.read (Memory.write m k v) k = v := by
  induction m generalizing lo with
  | nil => unfold Memory.write; split <;> simp_all [Memory.read]
  | cons c m ih =>
    obtain ⟨a, w⟩ := c
    simp only [Memory.wfFrom, Bool.and_eq_true, decide_eq_true_eq] at h
    unfold Memory.write
    split
    · split
      · have : a ≠ k := by omega
        simp_all [Memory.read, read_below h.2 (show k < a + 1 by omega)]
      · simp [Memory.read]
    · split
      · split
        · have hr := read_below h.2 (show k < a + 1 by omega)
          simp_all
        · simp [Memory.read]
      · have : a ≠ k := by omega
        simp [Memory.read, this, ih h.2]

theorem read_write_other {j k : Nat} {m : Memory} (v : Byte) (h : j ≠ k) :
    Memory.read (Memory.write m k v) j = Memory.read m j := by
  induction m with
  | nil => unfold Memory.write; split <;> simp [Memory.read, h.symm]
  | cons c m ih =>
    obtain ⟨a, w⟩ := c
    unfold Memory.write
    split
    · split <;> simp [Memory.read, h.symm]
    · split
      · have : a ≠ j := by omega
        split <;> simp [Memory.read, this, h.symm]
      · simp [Memory.read, ih]

theorem wf_write {k : Nat} {m : Memory} (v : Byte) (h : m.wf = true) (hk : k < Config.sectorSize) :
    (m.write k v).wf = true := wfFrom_write v h (Nat.zero_le _) hk

theorem wf_store {k : Nat} {m : Memory} {bs : List Byte} (h : m.wf = true) (hk : k + bs.length ≤ Config.sectorSize) :
    (m.store k bs).wf = true := by
  induction bs generalizing k m with
  | nil => exact h
  | cons b bs ih =>
    simp only [List.length_cons] at hk
    exact ih (wf_write b h (by omega)) (by omega)

theorem read_store_below {j k : Nat} {m : Memory} {bs : List Byte} (h : j < k) :
    Memory.read (m.store k bs) j = Memory.read m j := by
  induction bs generalizing k m with
  | nil => rfl
  | cons b bs ih => rw [Memory.store, ih (by omega), read_write_other _ (by omega)]

theorem read_store_above {j k : Nat} {m : Memory} {bs : List Byte} (h : k + bs.length ≤ j) :
    Memory.read (m.store k bs) j = Memory.read m j := by
  induction bs generalizing k m with
  | nil => rfl
  | cons b bs ih =>
    simp only [List.length_cons] at h
    rw [Memory.store, ih (by omega), read_write_other _ (by omega)]

/-- The bytes stored are read back in order. -/
theorem load_store {k : Nat} {m : Memory} {bs : List Byte} (h : m.wf = true)
    (hk : k + bs.length ≤ Config.sectorSize) : (m.store k bs).load k bs.length = bs := by
  induction bs generalizing k m with
  | nil => rfl
  | cons b bs ih =>
    simp only [List.length_cons] at hk
    simp only [Memory.store, List.length_cons, Memory.load]
    rw [ih (wf_write b h (by omega)) (by omega), read_store_below (by omega), read_write_same b h]

@[simp] theorem length_load (m : Memory) (k n : Nat) : (m.load k n).length = n := by
  induction n generalizing k with
  | zero => rfl
  | succ n ih => simp [Memory.load, ih]

theorem getElem_load {m : Memory} {k n j : Nat} (h : j < (m.load k n).length) :
    (m.load k n)[j] = m.read (k + j) := by
  induction n generalizing k j with
  | zero => simp at h
  | succ n ih =>
    cases j with
    | zero => rfl
    | succ j =>
      simp only [Memory.load, List.getElem_cons_succ]
      rw [ih]
      congr 1
      omega

end Sys2Proof.Machine.Memory
end

