-- ==== Sys2Proof/Laws/Block.lean ====
section
/-! SUPPORT. What the read-block primitive, READ and WRITE can do, said once: their stretches of history, their frames and their
verdicts. -/

namespace Sys2Proof.Machine

/-! ## Stretches of byte exchanges and waits -/

/-- From `b` to `c` only bytes were exchanged and the time was read; the bytes sent were `tx`, those received `rx`. -/
def Bus.Moved (tx rx : List Byte) (b c : Bus) : Prop :=
  ∃ evs, c.trace = b.trace ++ evs ∧ (∀ e ∈ evs, e.isWait = true) ∧ sentBytes evs = tx ∧ receivedBytes evs = rx ∧
    c.miso = b.miso.drop tx.length

theorem sentBytes_append (xs ys : List Event) : sentBytes (xs ++ ys) = sentBytes xs ++ sentBytes ys := by
  simp [sentBytes, List.filterMap_append]

theorem receivedBytes_append (xs ys : List Event) :
    receivedBytes (xs ++ ys) = receivedBytes xs ++ receivedBytes ys := by
  simp [receivedBytes, List.filterMap_append]

theorem sentBytes_zipWith (txs rxs : List Byte) (h : rxs.length = txs.length) :
    sentBytes (List.zipWith Event.xfer txs rxs) = txs := by
  induction txs generalizing rxs with
  | nil => rfl
  | cons tx txs ih =>
    cases rxs with
    | nil => simp at h
    | cons rx rxs => simpa [sentBytes] using ih rxs (by simpa using h)

theorem receivedBytes_zipWith (txs rxs : List Byte) (h : rxs.length = txs.length) :
    receivedBytes (List.zipWith Event.xfer txs rxs) = rxs := by
  induction txs generalizing rxs with
  | nil => cases rxs with
    | nil => rfl
    | cons rx rxs => simp at h
  | cons tx txs ih =>
    cases rxs with
    | nil => simp at h
    | cons rx rxs => simpa [receivedBytes] using ih rxs (by simpa using h)

theorem zipWith_isWait (txs rxs : List Byte) : ∀ e ∈ List.zipWith Event.xfer txs rxs, e.isWait = true := by
  intro e he
  obtain ⟨k, hk, rfl⟩ := List.getElem_of_mem he
  simp [Event.isWait]

theorem Bus.Moved.trans {x y p q : List Byte} {a b c : Bus} (h : Bus.Moved x p a b) (k : Bus.Moved y q b c) :
    Bus.Moved (x ++ y) (p ++ q) a c := by
  obtain ⟨e1, h1, w1, s1, r1, m1⟩ := h
  obtain ⟨e2, h2, w2, s2, r2, m2⟩ := k
  refine ⟨e1 ++ e2, by rw [h2, h1, List.append_assoc], ?_, by rw [sentBytes_append, s1, s2],
    by rw [receivedBytes_append, r1, r2], ?_⟩
  · intro e he
    rcases List.mem_append.1 he with h' | h'
    · exact w1 e h'
    · exact w2 e h'
  · rw [m2, m1, List.drop_drop, List.length_append]

theorem Bus.moved_send (txs : List Byte) (b : Bus) : Bus.Moved txs (Bus.answers txs.length b) b (b.send txs) := by
  rw [Bus.send_eq]
  exact ⟨_, rfl, zipWith_isWait _ _, sentBytes_zipWith _ _ (Bus.length_answers _ _),
    receivedBytes_zipWith _ _ (Bus.length_answers _ _), rfl⟩

/-- Everything the response scan does on the wire (R252); the byte it returns is the last one received. -/
theorem Bus.moved_scan {n : Nat} (b : Bus) (h : 0 < n) :
    ∃ rs, 0 < rs.length ∧ Bus.Moved (List.replicate rs.length Config.fillerByte) rs b (b.scan n).2 ∧ Scanned n rs ∧
      rs.getLast? = some (b.scan n).1 := by
  obtain ⟨k, hk, hp, hs, hc⟩ := Bus.scan_spec n b
  have hm := Bus.moved_send (List.replicate k Config.fillerByte) b
  rw [← hs, List.length_replicate] at hm
  refine ⟨Bus.answers k b, by simpa using hp h, by simpa using hm, ?_⟩
  rcases hc with ⟨h1, rfl, h3⟩ | ⟨h1, h2, h3⟩
  · rw [h3, h1]
    exact ⟨.inl rfl, by rw [List.getLast?_replicate, if_neg (by omega)]⟩
  · rw [h3]
    exact ⟨.inr ⟨k - 1, _, by omega, h1, rfl⟩, by simp⟩

/-- Everything a wait for a token does on the wire (42_policies.md R186, R187). -/
theorem findToken_moved (token : Byte) (us : Word) (s : State) :
    ∃ rs, Bus.Moved (List.replicate rs.length Config.fillerByte) rs s.bus (findToken token us s).2.bus ∧
      Awaited token rs ∧ ((findToken token us s).1 = true ↔ token ∈ rs) := by
  obtain ⟨evs, rs, h1, h2, h3, h4, h5, h6, h7, h8⟩ := findToken_waited token us s
  refine ⟨rs, ⟨_, h1, ?_, by simpa [sentBytes] using h4, by simpa [receivedBytes] using h3, by simpa using h8⟩,
    ⟨h5, ?_⟩, ?_⟩
  · intro e he
    rcases List.mem_cons.1 he with rfl | he
    · rfl
    · exact h2 e he
  · cases hf : (findToken token us s).1 with
    | true => obtain ⟨pre, rfl, hp⟩ := h6 hf; simpa using hp
    | false => exact fun h => h7 hf (List.mem_of_mem_dropLast h)
  · constructor
    · intro hf; obtain ⟨pre, rfl, -⟩ := h6 hf; simp
    · intro h
      cases hf : (findToken token us s).1 with
      | true => rfl
      | false => exact absurd h (h7 hf)

/-! ## The read-block primitive -/

theorem destStore_frame (d : BlockDest) (bytes : List Byte) (s : State) :
    destStore d bytes s = { s with csd := (destStore d bytes s).csd, buf := (destStore d bytes s).buf } := by
  cases d <;> rfl

@[simp] theorem destStore_bus (d : BlockDest) (bytes : List Byte) (s : State) : (destStore d bytes s).bus = s.bus := by
  cases d <;> rfl

theorem csdOf_toList {bytes : List Byte} (h : bytes.length = 16) (old : Vector Byte 16) :
    (csdOf bytes old).toList = bytes := by
  obtain ⟨b0, bs, rfl⟩ := List.exists_cons_of_length_eq_add_one (n := 15) h
  match bs, h with
  | [_, _, _, _, _, _, _, _, _, _, _, _, _, _, _], _ => rfl

/-- A payload that fills its destination is what the destination then holds (R254). -/
theorem destLoad_destStore {d : BlockDest} {payload : List Byte} {s t : State} (hp : payload.length = destSize d)
    (hw : s.buf.wf = true) (hb : t.buf = (destStore d payload s).buf) (hc : t.csd = (destStore d payload s).csd) :
    destLoad d (destSize d) t = payload := by
  cases d with
  | buf =>
    have := Memory.load_store (k := 0) (m := s.buf) (bs := payload) hw (by rw [hp]; exact Nat.le_refl _)
    rw [hp] at this
    simpa [destLoad, hb, destStore] using this
  | csd =>
    simp only [destLoad, hc, destStore]
    rw [csdOf_toList hp, List.take_of_length_le (by rw [hp])]

/-- The state in which the verdict is made. -/
def blockEnd (cmd : BitVec 6) (arg : Word) (len : Nat) (d : BlockDest) (s : State) : State :=
  release (blockWait Config.fillerByte (blockDrain len d
    (blockWait Config.startToken (blockScan (blockOpen cmd arg s)))))

theorem readBlock_eq (cmd : BitVec 6) (arg : Word) (len : Nat) (d : BlockDest) (s : State) :
    readBlock cmd arg len d s = blockVerdict len d (blockEnd cmd arg len d s) := rfl

theorem blockDrain_frame (len : Nat) (d : BlockDest) (s : State) :
    blockDrain len d s = { s with
      csd := (blockDrain len d s).csd
      buf := (blockDrain len d s).buf
      crcRx := (blockDrain len d s).crcRx
      bus := (blockDrain len d s).bus } := by
  unfold blockDrain; cases d <;> rfl

theorem blockDrain_bus (len : Nat) (d : BlockDest) (s : State) :
    (blockDrain len d s).bus = s.bus.send (List.replicate (len + 2) Config.fillerByte) := by
  simp only [blockDrain, Bus.recv_eq, ← Bus.send_append, List.replicate_append_replicate]

theorem blockEnd_frame (cmd : BitVec 6) (arg : Word) (len : Nat) (d : BlockDest) (s : State) :
    blockEnd cmd arg len d s = { s with
      cs := true
      fb := frameBytes cmd arg
      arg := arg
      fault := (blockEnd cmd arg len d s).fault
      crcRx := (blockEnd cmd arg len d s).crcRx
      deadline := (blockEnd cmd arg len d s).deadline
      csd := (blockEnd cmd arg len d s).csd
      buf := (blockEnd cmd arg len d s).buf
      bus := (blockEnd cmd arg len d s).bus } := by
  have h := blockDrain_frame len d (blockWait Config.startToken (blockScan (blockOpen cmd arg s)))
  unfold blockEnd
  rw [h]
  rfl

theorem blockEnd_deadline (cmd : BitVec 6) (arg : Word) (len : Nat) (d : BlockDest) (s : State) :
    (blockEnd cmd arg len d s).deadline < 2 ^ s.cfg.tickW := by
  have h := blockDrain_frame len d (blockWait Config.startToken (blockScan (blockOpen cmd arg s)))
  unfold blockEnd
  rw [h]
  exact Nat.mod_lt _ (Nat.two_pow_pos _)

/-- The drain as it acts on the state (R254). -/
theorem blockDrain_eq (len : Nat) (d : BlockDest) (s : State) : ∃ payload hi lo, payload.length = len ∧
    Bus.Moved (List.replicate (len + 2) Config.fillerByte) (payload ++ [hi, lo]) s.bus (blockDrain len d s).bus ∧
    blockDrain len d s = { destStore d payload s with crcRx := hi ++ lo, bus := (blockDrain len d s).bus } := by
  have hl := Bus.length_answers 2 (s.bus.send (List.replicate len Config.fillerByte))
  obtain ⟨hi, lo, hc⟩ := List.length_eq_two.1 hl
  have m := (Bus.moved_send (List.replicate len Config.fillerByte) s.bus).trans
    (Bus.moved_send (List.replicate 2 Config.fillerByte) (s.bus.send (List.replicate len Config.fillerByte)))
  rw [← Bus.send_append, List.replicate_append_replicate, ← blockDrain_bus len d, List.length_replicate,
    List.length_replicate, hc] at m
  refine ⟨_, hi, lo, Bus.length_answers _ _, m, ?_⟩
  simp only [blockDrain, Bus.recv_eq, hc]
  rfl

/-- The whole of the read-block primitive up to its verdict (R251 to R256, R259): prepare, select, one stretch of
exchanges and looks at the time, deselect. The frame goes out first, then filler, at least 1 + 1 + L + 2 + 1 of it. What
comes in is the scan, the two waits and the drain between them; `FAULT` says that one of the three failed. -/
theorem blockEnd_history (cmd : BitVec 6) (arg : Word) (len : Nat) (d : BlockDest) (s : State) :
    ∃ evs n skip scan wait payload hi lo idle,
      (blockEnd cmd arg len d s).bus.trace = s.bus.trace ++ ([.prepare, .cs false] ++ evs ++ [.cs true]) ∧
      (∀ e ∈ evs, e.isWait = true) ∧
      sentBytes evs = (frameBytes cmd arg).toList ++ List.replicate n Config.fillerByte ∧ len + 5 ≤ n ∧
      receivedBytes evs = skip ++ scan ++ wait ++ payload ++ [hi, lo] ++ idle ∧ skip.length = 6 ∧
      payload.length = len ∧ Scanned 16 scan ∧ Awaited Config.startToken wait ∧ Awaited Config.fillerByte idle ∧
      ((blockEnd cmd arg len d s).fault = true ↔
        scan.getLast? ≠ some 0x00#8 ∨ Config.startToken ∉ wait ∨ Config.fillerByte ∉ idle) ∧
      (blockEnd cmd arg len d s).crcRx = hi ++ lo ∧
      (blockEnd cmd arg len d s).buf = (destStore d payload s).buf ∧
      (blockEnd cmd arg len d s).csd = (destStore d payload s).csd := by
  have m1 : Bus.Moved (frameBytes cmd arg).toList _ ((s.bus.emit .prepare).emit (.cs false)) (blockOpen cmd arg s).bus :=
    Bus.moved_send _ _
  obtain ⟨scan, hscan, m2, hs, hlast⟩ := Bus.moved_scan (n := Config.readScanMax) (blockOpen cmd arg s).bus (by decide)
  obtain ⟨wait, m3, hw, htok⟩ := findToken_moved Config.startToken Config.tokenTimeoutUs
    (blockScan (blockOpen cmd arg s))
  obtain ⟨payload, hi, lo, hp, m4, hd⟩ := blockDrain_eq len d
    (blockWait Config.startToken (blockScan (blockOpen cmd arg s)))
  obtain ⟨idle, m5, hi', hidle⟩ := findToken_moved Config.fillerByte Config.tokenTimeoutUs
    (blockDrain len d (blockWait Config.startToken (blockScan (blockOpen cmd arg s))))
  obtain ⟨evs, h1, h2, h3, h4, -⟩ := (m1.trans m2).trans ((m3.trans m4).trans m5)
  refine ⟨evs, scan.length + (wait.length + (len + 2) + idle.length),
    Bus.answers 6 ((s.bus.emit .prepare).emit (.cs false)), scan, wait, payload, hi, lo, idle, ?_, h2, ?_, ?_,
    by rw [h4]; simp only [List.append_assoc]; rfl, Bus.length_answers _ _, hp, hs, hw, hi', ?_, ?_, ?_, ?_⟩
  · have : (blockEnd cmd arg len d s).bus.trace = (findToken Config.fillerByte Config.tokenTimeoutUs
      (blockDrain len d (blockWait Config.startToken (blockScan (blockOpen cmd arg s))))).2.bus.trace ++
        [.cs true] := rfl
    rw [this, h1]
    simp [Bus.emit]
  · rw [h3]; simp only [List.append_assoc, List.replicate_append_replicate, Nat.add_assoc]
  · have := List.length_pos_of_ne_nil hw.1
    have := List.length_pos_of_ne_nil hi'.1
    omega
  · have hf : (blockEnd cmd arg len d s).fault = ((blockDrain len d (blockWait Config.startToken (blockScan
        (blockOpen cmd arg s)))).fault || !(findToken Config.fillerByte Config.tokenTimeoutUs (blockDrain len d
          (blockWait Config.startToken (blockScan (blockOpen cmd arg s))))).1) := rfl
    have hg : (blockWait Config.startToken (blockScan (blockOpen cmd arg s))).fault =
      ((false || ((blockOpen cmd arg s).bus.scan Config.readScanMax).1 != 0x00#8) ||
        !(findToken Config.startToken Config.tokenTimeoutUs (blockScan (blockOpen cmd arg s))).1) := rfl
    have hx : (blockDrain len d (blockWait Config.startToken (blockScan (blockOpen cmd arg s)))).fault =
      (blockWait Config.startToken (blockScan (blockOpen cmd arg s))).fault := by rw [blockDrain_frame]
    rw [hf, hx, hg, hlast, ← htok, ← hidle]
    simp [or_assoc]
  · have : (blockEnd cmd arg len d s).crcRx = (blockDrain len d (blockWait Config.startToken (blockScan
        (blockOpen cmd arg s)))).crcRx := rfl
    rw [this, hd]
  · have : (blockEnd cmd arg len d s).buf = (blockDrain len d (blockWait Config.startToken (blockScan
        (blockOpen cmd arg s)))).buf := rfl
    rw [this, hd]
    cases d <;> rfl
  · have : (blockEnd cmd arg len d s).csd = (blockDrain len d (blockWait Config.startToken (blockScan
        (blockOpen cmd arg s)))).csd := rfl
    rw [this, hd]
    cases d <;> rfl

/-- The bracket of the read-block primitive, as its callers need it. -/
theorem blockEnd_trace (cmd : BitVec 6) (arg : Word) (len : Nat) (d : BlockDest) (s : State) :
    ∃ evs n, (blockEnd cmd arg len d s).bus.trace = s.bus.trace ++ ([.prepare, .cs false] ++ evs ++ [.cs true]) ∧
      (∀ e ∈ evs, e.isWait = true) ∧
      sentBytes evs = (frameBytes cmd arg).toList ++ List.replicate n Config.fillerByte ∧ len + 5 ≤ n := by
  obtain ⟨evs, n, -, -, -, -, -, -, -, h1, h2, h3, h4, -⟩ := blockEnd_history cmd arg len d s
  exact ⟨evs, n, h1, h2, h3, h4⟩

/-- Everything the verdict can do (R257). -/
theorem blockVerdict_cases (len : Nat) (d : BlockDest) (s : State) :
    (s.fault = true ∧ blockVerdict len d s = (false, { s with err := s.err ||| 0x20#8 })) ∨
    (s.fault = false ∧ crc16Of (destLoad d len s) ≠ s.crcRx ∧ blockVerdict len d s =
      (false, { s with crc := crc16Of (destLoad d len s), err := s.err ||| 0x04#8 })) ∨
    (s.fault = false ∧ crc16Of (destLoad d len s) = s.crcRx ∧ blockVerdict len d s =
      (true, { s with crc := crc16Of (destLoad d len s) })) := by
  unfold blockVerdict
  cases hf : s.fault with
  | true => exact .inl ⟨rfl, by simp [orErr, Cause.mask, hf]⟩
  | false =>
    by_cases hc : crc16Of (destLoad d len s) = s.crcRx
    · exact .inr (.inr ⟨rfl, hc, by simp [hc]⟩)
    · exact .inr (.inl ⟨rfl, hc, by simp [hc, orErr, Cause.mask]⟩)

theorem readBlock_frame (cmd : BitVec 6) (arg : Word) (len : Nat) (d : BlockDest) (s : State) :
    (readBlock cmd arg len d s).2 = { s with
      cs := true
      fb := frameBytes cmd arg
      arg := arg
      err := (readBlock cmd arg len d s).2.err
      fault := (readBlock cmd arg len d s).2.fault
      crc := (readBlock cmd arg len d s).2.crc
      crcRx := (readBlock cmd arg len d s).2.crcRx
      deadline := (readBlock cmd arg len d s).2.deadline
      csd := (readBlock cmd arg len d s).2.csd
      buf := (readBlock cmd arg len d s).2.buf
      bus := (readBlock cmd arg len d s).2.bus } := by
  have hf := blockEnd_frame cmd arg len d s
  rw [readBlock_eq]
  rcases blockVerdict_cases len d (blockEnd cmd arg len d s) with ⟨-, h⟩ | ⟨-, -, h⟩ | ⟨-, -, h⟩ <;> rw [h] <;>
    (rw [hf])

theorem readBlock_bus (cmd : BitVec 6) (arg : Word) (len : Nat) (d : BlockDest) (s : State) :
    (readBlock cmd arg len d s).2.bus = (blockEnd cmd arg len d s).bus := by
  rw [readBlock_eq]
  rcases blockVerdict_cases len d (blockEnd cmd arg len d s) with ⟨-, h⟩ | ⟨-, -, h⟩ | ⟨-, -, h⟩ <;> rw [h]

/-- Everything the read-block primitive can do (R250 to R259): the history of `blockEnd_history`, and the verdict, which
follows from `FAULT` and the CRC16 of what the destination then holds. -/
theorem readBlock_history (cmd : BitVec 6) (arg : Word) (len : Nat) (d : BlockDest) (s : State) :
    let r := readBlock cmd arg len d s
    ∃ evs n skip scan wait payload hi lo idle,
      r.2.bus.trace = s.bus.trace ++ ([.prepare, .cs false] ++ evs ++ [.cs true]) ∧ (∀ e ∈ evs, e.isWait = true) ∧
      sentBytes evs = (frameBytes cmd arg).toList ++ List.replicate n Config.fillerByte ∧ len + 5 ≤ n ∧
      receivedBytes evs = skip ++ scan ++ wait ++ payload ++ [hi, lo] ++ idle ∧ skip.length = 6 ∧
      payload.length = len ∧ Scanned 16 scan ∧ Awaited Config.startToken wait ∧ Awaited Config.fillerByte idle ∧
      (r.2.fault = true ↔ scan.getLast? ≠ some 0x00#8 ∨ Config.startToken ∉ wait ∨ Config.fillerByte ∉ idle) ∧
      r.2.crcRx = hi ++ lo ∧ r.2.buf = (destStore d payload s).buf ∧ r.2.csd = (destStore d payload s).csd ∧
      ((r.2.fault = true ∧ r.1 = false ∧ r.2.err = s.err ||| 0x20#8 ∧ r.2.crc = s.crc) ∨
        (r.2.fault = false ∧ r.2.crc = crc16Of (destLoad d len r.2) ∧ r.2.crc ≠ r.2.crcRx ∧ r.1 = false ∧
          r.2.err = s.err ||| 0x04#8) ∨
        (r.2.fault = false ∧ r.2.crc = crc16Of (destLoad d len r.2) ∧ r.2.crc = r.2.crcRx ∧ r.1 = true ∧
          r.2.err = s.err)) := by
  have hl : ∀ u v : State, u.buf = v.buf → u.csd = v.csd → destLoad d len u = destLoad d len v := by
    intro u v hb hc; cases d <;> simp [destLoad, hb, hc]
  obtain ⟨evs, n, skip, scan, wait, payload, hi, lo, idle, h1, h2, h3, h4, h5, h6, h7, h8, h9, h10, h11, h12, h13, h14⟩ :=
    blockEnd_history cmd arg len d s
  have he : (blockEnd cmd arg len d s).err = s.err ∧ (blockEnd cmd arg len d s).crc = s.crc := by
    rw [blockEnd_frame]; exact ⟨rfl, rfl⟩
  simp only [readBlock_eq]
  generalize blockEnd cmd arg len d s = u at h1 h11 h12 h13 h14 he ⊢
  refine ⟨evs, n, skip, scan, wait, payload, hi, lo, idle, ?_, h2, h3, h4, h5, h6, h7, h8, h9, h10, ?_, ?_, ?_, ?_, ?_⟩ <;>
    rcases blockVerdict_cases len d u with ⟨g, h⟩ | ⟨g, g', h⟩ | ⟨g, g', h⟩ <;> rw [h] <;> try assumption
  · exact .inl ⟨g, rfl, congrArg (· ||| 0x20#8) he.1, he.2⟩
  · exact .inr (.inl ⟨g, congrArg crc16Of (hl _ _ rfl rfl), g', rfl, congrArg (· ||| 0x04#8) he.1⟩)
  · exact .inr (.inr ⟨g, congrArg crc16Of (hl _ _ rfl rfl), g', rfl, he.1⟩)

theorem readBlock_buf (cmd : BitVec 6) (arg : Word) (len : Nat) (d : BlockDest) (s : State) :
    (readBlock cmd arg len d s).2.buf = (blockEnd cmd arg len d s).buf := by
  rw [readBlock_eq]
  rcases blockVerdict_cases len d (blockEnd cmd arg len d s) with ⟨-, h⟩ | ⟨-, -, h⟩ | ⟨-, -, h⟩ <;> rw [h]

theorem blockDrain_buf (len : Nat) (d : BlockDest) (s : State) :
    (blockDrain len d s).buf = if d = .buf then s.buf.store 0 (Bus.answers len s.bus) else s.buf := by
  simp only [blockDrain, Bus.recv_eq]
  cases d <;> simp [destStore]

/-- What a read-block stores into `BUF`: `len` bytes from address 0 on, or nothing. -/
theorem blockEnd_buf (cmd : BitVec 6) (arg : Word) (len : Nat) (d : BlockDest) (s : State) :
    ∃ bytes : List Byte, bytes.length = len ∧
      (blockEnd cmd arg len d s).buf = if d = .buf then s.buf.store 0 bytes else s.buf := by
  refine ⟨Bus.answers len (blockWait Config.startToken (blockScan (blockOpen cmd arg s))).bus,
    Bus.length_answers _ _, ?_⟩
  have h := blockDrain_buf len d (blockWait Config.startToken (blockScan (blockOpen cmd arg s)))
  exact h

theorem readBlock_wf {cmd : BitVec 6} {arg : Word} {len : Nat} {d : BlockDest} {s : State}
    (h : s.buf.wf = true) (hl : len ≤ destSize d) : (readBlock cmd arg len d s).2.buf.wf = true := by
  rw [readBlock_buf]
  obtain ⟨bytes, hb, he⟩ := blockEnd_buf cmd arg len d s
  rw [he]
  cases d with
  | buf =>
    have hs : 0 + bytes.length ≤ Config.sectorSize := by rw [hb, Nat.zero_add]; exact hl
    rw [if_pos rfl]
    exact Memory.wf_store h hs
  | csd => rw [if_neg (by decide)]; exact h

theorem readBlock_inner {cmd : BitVec 6} (arg : Word) (len : Nat) (d : BlockDest) (s : State)
    (h : emitted cmd = true) : Inner s (readBlock cmd arg len d s).2 := by
  have hf := readBlock_frame cmd arg len d s
  obtain ⟨evs, n, h1, h2, -⟩ := blockEnd_trace cmd arg len d s
  refine ⟨?_, ?_, ?_, ?_, ?_, ?_, ?_, ?_, ⟨_, by rw [readBlock_bus]; exact h1, ?_⟩, ?_, ?_, ?_⟩ <;>
    try (rw [hf]; done)
  · intro e he
    simp only [List.mem_append, List.mem_cons, List.not_mem_nil, or_false] at he
    rcases he with ((rfl | rfl) | he) | rfl
    · rfl
    · rfl
    · exact isHost_of_isWait (h2 e he)
    · rfl
  · rw [hf]; exact fun _ => .inr ⟨cmd, arg, h, rfl⟩
  · rw [hf]; exact id
  · intro _
    have hd : (readBlock cmd arg len d s).2.deadline = (blockEnd cmd arg len d s).deadline := by
      rw [readBlock_eq]
      rcases blockVerdict_cases len d (blockEnd cmd arg len d s) with ⟨-, h⟩ | ⟨-, -, h⟩ | ⟨-, -, h⟩ <;> rw [h]
    have hc : (readBlock cmd arg len d s).2.cfg = s.cfg := by rw [hf]
    rw [hd, hc]
    exact blockEnd_deadline cmd arg len d s

/-- A block on the wire (R252 to R256): the payload lands in the destination, the CRC in `CRCRX`, and a fault is seen iff
the response is not zero. -/
theorem blockEnd_listed {cmd : BitVec 6} {arg : Word} {len n : Nat} {d : BlockDest} {s : State}
    {skip payload more : List Byte} {r hi lo : Byte} (hs : skip.length = 6) (hn : n ≤ 15) (hr : r ≠ 0xFF#8)
    (hp : payload.length = len) (hm : s.bus.miso = skip ++ (List.replicate n 0xFF#8 ++
      r :: 0xFE#8 :: (payload ++ hi :: lo :: 0xFF#8 :: more))) :
    (blockEnd cmd arg len d s).fault = (r != 0x00#8) ∧ (blockEnd cmd arg len d s).crcRx = hi ++ lo ∧
      (blockEnd cmd arg len d s).bus.miso = more ∧
      (blockEnd cmd arg len d s).buf = (destStore d payload s).buf ∧
      (blockEnd cmd arg len d s).csd = (destStore d payload s).csd := by
  have h1 : (blockOpen cmd arg s).bus.miso =
      List.replicate n 0xFF#8 ++ r :: 0xFE#8 :: (payload ++ hi :: lo :: 0xFF#8 :: more) := by
    have : (blockOpen cmd arg s).bus =
        ((s.bus.emit .prepare).emit (.cs false)).send (frameBytes cmd arg).toList := rfl
    rw [this, Bus.send_eq]
    simp [Bus.emit, hm, ← hs]
  obtain ⟨h2, h3⟩ := Bus.scan_listed (N := Config.readScanMax) (n := n) (b := (blockOpen cmd arg s).bus) hr
    (by simp only [Config.readScanMax]; omega) h1
  obtain ⟨h4, h5, -⟩ := findToken_first (token := Config.startToken) (us := Config.tokenTimeoutUs)
    (s := blockScan (blockOpen cmd arg s)) h3
  have h6 : Bus.answers len (blockWait Config.startToken (blockScan (blockOpen cmd arg s))).bus = payload :=
    Bus.answers_listed (rest := hi :: lo :: 0xFF#8 :: more) h5 hp
  have h7 : Bus.answers 2 ((blockWait Config.startToken (blockScan (blockOpen cmd arg s))).bus.send
      (List.replicate len Config.fillerByte)) = [hi, lo] := by
    refine Bus.answers_listed (rest := 0xFF#8 :: more) ?_ rfl
    rw [Bus.send_eq]
    have : (blockWait Config.startToken (blockScan (blockOpen cmd arg s))).bus.miso = _ := h5
    simp [this, ← hp]
  have h8 : (blockDrain len d (blockWait Config.startToken (blockScan (blockOpen cmd arg s)))).bus.miso =
      0xFF#8 :: more := by
    rw [blockDrain_bus, Bus.send_eq]
    have : (blockWait Config.startToken (blockScan (blockOpen cmd arg s))).bus.miso = _ := h5
    simp only [this, List.length_replicate, ← hp]
    rw [List.drop_append, List.drop_of_length_le (by omega)]
    simp
  obtain ⟨h9, h10, -⟩ := findToken_first (token := Config.fillerByte) (us := Config.tokenTimeoutUs) h8
  have e : blockDrain len d (blockWait Config.startToken (blockScan (blockOpen cmd arg s))) =
      { destStore d payload (blockWait Config.startToken (blockScan (blockOpen cmd arg s))) with
        crcRx := hi ++ lo
        bus := (blockDrain len d (blockWait Config.startToken (blockScan (blockOpen cmd arg s)))).bus } := by
    simp only [blockDrain, Bus.recv_eq, h6, h7]
    rfl
  refine ⟨?_, ?_, h10, ?_, ?_⟩
  · have : (blockEnd cmd arg len d s).fault = ((blockDrain len d (blockWait Config.startToken (blockScan
        (blockOpen cmd arg s)))).fault || !(findToken Config.fillerByte Config.tokenTimeoutUs (blockDrain len d
          (blockWait Config.startToken (blockScan (blockOpen cmd arg s))))).1) := rfl
    rw [this, h9, blockDrain_frame]
    have : (blockWait Config.startToken (blockScan (blockOpen cmd arg s))).fault =
      ((false || ((blockOpen cmd arg s).bus.scan Config.readScanMax).1 != 0x00#8) ||
        !(findToken Config.startToken Config.tokenTimeoutUs (blockScan (blockOpen cmd arg s))).1) := rfl
    simp [this, h2, h4]
  · have : (blockEnd cmd arg len d s).crcRx = (blockDrain len d (blockWait Config.startToken (blockScan
        (blockOpen cmd arg s)))).crcRx := rfl
    rw [this, e]
  · have : (blockEnd cmd arg len d s).buf = (blockDrain len d (blockWait Config.startToken (blockScan
        (blockOpen cmd arg s)))).buf := rfl
    rw [this, e]
    cases d <;> rfl
  · have : (blockEnd cmd arg len d s).csd = (blockDrain len d (blockWait Config.startToken (blockScan
        (blockOpen cmd arg s)))).csd := rfl
    rw [this, e]
    cases d <;> rfl

end Sys2Proof.Machine
end

