-- ==== Sys2Proof/Laws/Encoding.lean ====
section
/-! SUPPORT. Bytes and words taken apart and put together again, and what the frame decoder makes of an encoded frame and of any
bytes it accepts. -/

namespace Sys2Proof

open Sys2Proof.Machine

theorem wordOfBytes_wordBytes (w : Word) :
    wordOfBytes (w.extractLsb' 24 8) (w.extractLsb' 16 8) (w.extractLsb' 8 8) (w.extractLsb' 0 8) = w := by
  apply BitVec.eq_of_toNat_eq
  have hw := w.isLt
  unfold wordOfBytes
  simp only [BitVec.toNat_append, BitVec.extractLsb'_toNat, Nat.shiftRight_eq_div_pow]
  rw [← Nat.shiftLeft_add_eq_or_of_lt (by omega), ← Nat.shiftLeft_add_eq_or_of_lt (by omega),
    ← Nat.shiftLeft_add_eq_or_of_lt (by omega)]
  simp only [Nat.shiftLeft_eq]
  omega

theorem wordBytes_wordOfBytes (a b c d : Byte) : wordBytes (wordOfBytes a b c d) = [a, b, c, d] := by
  have ha := a.isLt
  have hb := b.isLt
  have hc := c.isLt
  have hd := d.isLt
  have : (wordOfBytes a b c d).toNat = a.toNat * 2 ^ 24 + b.toNat * 2 ^ 16 + c.toNat * 2 ^ 8 + d.toNat := by
    unfold wordOfBytes
    simp only [BitVec.toNat_append]
    rw [← Nat.shiftLeft_add_eq_or_of_lt (by omega), ← Nat.shiftLeft_add_eq_or_of_lt (by omega),
      ← Nat.shiftLeft_add_eq_or_of_lt (by omega)]
    simp only [Nat.shiftLeft_eq]
    omega
  unfold wordBytes
  refine List.cons_eq_cons.2 ⟨?_, List.cons_eq_cons.2 ⟨?_, List.cons_eq_cons.2 ⟨?_, List.cons_eq_cons.2 ⟨?_, rfl⟩⟩⟩⟩ <;>
    apply BitVec.eq_of_toNat_eq <;> simp only [BitVec.extractLsb'_toNat, Nat.shiftRight_eq_div_pow, this] <;> omega

theorem halfOfBytes_halfBytes (h : Half) : halfOfBytes (h.extractLsb' 8 8) (h.extractLsb' 0 8) = h := by
  have := h.isLt
  apply BitVec.eq_of_toNat_eq
  unfold halfOfBytes
  simp only [BitVec.toNat_append, BitVec.extractLsb'_toNat, Nat.shiftRight_eq_div_pow]
  rw [← Nat.shiftLeft_add_eq_or_of_lt (by omega)]
  simp only [Nat.shiftLeft_eq]
  omega

/-- Byte 0 as the builder forms it is byte 0 as the encoding lays it out (R91, R92). -/
theorem frameByte0 : ∀ i : BitVec 6, (0x40#8 ||| i.zeroExtend 8) = (0b01#2 ++ i : BitVec 8) := by decide

theorem frameByte0_fields : ∀ i : BitVec 6,
    (0b01#2 ++ i : BitVec 8).extractLsb' 6 2 = 0b01#2 ∧ (0b01#2 ++ i : BitVec 8).extractLsb' 0 6 = i := by decide

theorem frameByte0_of_start : ∀ b : Byte, b.extractLsb' 6 2 = 0b01#2 → b = (0b01#2 ++ b.extractLsb' 0 6 : BitVec 8) := by
  decide

/-- The stop bit is `crc7`'s bit 0 (R94). -/
theorem stopBit : ∀ c : Byte, (c ||| 1#8).extractLsb' 0 1 = 1#1 ∧
    ((c ||| 1#8).extractLsb' 1 7 ++ 1#1 : BitVec 8) = c ||| 1#8 := by decide

/-- The decoder reads index and argument back from an encoded frame. -/
theorem decode_encodeFrame (index : BitVec 6) (arg : Word) :
    decode .cmd48 (encodeFrame index arg) = decodeCommand index arg := by
  simp only [encodeFrame, wordBytes, crc7Of, List.cons_append, List.nil_append, decode, decodeFrame, (stopBit _).1,
    (stopBit _).2, (frameByte0_fields _).1, (frameByte0_fields _).2, wordOfBytes_wordBytes]
  simp

/-- Whatever decodes as a frame is an encoded frame. -/
theorem decode_frame_ok {bs : List Byte} {i : Instr} (h : decode .cmd48 bs = .ok i) :
    ∃ index arg, bs = encodeFrame index arg ∧ decodeCommand index arg = .ok i := by
  unfold decode at h
  split at h <;> try (simp at h; done)
  · rename_i b0 b1 b2 b3 b4 b5 h5
    unfold decodeFrame at h
    split at h
    · simp at h
    · split at h
      · simp at h
      · split at h
        · simp at h
        · rename_i g1 g2 g3
          simp only [ne_eq, Decidable.not_not] at g1 g2 g3
          refine ⟨_, _, ?_, h⟩
          simp only [encodeFrame, wordBytes_wordOfBytes, crc7Of, (stopBit _).2, ← frameByte0_of_start _ g1,
            List.cons_append, List.nil_append]
          rw [g3]; rfl
  all_goals (rename_i h5; cases h5)

end Sys2Proof
end

