-- ==== Sys2Proof/Laws/Operations.lean ====
section
/-! SUPPORT. What READ, WRITE and DEINIT can do, said once. -/

namespace Sys2Proof.Machine

theorem hasFlag_initialized (s : State) : hasFlag .initialized s = s.flags.getLsbD 0 := by
  have : ∀ b : Byte, (b &&& 0x01#8 != 0#8) = b.getLsbD 0 := by decide
  exact this s.flags

theorem hasFlag_highCapacity (s : State) : hasFlag .highCapacity s = s.flags.getLsbD 1 := by
  have : ∀ b : Byte, (b &&& 0x02#8 != 0#8) = b.getLsbD 1 := by decide
  exact this s.flags

theorem hasFlag_writeProtected (s : State) : hasFlag .writeProtected s = s.flags.getLsbD 2 := by
  have : ∀ b : Byte, (b &&& 0x04#8 != 0#8) = b.getLsbD 2 := by decide
  exact this s.flags

theorem hasFlag_deinitialized (s : State) : hasFlag .deinitialized s = s.flags.getLsbD 3 := by
  have : ∀ b : Byte, (b &&& 0x08#8 != 0#8) = b.getLsbD 3 := by decide
  exact this s.flags

/-! ## READ -/

/-- READ of an initialised block is its read-block and the response that follows from it (R262). -/
theorem readBody_eq {sector : Word} {s : State} (h : hasFlag .initialized s = true) :
    readBody sector s = respond
      (if (readBlock 17 (mapSector sector s) Config.sectorSize .buf { s with arg := mapSector sector s }).1
        then .ok else .fail)
      (readBlock 17 (mapSector sector s) Config.sectorSize .buf { s with arg := mapSector sector s }).2 := by
  unfold readBody; rw [if_pos h]

theorem readBody_closed {sector : Word} {s : State} (h : hasFlag .initialized s = false) :
    readBody sector s = respond .noinit s := by
  unfold readBody; rw [h]; rfl

/-! ## WRITE -/

/-- The state of a WRITE after the window that follows CMD24 (R264, R265). -/
def writeAsked (sector : Word) (s : State) : State := writeCommand (writePrepare sector s)

theorem writeBody_closed {sector : Word} {s : State} (h : hasFlag .initialized s = false) :
    writeBody sector s = respond .noinit s := by
  unfold writeBody; rw [h]; rfl

theorem writeBody_eq {sector : Word} {s : State} (h : hasFlag .initialized s = true) :
    writeBody sector s = if testAnyResponse (writeAsked sector s).rb then writeFinish (writeAsked sector s)
      else raise .writeError (release (writeAsked sector s)) := by
  unfold writeBody; rw [if_pos h]; rfl

theorem writeCommand_frame (s : State) : writeCommand s = { s with
    cs := false
    fb := frameBytes 24 s.arg
    rb := (writeCommand s).rb
    bus := (writeCommand s).bus } := rfl

theorem writeCommand_bus (s : State) : (writeCommand s).bus =
    ((s.bus.emit .prepare).emit (.cs false)).send
      ((frameBytes 24 s.arg).toList ++ List.replicate 8 Config.fillerByte) := by
  unfold writeCommand
  rw [readWindow_bus, Bus.recv_eq, Bus.send_append]
  rfl

theorem writeAsked_bus (sector : Word) (s : State) : (writeAsked sector s).bus =
    ((s.bus.emit .prepare).emit (.cs false)).send
      ((frameBytes 24 (mapSector sector s)).toList ++ List.replicate 8 Config.fillerByte) := by
  unfold writeAsked
  rw [writeCommand_bus]
  simp only [writePrepare]

theorem writeAsked_frame (sector : Word) (s : State) : writeAsked sector s = { s with
    cs := false
    fb := frameBytes 24 (mapSector sector s)
    arg := mapSector sector s
    crc := crc16Of (s.buf.load 0 Config.sectorSize)
    rb := (writeAsked sector s).rb
    bus := (writeAsked sector s).bus } := by
  unfold writeAsked
  rw [writeCommand_frame]
  simp only [writePrepare]

/-- The state of a WRITE after the busy wait and the release (R266, R267). -/
def writeEnd (s : State) : State :=
  release (findToken Config.fillerByte Config.tokenTimeoutUs (readWindow (writeData s))).2

theorem writeFinish_eq (s : State) : writeFinish s =
    if testAccepted (readWindow (writeData s)).rb &&
        (findToken Config.fillerByte Config.tokenTimeoutUs (readWindow (writeData s))).1
      then respond .ok (writeEnd s) else raise .writeError (writeEnd s) := by
  unfold writeFinish writeEnd
  simp only []

theorem writeData_frame (s : State) : writeData s = { s with bus := (writeData s).bus } := by
  unfold writeData
  generalize Config.startToken :: (s.buf.load 0 Config.sectorSize ++ halfBytes s.crc) = bytes
  rfl

theorem readWindow_frame (s : State) : readWindow s = { s with
    rb := (readWindow s).rb
    bus := (readWindow s).bus } := rfl

theorem writeEnd_frame (s : State) : writeEnd s = { s with
    cs := true
    rb := (writeEnd s).rb
    deadline := (writeEnd s).deadline
    bus := (writeEnd s).bus } := by
  have h : ∀ u : State, release (findToken Config.fillerByte Config.tokenTimeoutUs u).2 = { u with
      cs := true
      deadline := (findToken Config.fillerByte Config.tokenTimeoutUs u).2.deadline
      bus := (release (findToken Config.fillerByte Config.tokenTimeoutUs u).2).bus } := fun _ => rfl
  unfold writeEnd
  rw [h, readWindow_frame, writeData_frame]

theorem writeEnd_deadline (s : State) : (writeEnd s).deadline < 2 ^ s.cfg.tickW := by
  have h : ∀ u : State, (release (findToken Config.fillerByte Config.tokenTimeoutUs u).2).deadline <
    2 ^ u.cfg.tickW := fun u => Nat.mod_lt _ (Nat.two_pow_pos _)
  have hc : (readWindow (writeData s)).cfg = s.cfg := by rw [readWindow_frame, writeData_frame]
  rw [← hc]
  exact h _

theorem readWindow_moved (s : State) : Bus.Moved (List.replicate 8 Config.fillerByte) (readWindow s).rb.toList s.bus
    (readWindow s).bus := by
  have := Bus.moved_send (List.replicate 8 Config.fillerByte) s.bus
  rw [readWindow_rb, readWindow_bus, Bus.recv_eq, windowOf_toList (Bus.length_answers _ _)]
  rwa [List.length_replicate] at this

/-- A window whose bytes are the next eight listed answers (41_command.md R153). -/
theorem readWindow_listed {s : State} {w more : List Byte} (hm : s.bus.miso = w ++ more) (hw : w.length = 8) :
    (readWindow s).rb.toList = w ∧ (readWindow s).bus.miso = more := by
  constructor
  · rw [readWindow_rb, Bus.recv_eq, windowOf_toList (Bus.length_answers _ _)]
    exact Bus.answers_listed hm hw
  · rw [readWindow_bus, Bus.recv_eq, Bus.send_eq]
    simp [hm, Config.windowLen, ← hw]

theorem testAnyResponse_iff (rb : Vector Byte 8) : testAnyResponse rb = true ↔ ∃ b ∈ rb.toList, b ≠ 0xFF#8 := by
  unfold testAnyResponse firstResponse
  rw [List.findIdx?_isSome, List.any_eq_true]
  simp only [isResponse, Config.fillerByte, bne_iff_ne]

theorem testAccepted_iff (rb : Vector Byte 8) : testAccepted rb = true ↔ AcceptedWindow rb.toList := by
  have h : ∀ b : Byte, isAccepted b = decide (b.toNat % 32 = 5) := by decide
  have hr : isResponse = fun b : Byte => b != 0xFF#8 := rfl
  unfold testAccepted AcceptedWindow
  rw [hr]
  cases rb.toList.find? (fun b => b != 0xFF#8) <;> simp [h]

/-- What is exchanged after the response to CMD24 (R266, R267): out go the start token, the buffer, the CRC16 high byte
first, eight filler and at least one poll; in come what the data block meets, the window, and the busy wait. -/
theorem writeEnd_history (s : State) : ∃ evs n data idle, (writeEnd s).bus.trace = s.bus.trace ++ evs ++ [.cs true] ∧
    (∀ e ∈ evs, e.isWait = true) ∧ 0 < n ∧
    sentBytes evs = (Config.startToken :: (s.buf.load 0 Config.sectorSize ++ halfBytes s.crc)) ++
      List.replicate (8 + n) Config.fillerByte ∧
    receivedBytes evs = data ++ (readWindow (writeData s)).rb.toList ++ idle ∧ data.length = 515 ∧
    Awaited Config.fillerByte idle ∧
    ((findToken Config.fillerByte Config.tokenTimeoutUs (readWindow (writeData s))).1 = true ↔
      Config.fillerByte ∈ idle) := by
  obtain ⟨data, hd, m1⟩ : ∃ data : List Byte, data.length = 515 ∧ Bus.Moved
      (Config.startToken :: (s.buf.load 0 Config.sectorSize ++ halfBytes s.crc)) data s.bus (writeData s).bus := by
    refine ⟨_, ?_, by unfold writeData; rw [sendBytes_bus]; exact Bus.moved_send _ _⟩
    rw [Bus.length_answers]; simp [halfBytes]
  have m2 := readWindow_moved (writeData s)
  obtain ⟨idle, m3, hi, ht⟩ := findToken_moved Config.fillerByte Config.tokenTimeoutUs (readWindow (writeData s))
  obtain ⟨evs, h1, h2, h3, h4, -⟩ := m1.trans (m2.trans m3)
  refine ⟨evs, idle.length, data, idle, ?_, h2, List.length_pos_of_ne_nil hi.1,
    by rw [h3, List.replicate_append_replicate], by rw [h4, List.append_assoc], hd, hi, ht⟩
  have : (writeEnd s).bus.trace = (findToken Config.fillerByte Config.tokenTimeoutUs
    (readWindow (writeData s))).2.bus.trace ++ [.cs true] := rfl
  rw [this, h1]

theorem writeAsked_moved (sector : Word) (s : State) : ∃ skip : List Byte, skip.length = 6 ∧
    Bus.Moved ((frameBytes 24 (mapSector sector s)).toList ++ List.replicate 8 Config.fillerByte)
      (skip ++ (writeAsked sector s).rb.toList) ((s.bus.emit .prepare).emit (.cs false)) (writeAsked sector s).bus :=
  ⟨_, Bus.length_answers 6 _, (Bus.moved_send _ _).trans (readWindow_moved _)⟩

/-- Everything a WRITE of an initialised block can do (R264 to R268): a state `u` that only the registers of a WRITE and
the bus set apart from `s`, released, and the response on top of it, which follows from the bytes received. -/
theorem writeBody_history {sector : Word} {s : State} (h : hasFlag .initialized s = true) :
    ∃ (u : State) (evs : List Event), u = { s with
        cs := true
        fb := frameBytes 24 (mapSector sector s)
        arg := mapSector sector s
        crc := crc16Of (s.buf.load 0 Config.sectorSize)
        rb := u.rb
        deadline := u.deadline
        bus := u.bus } ∧
      u.bus.trace = s.bus.trace ++ ([.prepare, .cs false] ++ evs ++ [.cs true]) ∧ (∀ e ∈ evs, e.isWait = true) ∧
      (∃ more, sentBytes evs = (frameBytes 24 (mapSector sector s)).toList ++ more) ∧
      (s.deadline < 2 ^ s.cfg.tickW → u.deadline < 2 ^ s.cfg.tickW) ∧
      ∃ skip answer rest, receivedBytes evs = skip ++ answer ++ rest ∧ skip.length = 6 ∧ answer.length = 8 ∧
        ((answer = List.replicate 8 0xFF#8 ∧ rest = [] ∧ writeBody sector s = raise .writeError u) ∨
          ((∃ b ∈ answer, b ≠ 0xFF#8) ∧ ∃ data window idle, rest = data ++ window ++ idle ∧ data.length = 515 ∧
            window.length = 8 ∧ Awaited 0xFF#8 idle ∧
            ((AcceptedWindow window ∧ 0xFF#8 ∈ idle ∧ writeBody sector s = respond .ok u) ∨
              (¬ (AcceptedWindow window ∧ 0xFF#8 ∈ idle) ∧ writeBody sector s = raise .writeError u)))) := by
  rw [writeBody_eq h]
  have hw := writeAsked_frame sector s
  obtain ⟨skip, hs, evs0, t1, t2, t3, t4, -⟩ := writeAsked_moved sector s
  have ht : (writeAsked sector s).bus.trace = s.bus.trace ++ ([.prepare, .cs false] ++ evs0) := by
    rw [t1]; simp [Bus.emit]
  have ha := testAnyResponse_iff (writeAsked sector s).rb
  by_cases hr : testAnyResponse (writeAsked sector s).rb = true
  · rw [if_pos hr, writeFinish_eq]
    obtain ⟨evs, n, data, idle, h1, h2, -, h4, h5, h6, h7, h8⟩ := writeEnd_history (writeAsked sector s)
    have hacc := testAccepted_iff (readWindow (writeData (writeAsked sector s))).rb
    refine ⟨writeEnd (writeAsked sector s), evs0 ++ evs, by rw [writeEnd_frame, hw],
      by rw [h1, ht]; simp only [List.append_assoc], ?_, ?_, ?_, skip, _, _,
      by rw [receivedBytes_append, t4, h5], hs, Vector.length_toList, .inr ⟨ha.1 hr, data, _, idle, rfl, h6,
        Vector.length_toList, h7, ?_⟩⟩
    · intro e he
      rcases List.mem_append.1 he with he | he
      · exact t2 e he
      · exact h2 e he
    · rw [sentBytes_append, t3]; exact ⟨_, by rw [List.append_assoc]⟩
    · intro _
      have hc : (writeAsked sector s).cfg = s.cfg := by rw [hw]
      rw [← hc]
      exact writeEnd_deadline _
    · split
      · rename_i hb
        rw [Bool.and_eq_true, hacc, h8] at hb
        exact .inl ⟨hb.1, hb.2, rfl⟩
      · rename_i hb
        rw [Bool.and_eq_true, hacc, h8] at hb
        exact .inr ⟨hb, rfl⟩
  · rw [if_neg hr]
    refine ⟨release (writeAsked sector s), evs0, ?_, ?_, t2, ⟨_, t3⟩, fun h => h, skip, (writeAsked sector s).rb.toList, [],
      by rw [t4, List.append_nil], hs, Vector.length_toList, .inl ⟨?_, rfl, rfl⟩⟩
    · have hr : ∀ u : State, release u = { u with cs := true, bus := (release u).bus } := fun _ => rfl
      rw [hr, hw]
    · show (writeAsked sector s).bus.trace ++ _ = _
      rw [ht]; simp only [List.append_assoc]
    · rw [ha] at hr
      refine List.eq_replicate_iff.2 ⟨Vector.length_toList, fun b hb => ?_⟩
      exact Decidable.byContradiction fun hn => hr ⟨b, hb, hn⟩

/-- Everything a WRITE of an initialised block can end in, without the bytes received. -/
theorem writeBody_cases {sector : Word} {s : State} (h : hasFlag .initialized s = true) :
    ∃ (u : State) (evs : List Event), u = { s with
        cs := true
        fb := frameBytes 24 (mapSector sector s)
        arg := mapSector sector s
        crc := crc16Of (s.buf.load 0 Config.sectorSize)
        rb := u.rb
        deadline := u.deadline
        bus := u.bus } ∧
      u.bus.trace = s.bus.trace ++ ([.prepare, .cs false] ++ evs ++ [.cs true]) ∧ (∀ e ∈ evs, e.isWait = true) ∧
      (∃ more, sentBytes evs = (frameBytes 24 (mapSector sector s)).toList ++ more) ∧
      (s.deadline < 2 ^ s.cfg.tickW → u.deadline < 2 ^ s.cfg.tickW) ∧
      (writeBody sector s = respond .ok u ∨ writeBody sector s = raise .writeError u) := by
  obtain ⟨u, evs, h1, h2, h3, h4, h5, _, _, _, -, -, -, h6⟩ := writeBody_history (sector := sector) h
  refine ⟨u, evs, h1, h2, h3, h4, h5, ?_⟩
  rcases h6 with ⟨-, -, h⟩ | ⟨-, _, _, _, -, -, -, -, ⟨-, -, h⟩ | ⟨-, h⟩⟩
  · exact .inr h
  · exact .inl h
  · exact .inr h

/-! ## DEINIT -/

theorem deinitBody_latched {s : State} (h : hasFlag .deinitialized s = true) : deinitBody s = respond .ok s := by
  unfold deinitBody; rw [if_pos h]

theorem deinitBody_eq {s : State} (h : hasFlag .deinitialized s = false) : deinitBody s =
    respond .ok (setFlag .deinitialized (sendCommand 59 argCrcOff CmdFlags.none
      (sendCommand 0 argNone CmdFlags.none s).2).2) := by
  unfold deinitBody; rw [h]; rfl

end Sys2Proof.Machine
end

