-- ==== Sys2Proof/Laws/Init.lean ====
section
/-! SUPPORT. What each step of INIT, and INIT as a whole, can do, said once. -/

namespace Sys2Proof.Machine

/-! ## The retry loops of INIT -/

/-- What a retry loop with a budget above zero leaves: only the registers of `send_command` and `ATT` moved, deselected,
its frame in `FB`; its outcome is the verdict on the last response, and a failure has used the budget up. -/
structure Tried (cmd : BitVec 6) (arg : Word) (ok : Byte → State → Bool) (m : Byte) (s : State) (r : Bool × State) :
    Prop where
  frame : r.2 = { s with fb := frameBytes cmd arg, arg := arg, cs := true, rb := r.2.rb, att := r.2.att, bus := r.2.bus }
  inner : emitted cmd = true → m.toNat ≤ 250 → Inner s r.2
  verdict : ok r.2.rb[0] r.2 = r.1
  failure : r.1 = false → r.2.att = m

theorem tried_attempts (cmd : BitVec 6) (arg : Word) (fl : CmdFlags) (ok : Byte → State → Bool) (m : Byte) (s : State)
    (hm : 0 < m.toNat) : Tried cmd arg ok m s (attempts cmd arg fl ok m.toNat { s with att := 0#8 }) := by
  have hl := m.isLt
  obtain ⟨k, evs, -, -, h3, -, -, h6, -⟩ := attempts_counts cmd arg fl ok m.toNat { s with att := 0#8 } (by simp; omega)
  obtain ⟨l1, l2, l3⟩ := attempts_last cmd arg fl ok m.toNat { s with att := 0#8 } hm
  have hc := attempts_cs cmd arg fl ok { s with att := 0#8 } hm
  have hf := attempts_frame cmd arg fl ok m.toNat { s with att := 0#8 }
  refine ⟨?_, ?_, l3, ?_⟩
  · generalize attempts cmd arg fl ok m.toNat { s with att := 0#8 } = r at hf hc l1 l2
    rw [hf, hc, l1, l2]
  · intro he hb
    have := attempts_inner arg fl ok m.toNat { s with att := 0#8 } he (by simpa using hb)
    exact ⟨this.flags, this.seq, this.rate, this.ver, this.rsp, this.cfg, this.ret, this.host, this.trace, this.frame,
      fun _ => this.attempt (by simp), this.tick⟩
  · intro hr
    have h0 : (0#8).toNat = 0 := rfl
    apply BitVec.eq_of_toNat_eq
    rw [h3, h6 hr, h0, Nat.zero_add]

theorem tried_checkCommand (cmd : BitVec 6) (arg : Word) (fl : CmdFlags) (expected m : Byte) (s : State)
    (hm : 0 < m.toNat) :
    Tried cmd arg (fun r _ => compareResponse fl expected r) m s (checkCommand cmd arg fl expected m s) :=
  tried_attempts cmd arg fl _ m s hm

/-! ## The ends of a step -/

/-- How a step of INIT can end, beside its own registers: it goes on, with `SEQ`, `ERR` and the last response as they
were; or INIT has failed, `mask` in `ERR`. -/
structure Stepped (s t : State) : Prop where
  cs : t.cs = true
  buf : t.buf = s.buf
  cfg : t.cfg = s.cfg
  host : t.host = s.host
  ret : t.ret = s.ret
  frame : FrameRegister s.fb → FrameRegister t.fb
  attempt : s.att.toNat ≤ 250 → t.att.toNat ≤ 250
  tick : s.deadline < 2 ^ s.cfg.tickW → t.deadline < 2 ^ t.cfg.tickW

/-- What happened at the bus in a step: nothing at the host's port but, where INIT ends, its response. -/
def Quiet (s t : State) (tail : List Event) : Prop :=
  ∃ evs, t.bus.trace = s.bus.trace ++ evs ++ tail ∧ ∀ e ∈ evs, e.isHost = false

theorem Inner.quiet {s t : State} (h : Inner s t) : Quiet s t [] := by
  obtain ⟨evs, h1, h2⟩ := h.trace
  exact ⟨evs, by simpa using h1, h2⟩

theorem Quiet.respond {s t : State} (h : Quiet s t []) (st : Status) : Quiet s (respond st t) [.rsp st] := by
  obtain ⟨evs, h1, h2⟩ := h
  exact ⟨evs, by simp [Machine.respond, Bus.emit, h1], h2⟩

theorem Tried.stepped {cmd : BitVec 6} {arg : Word} {ok : Byte → State → Bool} {m : Byte} {s : State} {r : Bool × State}
    (h : Tried cmd arg ok m s r) (he : emitted cmd = true) (hm : m.toNat ≤ 250) : Stepped s r.2 := by
  have hi := h.inner he hm
  exact ⟨by rw [h.frame], by rw [h.frame], hi.cfg, hi.host, hi.ret, hi.frame, hi.attempt, hi.tick⟩

theorem Stepped.respond {s t : State} (h : Stepped s t) (st : Status) : Stepped s (respond st t) :=
  ⟨h.cs, h.buf, h.cfg, h.host, h.ret, h.frame, h.attempt, h.tick⟩

theorem Stepped.trans {s t u : State} (h : Stepped s t) (k : Stepped t u) : Stepped s u :=
  ⟨k.cs, k.buf.trans h.buf, k.cfg.trans h.cfg, k.host.trans h.host, k.ret.trans h.ret, k.frame ∘ h.frame,
    k.attempt ∘ h.attempt, k.tick ∘ h.tick⟩

/-- A step of INIT that goes on. -/
structure WentOn (k : InitStep) (s t : State) : Prop where
  stepped : Stepped s t
  quiet : Quiet s t []
  seq : t.seq = s.seq
  err : t.err = s.err
  rsp : t.rsp = s.rsp
  rate : t.rate = if k = .powerUp then .init else s.rate
  flags : t.flags = s.flags ∨ (k = .capacity ∧ t.flags = s.flags ||| 0x02#8)
  ver : if k = .ifCond then t.ver = 1#2 ∨ t.ver = 2#2 else t.ver = s.ver
  csd : if k = .writeProtect then testWriteProtect t.csd = false else t.csd = s.csd
  notLast : k ≠ .commit

/-- The cause a failing step records, where it records one of its own (R301). -/
def stepMasks : InitStep → List Byte
  | .powerUp => []
  | .goIdle => [0x01#8]
  | .ifCond => [0x02#8]
  | .crcOn => [0x04#8]
  | .voltage => [0x10#8]
  | .opCond => [0x08#8]
  | .capacity => [0x10#8]
  | .blockLen => [0x80#8]
  | .writeProtect => [0x20#8, 0x04#8]
  | .commit => []

/-- A step of INIT at which INIT ends. -/
structure Ended (k : InitStep) (s t : State) (st : Status) : Prop where
  stepped : Stepped s t
  quiet : Quiet s t [.rsp st]
  seq : t.seq = []
  rsp : t.rsp = some st
  ver : t.ver = s.ver
  cause : (k = .commit ∧ st = .ok ∧ t.flags = s.flags ||| 0x01#8 ∧ t.err = s.err ∧ t.rate = .fast ∧ t.csd = s.csd) ∨
    (st = .fail ∧ t.flags = s.flags ∧ (∃ m ∈ stepMasks k, t.err = s.err ||| m) ∧ t.rate = s.rate) ∨
    (k = .writeProtect ∧ st = .fail ∧ t.flags = s.flags ||| 0x04#8 ∧ t.err = s.err ∧ t.rate = s.rate ∧
      testWriteProtect t.csd = true)

theorem Stepped.refl {s : State} (h : s.cs = true) : Stepped s s := ⟨h, rfl, rfl, rfl, rfl, id, id, id⟩

theorem Quiet.refl (s : State) : Quiet s s [] := ⟨[], by simp, by simp⟩

theorem Tried.wentOn {cmd : BitVec 6} {arg : Word} {ok : Byte → State → Bool} {m : Byte} {s : State} {r : Bool × State}
    {k : InitStep} (h : Tried cmd arg ok m s r) (he : emitted cmd = true) (hm : m.toNat ≤ 250) (h1 : k ≠ .powerUp)
    (h2 : k ≠ .ifCond) (h3 : k ≠ .writeProtect) (h4 : k ≠ .commit) : WentOn k s r.2 := by
  have hi := h.inner he hm
  refine ⟨h.stepped he hm, hi.quiet, hi.seq, by rw [h.frame], hi.rsp, ?_, .inl hi.flags, ?_, ?_, h4⟩
  · rw [if_neg h1]; exact hi.rate
  · rw [if_neg h2]; exact hi.ver
  · rw [if_neg h3]; rw [h.frame]

theorem Tried.ended {cmd : BitVec 6} {arg : Word} {ok : Byte → State → Bool} {m : Byte} {s : State} {r : Bool × State}
    {k : InitStep} {c : Cause} (h : Tried cmd arg ok m s r) (he : emitted cmd = true) (hm : m.toNat ≤ 250)
    (hc : c.mask ∈ stepMasks k) : Ended k s (raise c r.2) .fail := by
  have hi := h.inner he hm
  have hs := h.stepped he hm
  have hq : Quiet s (orErr c r.2) [] := hi.quiet
  refine ⟨⟨hs.cs, hs.buf, hs.cfg, hs.host, hs.ret, hs.frame, hs.attempt, hs.tick⟩, hq.respond .fail, rfl, rfl, hi.ver,
    .inr (.inl ⟨rfl, hi.flags, ⟨_, hc, ?_⟩, hi.rate⟩)⟩
  have : r.2.err = s.err := by rw [h.frame]
  show r.2.err ||| _ = _
  rw [this]

theorem orRaise_cases {cmd : BitVec 6} {arg : Word} {ok : Byte → State → Bool} {m : Byte} {s : State} {r : Bool × State}
    {k : InitStep} {c : Cause} (h : Tried cmd arg ok m s r) (he : emitted cmd = true) (hm : m.toNat ≤ 250)
    (hc : c.mask ∈ stepMasks k) (h1 : k ≠ .powerUp) (h2 : k ≠ .ifCond) (h3 : k ≠ .writeProtect) (h4 : k ≠ .commit) :
    (∃ t, orRaise c r = .go t ∧ WentOn k s t) ∨ (∃ t, orRaise c r = .done t ∧ Ended k s t .fail) := by
  unfold orRaise
  split
  · exact .inl ⟨_, rfl, h.wentOn he hm h1 h2 h3 h4⟩
  · exact .inr ⟨_, rfl, h.ended he hm hc⟩

theorem initPowerUp_cases (s : State) : ∃ t, initPowerUp s = .go t ∧ WentOn .powerUp s t := by
  refine ⟨_, rfl, ⟨rfl, rfl, rfl, rfl, rfl, id, id, id⟩, ?_, rfl, rfl, rfl, rfl, .inl rfl, rfl, rfl, by decide⟩
  refine ⟨[.configure s.cfg.spiBus s.cfg.spiMode, .setRate .init, .delay 1000] ++
    List.zipWith Event.xfer (List.replicate 10 Config.fillerByte) (Bus.answers 10 (delay Config.powerupWaitUs
      (setRate .init (configure s))).bus), ?_, ?_⟩
  · have : (skipBytes Config.powerupBytes (delay Config.powerupWaitUs (setRate .init (configure s)))).bus =
        (delay Config.powerupWaitUs (setRate .init (configure s))).bus.send
          (List.replicate 10 Config.fillerByte) := rfl
    rw [this, Bus.send_eq]
    simp [delay, setRate, configure, emit, Bus.emit]
  · intro e he
    rcases List.mem_append.1 he with he | he
    · simp only [List.mem_cons, List.not_mem_nil, or_false] at he
      rcases he with rfl | rfl | rfl <;> rfl
    · exact zipWith_xfer_not_host _ _ e he

theorem Stepped.setVer {s t : State} (h : Stepped s t) (v : BitVec 2) : Stepped s { t with ver := v } :=
  ⟨h.cs, h.buf, h.cfg, h.host, h.ret, h.frame, h.attempt, h.tick⟩

theorem Quiet.setVer {s t : State} (h : Quiet s t []) (v : BitVec 2) : Quiet s { t with ver := v } [] := h

theorem initIfCond_cases (s : State) : (∃ t, initIfCond s = .go t ∧ WentOn .ifCond s t) ∨
    (∃ t, initIfCond s = .done t ∧ Ended .ifCond s t .fail) := by
  have h := tried_checkCommand 8 s.cfg.ifCondArg { appCmd := false, fullResponse := true, notExpect := true } 0xFF#8
    Config.attIfCond s (by decide)
  unfold initIfCond
  simp only []
  generalize checkCommand 8 s.cfg.ifCondArg { appCmd := false, fullResponse := true, notExpect := true } 0xFF#8
    Config.attIfCond s = r at h ⊢
  have hi := h.inner (by decide) (by decide)
  have hs := h.stepped (by decide) (by decide)
  have he : r.2.err = s.err := by rw [h.frame]
  have hc : r.2.csd = s.csd := by rw [h.frame]
  have fail := Tried.ended (k := .ifCond) (c := .ifCondMismatch) h (by decide) (by decide) (by decide)
  have on : ∀ v : BitVec 2, v = 1#2 ∨ v = 2#2 → WentOn .ifCond s { r.2 with ver := v } := fun v hv =>
    ⟨hs.setVer v, hi.quiet.setVer v, hi.seq, he, hi.rsp, hi.rate, .inl hi.flags, hv, hc, by decide⟩
  split
  · unfold classify
    split
    · exact .inl ⟨_, rfl, on _ (.inl rfl)⟩
    · split
      · exact .inl ⟨_, rfl, on _ (.inr rfl)⟩
      · exact .inr ⟨_, rfl, fail⟩
  · exact .inr ⟨_, rfl, fail⟩

theorem Stepped.setFlag {s t : State} (h : Stepped s t) (f : Flag) : Stepped s (setFlag f t) :=
  ⟨h.cs, h.buf, h.cfg, h.host, h.ret, h.frame, h.attempt, h.tick⟩

theorem Quiet.setFlag {s t : State} (h : Quiet s t []) (f : Flag) : Quiet s (setFlag f t) [] := h

theorem initCapacity_cases (s : State) (hcs : s.cs = true) : (∃ t, initCapacity s = .go t ∧ WentOn .capacity s t) ∨
    (∃ t, initCapacity s = .done t ∧ Ended .capacity s t .fail) := by
  have h := tried_checkCommand 58 argNone { appCmd := false, fullResponse := true, notExpect := false } 0x00#8
    Config.attCapacity s (by decide)
  unfold initCapacity
  simp only []
  generalize checkCommand 58 argNone { appCmd := false, fullResponse := true, notExpect := false } 0x00#8
    Config.attCapacity s = r at h ⊢
  have hi := h.inner (by decide) (by decide)
  have hs := h.stepped (by decide) (by decide)
  have hw := Tried.wentOn (k := .capacity) h (by decide) (by decide) (by decide) (by decide) (by decide) (by decide)
  have fail := Tried.ended (k := .capacity) (c := .ocrError) h (by decide) (by decide) (by decide)
  split
  · split
    · refine .inl ⟨_, rfl, ?_⟩
      unfold noteCapacity
      split
      · exact ⟨hs.setFlag _, hi.quiet.setFlag _, hw.seq, hw.err, hw.rsp, hw.rate,
          .inr ⟨rfl, congrArg (· ||| 0x02#8) hi.flags⟩, hw.ver, hw.csd, by decide⟩
      · exact hw
    · exact .inr ⟨_, rfl, fail⟩
  · exact .inl ⟨_, rfl, Stepped.refl hcs, Quiet.refl s, rfl, rfl, rfl, rfl, .inl rfl, rfl, rfl, by decide⟩

/-- What a read-block into `CSD` does that INIT step 9 relies on. -/
theorem readCsd_cases (s : State) : Stepped s (readBlock 9 argNone Config.csdSize .csd s).2 ∧
    (((readBlock 9 argNone Config.csdSize .csd s).1 = true ∧
        (readBlock 9 argNone Config.csdSize .csd s).2.err = s.err) ∨
      ((readBlock 9 argNone Config.csdSize .csd s).1 = false ∧
        ∃ m ∈ stepMasks .writeProtect, (readBlock 9 argNone Config.csdSize .csd s).2.err = s.err ||| m)) := by
  have hi := readBlock_inner (cmd := 9) argNone Config.csdSize .csd s (by decide)
  have hcs : (readBlock 9 argNone Config.csdSize .csd s).2.cs = true := by rw [readBlock_frame]
  have hb : (readBlock 9 argNone Config.csdSize .csd s).2.buf = s.buf := by
    rw [readBlock_buf]
    obtain ⟨bytes, -, he⟩ := blockEnd_buf 9 argNone Config.csdSize .csd s
    rw [he, if_neg (by decide)]
  have hend : (blockEnd 9 argNone Config.csdSize .csd s).err = s.err := by rw [blockEnd_frame]
  refine ⟨⟨hcs, hb, hi.cfg, hi.host, hi.ret, hi.frame, hi.attempt, hi.tick⟩, ?_⟩
  rw [readBlock_eq]
  generalize blockEnd 9 argNone Config.csdSize .csd s = u at hend ⊢
  rcases blockVerdict_cases Config.csdSize .csd u with ⟨-, h⟩ | ⟨-, -, h⟩ | ⟨-, -, h⟩ <;> rw [h]
  · exact .inr ⟨rfl, 0x20#8, by simp [stepMasks], congrArg (· ||| 0x20#8) hend⟩
  · exact .inr ⟨rfl, 0x04#8, by simp [stepMasks], congrArg (· ||| 0x04#8) hend⟩
  · exact .inl ⟨rfl, hend⟩

theorem initWriteProtect_cases (s : State) : (∃ t, initWriteProtect s = .go t ∧ WentOn .writeProtect s t) ∨
    (∃ t, initWriteProtect s = .done t ∧ Ended .writeProtect s t .fail) := by
  obtain ⟨hs, hv⟩ := readCsd_cases s
  have hi := readBlock_inner (cmd := 9) argNone Config.csdSize .csd s (by decide)
  unfold initWriteProtect
  simp only []
  generalize readBlock 9 argNone Config.csdSize .csd s = r at hi hs hv ⊢
  rcases hv with ⟨h1, h2⟩ | ⟨h1, m, hm, h2⟩
  · rw [if_pos h1]
    by_cases hp : testWriteProtect r.2.csd = true
    · rw [if_pos hp]
      exact .inr ⟨_, rfl, (hs.setFlag _).respond _, (hi.quiet.setFlag _).respond _, rfl, rfl, hi.ver,
        .inr (.inr ⟨rfl, rfl, congrArg (· ||| 0x04#8) hi.flags, h2, hi.rate, hp⟩)⟩
    · rw [if_neg hp]
      exact .inl ⟨_, rfl, hs, hi.quiet, hi.seq, h2, hi.rsp, hi.rate, .inl hi.flags, hi.ver, by simpa using hp, by decide⟩
  · rw [h1]
    exact .inr ⟨_, rfl, hs.respond .fail, hi.quiet.respond .fail, rfl, rfl, hi.ver,
      .inr (.inl ⟨rfl, hi.flags, ⟨m, hm, h2⟩, hi.rate⟩)⟩

theorem initCommit_cases (s : State) (hcs : s.cs = true) : ∃ t, initCommit s = .done t ∧ Ended .commit s t .ok := by
  have hq : Quiet s (setRate .fast (setFlag .initialized s)) [] :=
    ⟨[.setRate .fast], by simp [setRate, Machine.setFlag, Bus.emit], by simp [Event.isHost]⟩
  exact ⟨_, rfl, ⟨hcs, rfl, rfl, rfl, rfl, id, id, id⟩, hq.respond .ok, rfl, rfl, rfl,
    .inl ⟨rfl, rfl, rfl, rfl, rfl, rfl⟩⟩

theorem initOpCond_cases (s : State) : (∃ t, initOpCond s = .go t ∧ WentOn .opCond s t) ∨
    (∃ t, initOpCond s = .done t ∧ Ended .opCond s t .fail) := by
  unfold initOpCond
  split
  · exact orRaise_cases (tried_checkCommand _ _ _ _ _ _ (by decide)) (by decide) (by decide) (by decide) (by decide)
      (by decide) (by decide) (by decide)
  · exact orRaise_cases (tried_checkCommand _ _ _ _ _ _ (by decide)) (by decide) (by decide) (by decide) (by decide)
      (by decide) (by decide) (by decide)

/-- Every step of INIT goes on or ends INIT. -/
theorem initStep_cases (k : InitStep) (s : State) (hcs : k ≠ .powerUp → s.cs = true) :
    (∃ t, initStep k s = .go t ∧ WentOn k s t) ∨ (∃ t st, initStep k s = .done t ∧ Ended k s t st) := by
  have close : ∀ {e : StepEnd}, ((∃ t, e = .go t ∧ WentOn k s t) ∨ (∃ t, e = .done t ∧ Ended k s t .fail)) →
      (∃ t, e = .go t ∧ WentOn k s t) ∨ (∃ t st, e = .done t ∧ Ended k s t st) := by
    rintro e (h | ⟨t, h1, h2⟩)
    · exact .inl h
    · exact .inr ⟨t, _, h1, h2⟩
  cases k with
  | powerUp => exact .inl (initPowerUp_cases s)
  | goIdle =>
    exact close (orRaise_cases (tried_checkCommand _ _ _ _ _ _ (by decide)) (by decide) (by decide) (by decide) (by decide)
      (by decide) (by decide) (by decide))
  | ifCond => exact close (initIfCond_cases s)
  | crcOn =>
    exact close (orRaise_cases (tried_checkCommand _ _ _ _ _ _ (by decide)) (by decide) (by decide) (by decide) (by decide)
      (by decide) (by decide) (by decide))
  | voltage =>
    exact close (orRaise_cases (tried_attempts _ _ _ _ _ _ (by decide)) (by decide) (by decide) (by decide) (by decide)
      (by decide) (by decide) (by decide))
  | opCond => exact close (initOpCond_cases s)
  | capacity => exact close (initCapacity_cases s (hcs (by decide)))
  | blockLen =>
    exact close (orRaise_cases (tried_checkCommand _ _ _ _ _ _ (by decide)) (by decide) (by decide) (by decide) (by decide)
      (by decide) (by decide) (by decide))
  | writeProtect => exact close (initWriteProtect_cases s)
  | commit =>
    obtain ⟨t, h1, h2⟩ := initCommit_cases s (hcs (by decide))
    exact .inr ⟨t, _, h1, h2⟩

/-! ## The whole of INIT -/

theorem runInit_cons (k : InitStep) (ks : List InitStep) (s : State) : runInit (k :: ks) s =
    match initStep k { s with seq := ks.map .init } with
    | .go t => runInit ks t
    | .done t => t := rfl

/-- From the second step on: INIT ends, with everything `Ended` says of the step at which it does and nothing but
`high_capacity`, `VER` and the data-path registers moved before it. -/
structure InitEnd (s t : State) (st : Status) : Prop where
  stepped : Stepped s t
  quiet : Quiet s t [.rsp st]
  seq : t.seq = []
  rsp : t.rsp = some st
  ver : t.ver = s.ver ∨ t.ver = 1#2 ∨ t.ver = 2#2
  cause :
    (st = .ok ∧ (t.flags = s.flags ||| 0x01#8 ∨ t.flags = s.flags ||| 0x03#8) ∧ t.err = s.err ∧ t.rate = .fast) ∨
    (st = .fail ∧ (t.flags = s.flags ∨ t.flags = s.flags ||| 0x02#8) ∧
      (∃ m ∈ [0x01#8, 0x02#8, 0x04#8, 0x08#8, 0x10#8, 0x20#8, 0x80#8], t.err = s.err ||| m) ∧ t.rate = s.rate) ∨
    (st = .fail ∧ (t.flags = s.flags ||| 0x04#8 ∨ t.flags = s.flags ||| 0x06#8) ∧ t.err = s.err ∧ t.rate = s.rate ∧
      testWriteProtect t.csd = true)

theorem stepMasks_sub (k : InitStep) : ∀ m ∈ stepMasks k, m ∈ [0x01#8, 0x02#8, 0x04#8, 0x08#8, 0x10#8, 0x20#8, 0x80#8] := by
  cases k <;> decide

theorem Quiet.trans {s t u : State} {tail : List Event} (h : Quiet s t []) (k : Quiet t u tail) : Quiet s u tail := by
  obtain ⟨e1, h1, n1⟩ := h
  obtain ⟨e2, h2, n2⟩ := k
  refine ⟨e1 ++ e2, by rw [h2, h1]; simp, ?_⟩
  intro e he
  rcases List.mem_append.1 he with he | he
  · exact n1 e he
  · exact n2 e he

theorem Ended.initEnd {k : InitStep} {s t : State} {st : Status} (h : Ended k s t st) : InitEnd s t st := by
  refine ⟨h.stepped, h.quiet, h.seq, h.rsp, .inl h.ver, ?_⟩
  rcases h.cause with ⟨-, a, b, c, d, -⟩ | ⟨a, b, ⟨m, hm, c⟩, d⟩ | ⟨-, a, b, c, d, e⟩
  · exact .inl ⟨a, .inl b, c, d⟩
  · exact .inr (.inl ⟨a, .inl b, ⟨m, stepMasks_sub k m hm, c⟩, d⟩)
  · exact .inr (.inr ⟨a, .inl b, c, d, e⟩)

/-- A step that goes on, in front of the rest of INIT. `capacity` runs once, so the rest starts from at most one more
bit of `FLAGS`. -/
theorem WentOn.initEnd {k : InitStep} {s t u : State} {st : Status} (h : WentOn k s t) (hk : k ≠ .powerUp)
    (e : InitEnd t u st) : InitEnd s u st := by
  have hr : t.rate = s.rate := by rw [h.rate, if_neg hk]
  have hv : u.ver = s.ver ∨ u.ver = 1#2 ∨ u.ver = 2#2 := by
    rcases e.ver with hv | hv
    · have := h.ver
      split at this
      · rw [hv]; exact .inr this
      · rw [hv]; exact .inl this
    · exact .inr hv
  refine ⟨h.stepped.trans e.stepped, h.quiet.trans e.quiet, e.seq, e.rsp, hv, ?_⟩
  have or1 : ∀ f : Byte, f ||| 0x02#8 ||| 0x01#8 = f ||| 0x03#8 := by decide
  have or2 : ∀ f : Byte, f ||| 0x02#8 ||| 0x03#8 = f ||| 0x03#8 := by decide
  have or3 : ∀ f : Byte, f ||| 0x02#8 ||| 0x02#8 = f ||| 0x02#8 := by decide
  have or4 : ∀ f : Byte, f ||| 0x02#8 ||| 0x04#8 = f ||| 0x06#8 := by decide
  have or5 : ∀ f : Byte, f ||| 0x02#8 ||| 0x06#8 = f ||| 0x06#8 := by decide
  have hc := e.cause
  rw [h.err, hr] at hc
  rcases h.flags with hf | ⟨-, hf⟩
  · rw [hf] at hc; exact hc
  · rw [hf, or1, or2, or3, or4, or5] at hc
    rcases hc with ⟨a, b, c⟩ | ⟨a, b, c⟩ | ⟨a, b, c⟩
    · exact .inl ⟨a, .inr (b.elim id id), c⟩
    · exact .inr (.inl ⟨a, .inr (b.elim id id), c⟩)
    · exact .inr (.inr ⟨a, .inr (b.elim id id), c⟩)

theorem withSeq_stepped {s t : State} {q : List Point} (h : InitEnd { s with seq := q } t st) : InitEnd s t st :=
  ⟨⟨h.stepped.cs, h.stepped.buf, h.stepped.cfg, h.stepped.host, h.stepped.ret, h.stepped.frame, h.stepped.attempt,
    h.stepped.tick⟩, h.quiet, h.seq, h.rsp, h.ver, h.cause⟩

/-- Steps of INIT that end with `commit` and do not start over always end INIT. -/
theorem runInit_end (ks : List InitStep) (hp : .powerUp ∉ ks) (s : State) (hcs : s.cs = true) :
    ∃ st, InitEnd s (runInit (ks ++ [.commit]) s) st := by
  induction ks generalizing s with
  | nil =>
    obtain ⟨t, h1, h2⟩ := initCommit_cases { s with seq := [] } hcs
    refine ⟨.ok, withSeq_stepped (q := []) ?_⟩
    have : runInit ([] ++ [.commit]) s = t := by
      rw [List.nil_append, runInit_cons]
      have : initStep .commit { s with seq := List.map Point.init [] } = .done t := h1
      rw [this]
    rw [this]
    exact h2.initEnd
  | cons k ks ih =>
    simp only [List.mem_cons, not_or] at hp
    rw [List.cons_append, runInit_cons]
    rcases initStep_cases k { s with seq := (ks ++ [InitStep.commit]).map Point.init } (fun _ => hcs) with
      ⟨t, h1, h2⟩ | ⟨t, st, h1, h2⟩
    · obtain ⟨st, h3⟩ := ih hp.2 t h2.stepped.cs
      rw [h1]
      exact ⟨st, withSeq_stepped (h2.initEnd (fun h => hp.1 h.symm) h3)⟩
    · rw [h1]
      exact ⟨st, withSeq_stepped h2.initEnd⟩

end Sys2Proof.Machine
end

