-- ==== Sys2Proof/Laws/PerInstr.lean ====
section
/-! SUPPORT. Statements made once per instruction: the bytes an instruction is encoded in are as many as its format has
(30_encoding.md R90). -/

namespace Sys2Proof.Laws.EncodedLength

/-- The number of bytes of an instruction in a format (R90, R100; the data block's row is its token alone). -/
def size : Format → Nat
  | .cmd48 => 6
  | .hreq => 5
  | .r0 => 1
  | .dblk => 1
  | .drsp => 1
  | .hrsp => 1
  | .byte => 1

/-- An encoding has its format's number of bytes. -/
def Statement (i : Instr) : Prop := ∀ f bs, encode i = some (f, bs) → bs.length = size f

theorem of_some {i : Instr} {f : Format} {bs : List Byte} (h : encode i = some (f, bs)) (hl : bs.length = size f) :
    Statement i := by
  intro g cs hg
  obtain ⟨rfl, rfl⟩ := Prod.mk.inj (Option.some.inj (h.symm.trans hg))
  exact hl

theorem of_none {i : Instr} (h : encode i = none) : Statement i := by
  intro f bs hf
  rw [h] at hf
  cases hf

theorem cmd0 : Statement .cmd0 := of_some rfl rfl
theorem cmd1 : Statement .cmd1 := of_some rfl rfl
theorem cmd8 (arg : Word) : Statement (.cmd8 arg) := of_some rfl rfl
theorem cmd9 : Statement .cmd9 := of_some rfl rfl
theorem cmd16 : Statement .cmd16 := of_some rfl rfl
theorem cmd17 (arg : Word) : Statement (.cmd17 arg) := of_some rfl rfl
theorem cmd24 (arg : Word) : Statement (.cmd24 arg) := of_some rfl rfl
theorem cmd55 : Statement .cmd55 := of_some rfl rfl
theorem acmd41 : Statement .acmd41 := of_some rfl rfl
theorem cmd58 : Statement .cmd58 := of_some rfl rfl
theorem cmd59On : Statement .cmd59On := of_some rfl rfl
theorem cmd59Off : Statement .cmd59Off := of_some rfl rfl
theorem init (sector : Word) : Statement (.init sector) := of_some rfl rfl
theorem deinit (sector : Word) : Statement (.deinit sector) := of_some rfl rfl
theorem read (sector : Word) : Statement (.read sector) := of_some rfl rfl
theorem write (sector : Word) : Statement (.write sector) := of_some rfl rfl
theorem stOk : Statement .stOk := of_some rfl rfl
theorem stFail : Statement .stFail := of_some rfl rfl
theorem stNoinit : Statement .stNoinit := of_some rfl rfl
theorem filler : Statement .filler := of_some rfl rfl
theorem startBlock : Statement .startBlock := of_some rfl rfl
theorem drspAccepted : Statement .drspAccepted := of_some rfl rfl
theorem r0None : Statement .r0None := of_some rfl rfl
theorem r0Ready : Statement .r0Ready := of_some rfl rfl
theorem r0Idle : Statement .r0Idle := of_some rfl rfl
theorem r0V1 : Statement .r0V1 := of_some rfl rfl
theorem crc7 (data : List Byte) : Statement (.crc7 data) := of_none rfl
theorem crc16 (data : List Byte) : Statement (.crc16 data) := of_none rfl
theorem sendCommand (cmd : BitVec 6) (arg : Word) (fl : CmdFlags) : Statement (.sendCommand cmd arg fl) := of_none rfl
theorem checkCommand (cmd : BitVec 6) (arg : Word) (fl : CmdFlags) (expected maxAttempts : Byte) : Statement (.checkCommand cmd arg fl expected maxAttempts) := of_none rfl
theorem findToken (token : Byte) (timeoutUs : Word) : Statement (.findToken token timeoutUs) := of_none rfl
theorem readBlock (cmd : BitVec 6) (arg : Word) (len : Nat) (dest : BlockDest) : Statement (.readBlock cmd arg len dest) := of_none rfl

end Sys2Proof.Laws.EncodedLength
end

