-- ==== Sys2Proof/Tests/Slice0.lean ====
section
/-! SUPPORT. Tests: ill-formed terms refused, the decoding of words written out from the spec's tables, the spec's own vectors
(95_test_vectors.md, whose ids the names carry), and a witness for the hypotheses of every statement that has any. -/

namespace Sys2Proof.Tests

open Sys2Proof Sys2Proof.Machine

set_option Elab.async false

/-! ## Helpers -/

/-- The state after reset with a card that will answer with these bytes. -/
def card (miso : List Byte) : State := { State.reset with bus := { Bus.empty with miso := miso } }

/-- The same with a value in `FLAGS`. -/
def flagged (flags : Byte) (miso : List Byte) : State := { card miso with flags := flags }

/-- The same with answers of the time source. -/
def timed (clock : List Nat) (s : State) : State := { s with bus := { s.bus with clock := clock } }

/-- `n` filler bytes. -/
def ff (n : Nat) : List Byte := List.replicate n 0xFF#8

/-- A view of the next state, none where there is none. -/
def after {α : Type} (o : Host.Outcome State Fault Refusal) (f : State → α) : Option α :=
  match o with
  | .next t => some (f t)
  | .fault _ => none
  | .refused _ => none

/-- How many byte exchanges the history holds. -/
def exchanges (s : State) : Nat := (s.bus.trace.filter Event.isXfer).length

/-- The flags `{full_response}`. -/
def full : CmdFlags := { appCmd := false, fullResponse := true, notExpect := false }

/-- The flags `{app_cmd}`. -/
def app : CmdFlags := { appCmd := true, fullResponse := false, notExpect := false }

/-- The flags `{full_response, not_expect}`. -/
def notExpect : CmdFlags := { appCmd := false, fullResponse := true, notExpect := true }

/-! ## Well-formedness -/

theorem test_wellFormed_sendCommand : wellFormed (.sendCommand 2 0 CmdFlags.none) = false := by decide
theorem test_wellFormed_checkCommand : wellFormed (.checkCommand 63 0 CmdFlags.none 0 1) = false := by decide
theorem test_wellFormed_readBlock_command : wellFormed (.readBlock 18 0 512 .buf) = false := by decide
theorem test_wellFormed_readBlock_length : wellFormed (.readBlock 17 0 16 .buf) = false := by decide
theorem test_wellFormed_readBlock_dest : wellFormed (.readBlock 9 0 512 .csd) = false := by decide
theorem test_wellFormed_emitted : (List.range 64).countP (fun k => emitted (BitVec.ofNat 6 k)) = 11 := by decide

/-! ## Decoding: every row, from the spec's encoding of it (R91 to R104) -/

theorem test_decode_cmd0 : decode .cmd48 [0x40, 0x00, 0x00, 0x00, 0x00, 0x95] = .ok .cmd0 := by decide +kernel
theorem test_decode_cmd1 : decode .cmd48 [0x41, 0x00, 0x00, 0x00, 0x00, 0xF9] = .ok .cmd1 := by decide +kernel
theorem test_decode_cmd8 : decode .cmd48 [0x48, 0x00, 0x00, 0x01, 0x0A, 0x61] = .ok (.cmd8 0x10A) := by decide +kernel
theorem test_decode_cmd8_other : decode .cmd48 [0x48, 0x00, 0x00, 0x1A, 0x0A, 0x99] = .ok (.cmd8 0x1A0A) := by
  decide +kernel
theorem test_decode_cmd9 : decode .cmd48 [0x49, 0x00, 0x00, 0x00, 0x00, 0xAF] = .ok .cmd9 := by decide +kernel
theorem test_decode_cmd16 : decode .cmd48 [0x50, 0x00, 0x00, 0x02, 0x00, 0x15] = .ok .cmd16 := by decide +kernel
theorem test_decode_cmd17 : decode .cmd48 [0x51, 0xFF, 0xFF, 0xFE, 0x00, 0x9B] = .ok (.cmd17 0xFFFFFE00) := by
  decide +kernel
theorem test_decode_cmd24 : decode .cmd48 [0x58, 0x00, 0x07, 0xD0, 0x00, 0xE9] = .ok (.cmd24 0x7D000) := by
  decide +kernel
theorem test_decode_cmd55 : decode .cmd48 [0x77, 0x00, 0x00, 0x00, 0x00, 0x65] = .ok .cmd55 := by decide +kernel
theorem test_decode_acmd41 : decode .cmd48 [0x69, 0x40, 0x00, 0x00, 0x00, 0x77] = .ok .acmd41 := by decide +kernel
theorem test_decode_cmd58 : decode .cmd48 [0x7A, 0x00, 0x00, 0x00, 0x00, 0xFD] = .ok .cmd58 := by decide +kernel
theorem test_decode_cmd59On : decode .cmd48 [0x7B, 0x00, 0x00, 0x00, 0x01, 0x83] = .ok .cmd59On := by decide +kernel
theorem test_decode_cmd59Off : decode .cmd48 [0x7B, 0x00, 0x00, 0x00, 0x00, 0x91] = .ok .cmd59Off := by decide +kernel
theorem test_decode_init : decode .hreq [0b00000000, 0x00, 0x00, 0x00, 0x07] = .ok (.init 7) := by decide +kernel
theorem test_decode_deinit : decode .hreq [0b00000001, 0x00, 0x00, 0x00, 0x00] = .ok (.deinit 0) := by decide +kernel
theorem test_decode_read : decode .hreq [0b00000010, 0x00, 0x00, 0x03, 0xE8] = .ok (.read 1000) := by decide +kernel
theorem test_decode_write : decode .hreq [0b00000011, 0xFF, 0xFF, 0xFF, 0xFE] = .ok (.write 0xFFFFFFFE) := by
  decide +kernel
theorem test_decode_stOk : decode .hrsp [0b00] = .ok .stOk := by decide +kernel
theorem test_decode_stFail : decode .hrsp [0b01] = .ok .stFail := by decide +kernel
theorem test_decode_stNoinit : decode .hrsp [0b10] = .ok .stNoinit := by decide +kernel
theorem test_decode_filler : decode .byte [0xFF] = .ok .filler := by decide +kernel
theorem test_decode_startBlock : decode .dblk [0xFE] = .ok .startBlock := by decide +kernel
theorem test_decode_drspAccepted : decode .drsp [0xE5] = .ok .drspAccepted := by decide +kernel
theorem test_decode_r0None : decode .r0 [0xFF] = .ok .r0None := by decide +kernel
theorem test_decode_r0Ready : decode .r0 [0x00] = .ok .r0Ready := by decide +kernel
theorem test_decode_r0Idle : decode .r0 [0x01] = .ok .r0Idle := by decide +kernel
theorem test_decode_r0V1 : decode .r0 [0x05] = .ok .r0V1 := by decide +kernel

theorem test_decode_microOperations_have_none : [encode (.crc7 []), encode (.crc16 []),
    encode (.sendCommand 0 0 CmdFlags.none), encode (.checkCommand 0 0 CmdFlags.none 1 50),
    encode (.findToken 0xFE 50000), encode (.readBlock 17 0 512 .buf)] = List.replicate 6 none := by decide

theorem test_decode_rejects_badCrc :
    decode .cmd48 [0x40, 0x00, 0x00, 0x00, 0x00, 0x97] = .error .badCrc := by decide +kernel
theorem test_decode_rejects_badStart :
    decode .cmd48 [0xC0, 0x00, 0x00, 0x00, 0x00, 0x95] = .error .badStart := by decide +kernel
theorem test_decode_rejects_index :
    decode .cmd48 [0x42, 0x00, 0x00, 0x00, 0x00, 0x4D] = .error .indexNeverEmitted := by decide +kernel
theorem test_decode_rejects_argument :
    decode .cmd48 [0x50, 0x00, 0x00, 0x00, 0x00, 0x39] = .error .badArgument := by decide +kernel
theorem test_decode_rejects_status3 : decode .hrsp [0b11] = .error .reservedStatus := by decide +kernel
theorem test_decode_rejects_drsp : decode .drsp [0x0B] = .error .notAccepted := by decide +kernel
theorem test_decode_rejects_op : decode .hreq [0x04, 0, 0, 0, 0] = .error .bitsOutside := by decide +kernel

theorem test_tableWord_cmd0 : decodeTableWord 48 0x400000000095 = some .cmd0 := by decide +kernel
theorem test_tableWord_cmd17_open_crc : decodeTableWord 48 0x510007D00001 = some (.cmd17 0x7D000) := by decide +kernel
theorem test_tableWord_write : decodeTableWord 34 0x3000003E8 = some (.write 1000) := by decide +kernel
theorem test_tableWord_none : decodeTableWord 48 0 = none := by decide +kernel

theorem test_fetch_runs_cmd16 : after (step (State.reset.withFetchWord 48 0x500000020015))
    (fun t => (t.arg, sentBytes t.bus.trace)) = some (0x200, [0x50, 0x00, 0x00, 0x02, 0x00, 0x15]) := by decide +kernel
theorem test_fetch_runs_request : after (step (State.reset.withFetchWord 40 0x200000007)) (fun t => t.rsp) =
    some (some .noinit) := by decide +kernel

/-! ## The CRC engine (vectors A, B) -/

theorem test_crc7_A9 : after (exec (.crc7 [0x40, 0x00, 0x00, 0x00, 0x00]) State.reset) (fun t => t.ret) =
    some (.byte 0x95) := by decide +kernel
theorem test_crc7_A : [[], [0x01], [0xFF], [0xFF, 0xFF, 0xFF, 0xFF, 0xFF], [0x48, 0x00, 0x00, 0x01, 0xAA]].map crc7Of =
    [0x01#8, 0x13, 0xF3, 0x23, 0x87] := by decide +kernel
theorem test_crc16_B6 : after (exec (.crc16 [0x31, 0x32, 0x33, 0x34, 0x35, 0x36, 0x37, 0x38, 0x39]) State.reset)
    (fun t => t.ret) = some (.half 0x31C3) := by decide +kernel
set_option maxRecDepth 1000000 in
theorem test_crc16_B10 : crc16Of (ff 512) = 0x7FA1 := by decide +kernel

/-! ## Frames, statuses, bytes and tests -/

theorem test_cmd8_sends : after (exec (.cmd8 0x10A) State.reset) (fun t => (t.arg, sentBytes t.bus.trace)) =
    some (0x10A, [0x48, 0x00, 0x00, 0x01, 0x0A, 0x61]) := by decide +kernel
theorem test_cmd17_F14 : after (exec (.cmd17 0x7D000) State.reset) (fun t => t.fb.toList) =
    some [0x51, 0x00, 0x07, 0xD0, 0x00, 0xD3] := by decide +kernel
theorem test_cmd24_F21 : after (exec (.cmd24 0xFFFFFFFF) State.reset) (fun t => t.fb.toList) =
    some [0x58, 0xFF, 0xFF, 0xFF, 0xFF, 0x45] := by decide +kernel
theorem test_cmd55_keeps_arg : after (exec .cmd55 { State.reset with arg := 7 }) (fun t => (t.arg, exchanges t)) =
    some (7, 14) := by decide +kernel
theorem test_acmd41_frame : after (exec .acmd41 State.reset) (fun t => t.fb.toList) =
    some [0x69, 0x40, 0x00, 0x00, 0x00, 0x77] := by decide +kernel
theorem test_filler_reads : after (exec .filler (card [0x3C])) (fun t => (t.ret, t.bus.trace)) =
    some (.byte 0x3C, [.xfer 0xFF 0x3C]) := by decide +kernel
theorem test_startBlock_sends : after (exec .startBlock (card [0x3C])) (fun t => t.bus.trace) =
    some [.xfer 0xFE 0x3C] := by decide +kernel
theorem test_stFail_responds : after (exec .stFail State.reset) (fun t => (t.rsp, t.err, t.bus.trace)) =
    some (some .fail, 0, [.rsp .fail]) := by decide +kernel
theorem test_drsp_W9 : after (exec .drspAccepted { State.reset with rb := #v[0xFF, 0x25, 0, 0, 0, 0, 0, 0] })
    (fun t => t.ret) = some (.bool true) := by decide +kernel
theorem test_drsp_W4 : after (exec .drspAccepted { State.reset with rb := #v[0xEB, 0, 0x05, 0, 0, 0, 0, 0] })
    (fun t => t.ret) = some (.bool false) := by decide +kernel
theorem test_r0V1_I6 : after (exec .r0V1 { State.reset with rb := #v[0x04, 0, 0, 1, 0x0A, 0, 0, 0], ver := 2 })
    (fun t => (t.ver, t.ret)) = some (1, .bool true) := by decide +kernel
theorem test_r0Idle : after (exec .r0Idle { State.reset with rb := #v[0x01, 0, 0, 0, 0, 0, 0, 0] }) (fun t => t.ret) =
    some (.bool true) := by decide +kernel

/-! ## send_command (vectors S, R162) -/

theorem test_sendCommand_S5 : after (exec (.sendCommand 58 0 full) (card (ff 6 ++ ff 5 ++
      [0x01, 0xA1, 0xA2, 0xA3, 0xA4, 0xA5])))
    (fun t => (t.ret, t.rb.toList.take 5, exchanges t, t.bus.miso)) =
    some (.byte 0x01, [0x01, 0xA1, 0xA2, 0xA3, 0xA4], 16, [0xA5]) := by decide +kernel
theorem test_sendCommand_S13 : after (exec (.sendCommand 41 0x40000000 app) (card (ff 6 ++ [0x01] ++ ff 7 ++ ff 6 ++
      [0xFF, 0x00] ++ ff 6))) (fun t => (t.ret, exchanges t, t.cs)) = some (.byte 0x00, 28, true) := by decide +kernel

/-! ## check_command (vectors K) and find_token (vectors T) -/

theorem test_checkCommand_K2 : after (exec (.checkCommand 0 0 CmdFlags.none 0x01 50) (card (ff 14 ++ ff 14 ++ ff 6 ++
      [0x01] ++ ff 7))) (fun t => (t.ret, t.att, t.bus.trace.count (.delay 1000), exchanges t)) =
    some (.bool true, 3, 2, 42) := by decide +kernel
theorem test_checkCommand_K4 : after (exec (.checkCommand 8 0x10A notExpect 0xFF 3) (card (ff 42)))
    (fun t => (t.ret, t.att, t.bus.trace.count (.delay 1000))) = some (.bool false, 3, 2) := by decide +kernel
theorem test_findToken_T1 : after (exec (.findToken 0xFE 50000) (timed [100, 120, 140, 160]
      (card [0xFF, 0xFF, 0xFE, 0x11]))) (fun t => (t.ret, t.deadline, t.bus.miso)) =
    some (.bool true, 50100, [0x11]) := by decide +kernel
theorem test_findToken_T3 : after (exec (.findToken 0xFE 50000) (timed [0, 20, 40, 50000]
      (card [0xFF, 0xFF, 0xFF, 0xFE]))) (fun t => (t.ret, t.bus.miso)) = some (.bool false, [0xFE]) := by decide +kernel

/-! ## Block I/O (vectors RD, W, GT) -/

/-- The CSD image of vector B14. -/
def csdImage : List Byte := [0x40, 0x0E, 0x00, 0x32, 0x5B, 0x59, 0x00, 0x00, 0x3B, 0x37, 0x7F, 0x80, 0x0A, 0x40, 0x00, 0x01]

theorem test_readBlock_RD1 : after (exec (.readBlock 9 0 16 .csd) (timed [0, 1, 2, 3] (card (ff 6 ++ [0x00, 0xFE] ++ csdImage ++
      [0x44, 0xC6, 0xFF])))) (fun t => (t.ret, t.err, t.csd.toList)) = some (.bool true, 0x00, csdImage) := by
  decide +kernel
/-- Vectors RD5 (a response that is not zero), RD6 (no response, the line at 0xFF to the end) and RD7 (good block, the
line never idle after it): the three causes of a fault. -/
theorem test_readBlock_RD5_RD6_RD7 :
    [timed [0, 1, 2, 3] (card (ff 6 ++ [0x01, 0xFE] ++ csdImage ++ [0x44, 0xC7, 0xFF])),
      timed [0, 50000, 50001, 50002] (card (ff 6 ++ ff 16 ++ ff 1 ++ ff 16 ++ ff 2 ++ ff 1)),
      timed [0, 1, 50001] (card (ff 6 ++ [0x00, 0xFE] ++ csdImage ++ [0x44, 0xC6, 0x00]))].map
        (fun s => after (exec (.readBlock 9 0 16 .csd) s) (fun t => (t.ret, t.err, t.fault, t.bus.miso))) =
    List.replicate 3 (some (.bool false, 0x20, true, [])) := by decide +kernel
theorem test_read_GT1 : after (exec (.read 7) State.reset) (fun t => (t.rsp, t.bus.trace)) =
    some (some .noinit, [.req 2 7, .rsp .noinit]) := by decide +kernel
set_option maxRecDepth 1000000 in
theorem test_read_good : after (exec (.read 1000) (timed [0, 1, 2]
    (flagged 0x01 (ff 6 ++ [0x00, 0xFE] ++ List.replicate 511 0x00 ++ [0x01, 0x10, 0x21, 0xFF]))))
    (fun t => (t.rsp, t.err, t.fb.toList, t.buf)) =
    some (some .ok, 0x00, [0x51, 0x00, 0x07, 0xD0, 0x00, 0xD3], [(511, 0x01)]) := by decide +kernel
set_option maxRecDepth 1000000 in
theorem test_write_W1 : after (exec (.write 1000) (timed [0, 1] (flagged 0x07 (ff 6 ++ [0xFF, 0x00] ++ ff 6 ++ ff 515 ++
      [0xE5, 0x00, 0x00, 0x00] ++ ff 4 ++ [0xFF])))) (fun t => (t.rsp, t.err, t.fb.toList, t.bus.miso)) =
    some (some .ok, 0x00, [0x58, 0x00, 0x00, 0x03, 0xE8, 0xEB], []) := by decide +kernel
set_option maxRecDepth 1000000 in
/-- Vector W7, accepted but busy for more than 50 ms, and no response to CMD24. -/
theorem test_write_W7_unanswered :
    [timed [0, 49999, 50000] (flagged 0x01 (ff 6 ++ [0x00] ++ ff 7 ++ ff 515 ++ [0xE5, 0, 0, 0, 0, 0, 0, 0, 0, 0])),
      flagged 0x01 (ff 14)].map (fun s => after (exec (.write 0) s) (fun t => (t.rsp, t.err, t.bus.miso))) =
    List.replicate 2 (some (some .fail, 0x40, [])) := by decide +kernel

/-! ## INIT and DEINIT (vectors I, GT, program P1) -/

theorem test_deinit_GT4 : after (exec (.deinit 0) (flagged 0x03 (ff 28))) (fun t => (t.flags, t.rsp, exchanges t)) =
    some (0x0B, some .ok, 28) := by decide +kernel
theorem test_deinit_GT3 : after (exec (.deinit 0) (flagged 0x0B [])) (fun t => (t.flags, t.bus.trace)) =
    some (0x0B, [.req 1 0, .rsp .ok]) := by decide +kernel
theorem test_initStep_I5 : after (step { card (ff 6 ++ [0x01, 0x00, 0x00, 0x00, 0x0A] ++ ff 3) with seq := [.init .ifCond] })
    (fun t => (t.seq, t.rsp, t.err)) = some ([], some .fail, 0x02) := by decide +kernel
theorem test_initStep_I8 : after (step { card (ff 6 ++ [0x09, 0x00, 0x00, 0x01, 0x0A] ++ ff 3) with
      seq := [.init .ifCond, .init .crcOn] }) (fun t => (t.seq, t.ver)) = some ([.init .crcOn], 2) := by decide +kernel

/-- Vectors I24 to I26: either write-protect bit of CSD[14] ends INIT with `write_protected` and no bit of `ERR`. The
CRC16 bytes are those of CRC-16/XMODEM computed outside the model. -/
theorem test_initStep_I24_I25_I26 : [(0x10, 0x03, 0x73), (0x20, 0x06, 0xE6), (0x30, 0x05, 0x95)].map
      (fun p : Byte × Byte × Byte => after (step { timed [0, 1, 2, 3] (card (ff 6 ++ [0x00, 0xFE] ++
          List.replicate 14 0x00 ++ [p.1, 0x00, p.2.1, p.2.2, 0xFF])) with seq := [.init .writeProtect, .init .commit] })
        (fun t => (t.seq, t.rsp, t.flags, t.err))) =
    List.replicate 3 (some ([], some .fail, 0x04, 0x00)) := by decide +kernel

/-- What the card of program P1 answers. -/
def p1 : List Byte :=
  ff 10 ++ (ff 7 ++ [0x01] ++ ff 6) ++ (ff 7 ++ [0x01, 0x00, 0x00, 0x01, 0x0A] ++ ff 2) ++ (ff 7 ++ [0x01] ++ ff 6) ++
  (ff 7 ++ [0x01, 0x00, 0xFF, 0x80, 0x00] ++ ff 2) ++ (ff 7 ++ [0x01] ++ ff 13 ++ [0x01] ++ ff 6) ++
  (ff 7 ++ [0x01] ++ ff 13 ++ [0x01] ++ ff 6) ++ (ff 7 ++ [0x01] ++ ff 13 ++ [0x00] ++ ff 6) ++
  (ff 7 ++ [0x00, 0xC0, 0xFF, 0x80, 0x00] ++ ff 2) ++ (ff 7 ++ [0x00] ++ ff 6) ++
  (ff 7 ++ [0x00, 0xFF, 0xFF, 0xFE] ++ csdImage ++ [0x44, 0xC6, 0xFF])

set_option maxRecDepth 1000000 in
theorem test_init_P1 : after (exec (.init 0) (timed [0, 20, 40, 1000, 1001] (card p1)))
    (fun t => (t.rsp, t.flags, t.err, t.rate, exchanges t)) = some (some .ok, 0x03, 0x00, .fast, 208) := by decide +kernel

/-! ## Witnesses: concrete values that meet the hypotheses of each statement, clause by clause -/

theorem witness_DecodeOfEncode : encode (.cmd24 0xFFFFFFFF) = some (.cmd48, [0x58, 0xFF, 0xFF, 0xFF, 0xFF, 0x45]) ∧
    encode (.crc7 []) = none := by decide +kernel

theorem witness_EncodeOfDecode : decode .cmd48 [0x40, 0, 0, 0, 0, 0x95] = .ok .cmd0 ∧
    decode .hreq [0x03, 0xFF, 0xFF, 0xFF, 0xFF] = .ok (.write 0xFFFFFFFF) ∧ decode .hrsp [0x02] = .ok .stNoinit ∧
    decode .byte [0xFF] = .ok .filler ∧ decode .dblk [0xFE] = .ok .startBlock := by decide +kernel

theorem witness_OnlyBuiltFramesDecode : ∃ bs i, decode .cmd48 bs = .ok i :=
  ⟨[0x7A, 0, 0, 0, 0, 0xFD], .cmd58, by decide +kernel⟩

theorem witness_CrcsAreLinear : ∃ xs ys : List Byte, xs.length = ys.length := ⟨[0x01, 0xFF], [0x80, 0x00], rfl⟩

theorem witness_DataResponseTest_silent : ∃ s : State, ∀ k : Fin 8, s.rb[k] = 0xFF#8 :=
  ⟨{ State.reset with rb := Vector.replicate 8 0xFF#8 }, by decide⟩

theorem witness_DataResponseTest_answered : ∃ s u : State, (s.rb[(0 : Fin 8)] ≠ 0xFF#8) ∧
    (u.rb[(7 : Fin 8)] ≠ 0xFF#8 ∧ ∀ k : Fin 8, k < 7 → u.rb[k] = 0xFF#8) :=
  ⟨State.reset, { State.reset with rb := #v[0xFF, 0xFF, 0xFF, 0xFF, 0xFF, 0xFF, 0xFF, 0xE5] }, by decide, by decide⟩

theorem witness_ResponseScan_first : ∃ (s : State) (fl : CmdFlags) (skip more : List Byte) (i : Nat) (r0 : Byte)
    (tail extra : List Byte), skip.length = (if fl.appCmd then 14 else 0) + 6 ∧ r0 ≠ 0xFF#8 ∧ i + 1 + tail.length = 8 ∧
    extra.length = (if fl.fullResponse then i - 3 else 0) ∧
    s.bus.miso = skip ++ List.replicate i 0xFF#8 ++ [r0] ++ tail ++ extra ++ more :=
  ⟨card (ff 20 ++ ff 0 ++ [0x00] ++ ff 7 ++ [] ++ [0x12]), app, ff 20, [0x12], 0, 0x00, ff 7, [], rfl, by decide, rfl, rfl, rfl⟩

theorem witness_ResponseScan_last : ∃ (s : State) (fl : CmdFlags) (skip more : List Byte) (i : Nat) (r0 : Byte)
    (tail extra : List Byte), skip.length = (if fl.appCmd then 14 else 0) + 6 ∧ r0 ≠ 0xFF#8 ∧ i + 1 + tail.length = 8 ∧
    extra.length = (if fl.fullResponse then i - 3 else 0) ∧ i = 7 ∧ fl.fullResponse = true ∧
    s.bus.miso = skip ++ List.replicate i 0xFF#8 ++ [r0] ++ tail ++ extra ++ more :=
  ⟨card (ff 6 ++ ff 7 ++ [0xFE] ++ [] ++ ff 4 ++ []), full, ff 6, [], 7, 0xFE, [], ff 4, rfl, by decide, rfl, rfl, rfl,
    rfl, rfl⟩

theorem witness_ResponseScan_silent : ∃ (s : State) (fl : CmdFlags) (skip more : List Byte),
    skip.length = (if fl.appCmd then 14 else 0) + 6 ∧ s.bus.miso = skip ++ List.replicate 8 0xFF#8 ++ more :=
  ⟨card (ff 6 ++ ff 8 ++ [0x00]), full, ff 6, [0x00], rfl, rfl⟩

theorem witness_CheckCommandCounts : ∃ m n : Byte, m.toNat = 0 ∧ 0 < n.toNat := ⟨0, 255, rfl, by decide⟩

theorem witness_FindTokenDeadline_found : ∃ (s : State) (us : Word) (t0 : Nat) (token : Byte) (quiet more : List Byte)
    (ticks rest : List Nat), let w := s.cfg.tickW
    let deadline := (t0 + us.toNat * s.cfg.ticksPerUs) % 2 ^ w
    token ∉ quiet ∧ (∀ tick ∈ ticks, (2 : Int) ^ (w - 1) ≤ ((tick : Int) - deadline) % 2 ^ w) ∧ quiet ≠ [] ∧
    s.bus.miso = quiet ++ token :: more ∧ s.bus.clock = t0 :: ticks ++ rest ∧ ticks.length = quiet.length :=
  ⟨timed [0, 49999, 7] (card [0xFF, 0xFE]), 50000, 0, 0xFE, [0xFF], [], [49999], [7], by decide, by decide, by decide,
    rfl, rfl, rfl⟩

theorem witness_FindTokenDeadline_at_once : ∃ (s : State) (t0 : Nat) (token : Byte) (quiet more : List Byte)
    (ticks rest : List Nat), token ∉ quiet ∧ quiet = [] ∧ ticks = [] ∧
    s.bus.miso = quiet ++ token :: more ∧ s.bus.clock = t0 :: ticks ++ rest ∧ ticks.length = quiet.length :=
  ⟨timed [4294967295] (card [0xFF]), 4294967295, 0xFF, [], [], [], [], by decide, rfl, rfl, rfl, rfl, rfl⟩

theorem witness_FindTokenDeadline_late : ∃ (s : State) (us : Word) (t0 : Nat) (token : Byte) (quiet more : List Byte)
    (ticks rest : List Nat) (last : Nat), let w := s.cfg.tickW
    let deadline := (t0 + us.toNat * s.cfg.ticksPerUs) % 2 ^ w
    token ∉ quiet ∧ (∀ tick ∈ ticks, (2 : Int) ^ (w - 1) ≤ ((tick : Int) - deadline) % 2 ^ w) ∧
    ¬ (2 : Int) ^ (w - 1) ≤ ((last : Int) - deadline) % 2 ^ w ∧ s.bus.miso = quiet ++ more ∧
    s.bus.clock = t0 :: ticks ++ last :: rest ∧ ticks.length + 1 = quiet.length :=
  ⟨timed [0, 50000] (card [0xFF, 0xFE]), 50000, 0, 0xFE, [0xFF], [0xFE], [], [], 50000, by decide, by decide, by decide,
    rfl, rfl, rfl⟩

theorem witness_ReadBlockVerdict : readBlockShape 17 512 .buf = true ∧ readBlockShape 9 16 .csd = true := by decide

theorem witness_ReadBlockDelivers : ∃ (s u : State) (skip payload sector more : List Byte) (r hi lo : Byte),
    readBlockShape 9 16 .csd = true ∧ readBlockShape 17 512 .buf = true ∧ s.buf.wf = true ∧ u.buf.wf = true ∧
    skip.length = 6 ∧ r ≠ 0xFF#8 ∧ payload.length = 16 ∧ sector.length = 512 ∧
    s.bus.miso = skip ++ List.replicate 0 0xFF#8 ++ [r, 0xFE#8] ++ payload ++ [hi, lo, 0xFF#8] ++ more ∧
    u.bus.miso = skip ++ List.replicate 15 0xFF#8 ++ [r, 0xFE#8] ++ sector ++ [hi, lo, 0xFF#8] ++ more :=
  ⟨card (ff 6 ++ ff 0 ++ [0x05, 0xFE] ++ csdImage ++ [0, 0, 0xFF] ++ []),
    card (ff 6 ++ ff 15 ++ [0x05, 0xFE] ++ ff 512 ++ [0, 0, 0xFF] ++ []), ff 6, csdImage, ff 512, [], 0x05, 0, 0, rfl, rfl,
    rfl, rfl, rfl, by decide, rfl, List.length_replicate, rfl, rfl⟩

theorem witness_ReadBlockDelivers_verdicts : ∃ (payload : List Byte) (hi lo : Byte), payload.length = 16 ∧
    crc16Of payload = hi ++ lo ∧ crc16Of payload ≠ hi ++ (lo ^^^ 1) :=
  ⟨csdImage, 0x44, 0xC6, by decide +kernel⟩

theorem witness_UninitialisedGate : State.reset.flags.getLsbD 0 = false := rfl

theorem witness_SectorMapping : ∃ s u : State, s.flags.getLsbD 0 = true ∧ s.flags.getLsbD 1 = true ∧
    u.flags.getLsbD 0 = true ∧ u.flags.getLsbD 1 = false := ⟨flagged 0x03 [], flagged 0x01 [], rfl, rfl, rfl, rfl⟩

theorem witness_ReadOutcome : (flagged 0x01 []).flags.getLsbD 0 = true := rfl

theorem witness_ReadDelivers : ∃ (s u : State) (skip payload more : List Byte) (hi lo : Byte),
    s.flags.getLsbD 0 = true ∧ u.flags.getLsbD 0 = true ∧ s.buf.wf = true ∧ u.buf.wf = true ∧ skip.length = 6 ∧
    payload.length = 512 ∧ crc16Of payload = hi ++ lo ∧
    s.bus.miso = skip ++ List.replicate 0 0xFF#8 ++ [0x00#8, 0xFE#8] ++ payload ++ [hi, lo, 0xFF#8] ++ more ∧
    u.bus.miso = skip ++ List.replicate 15 0xFF#8 ++ [0x00#8, 0xFE#8] ++ payload ++ [hi, lo, 0xFF#8] ++ more :=
  ⟨flagged 0x01 (ff 6 ++ ff 0 ++ [0x00, 0xFE] ++ ff 512 ++ [0x7F, 0xA1, 0xFF] ++ []),
    flagged 0x01 (ff 6 ++ ff 15 ++ [0x00, 0xFE] ++ ff 512 ++ [0x7F, 0xA1, 0xFF] ++ []), ff 6, ff 512, [], 0x7F, 0xA1, rfl,
    rfl, rfl, rfl, rfl, List.length_replicate, test_crc16_B10, rfl, rfl⟩

theorem witness_WriteOutcome : (flagged 0x0F []).flags.getLsbD 0 = true := rfl

theorem flagged_initialized (miso : List Byte) : (flagged 0x03 miso).flags.getLsbD 0 = true ∧
    (flagged 0x01 miso).flags.getLsbD 0 = true := by
  constructor
  · show (0x03#8).getLsbD 0 = true; decide
  · show (0x01#8).getLsbD 0 = true; decide

/-- A WRITE whose data response is the window `w`. -/
def answeredWrite (w : List Byte) : State :=
  flagged 0x01 (ff 6 ++ ([0x00] ++ ff 7) ++ ff 515 ++ w ++ [0xFF#8] ++ [])

theorem witness_WriteSendsTheBlock : ∀ w ∈ [[0xE5#8] ++ ff 7, ff 7 ++ [0x05#8], ff 7 ++ [0x0B#8], ff 8],
    ∃ skip answer data more : List Byte, (answeredWrite w).flags.getLsbD 0 = true ∧ skip.length = 6 ∧ answer.length = 8 ∧
    (∃ b ∈ answer, b ≠ 0xFF#8) ∧ data.length = 515 ∧ w.length = 8 ∧
    (answeredWrite w).bus.miso = skip ++ answer ++ data ++ w ++ [0xFF#8] ++ more := by
  intro w hw
  refine ⟨ff 6, [0x00] ++ ff 7, ff 515, [], (flagged_initialized _).2, rfl, rfl, ⟨0x00, by decide⟩, List.length_replicate,
    ?_, rfl⟩
  revert w; decide

theorem witness_WriteSendsTheBlock_verdicts :
    (∃ b, ([0xE5#8] ++ ff 7).find? (fun b => b != 0xFF#8) = some b ∧ b.toNat % 32 = 5) ∧
    (∀ b, (ff 8).find? (fun b => b != 0xFF#8) = some b → b.toNat % 32 ≠ 5) :=
  ⟨⟨0xE5, rfl, rfl⟩, fun b h => absurd h (by have : (ff 8).find? (fun b => b != 0xFF#8) = none := rfl
                                             rw [this]; simp)⟩

theorem witness_WriteSendsTheBlock_busy : ∃ (s : State) (skip answer data window busy more : List Byte) (t0 last : Nat)
    (ticks rest : List Nat), let w := s.cfg.tickW
    let deadline := (t0 + 50000 * s.cfg.ticksPerUs) % 2 ^ w
    s.flags.getLsbD 0 = true ∧ skip.length = 6 ∧ answer.length = 8 ∧ (∃ b ∈ answer, b ≠ 0xFF#8) ∧ data.length = 515 ∧
    window.length = 8 ∧ 0xFF#8 ∉ busy ∧ (∀ tick ∈ ticks, (2 : Int) ^ (w - 1) ≤ ((tick : Int) - deadline) % 2 ^ w) ∧
    ¬ (2 : Int) ^ (w - 1) ≤ ((last : Int) - deadline) % 2 ^ w ∧ ticks.length + 1 = busy.length ∧
    s.bus.miso = skip ++ answer ++ data ++ window ++ busy ++ more ∧ s.bus.clock = t0 :: ticks ++ last :: rest ∧
    AcceptedWindow window :=
  ⟨timed [0, 49999, 50000] (flagged 0x01 (ff 6 ++ ([0x00] ++ ff 7) ++ ff 515 ++ ([0xE5] ++ List.replicate 7 0x00) ++
      [0x00, 0x00] ++ [])), ff 6, [0x00] ++ ff 7, ff 515, [0xE5] ++ List.replicate 7 0x00, [0x00, 0x00], [], 0, 50000,
    [49999], [], rfl, rfl, rfl, ⟨0x00, by decide⟩, List.length_replicate, rfl, by decide, by decide, by decide, rfl, rfl,
    rfl, 0xE5, rfl, rfl⟩

theorem witness_WriteUnanswered : ∃ (s : State) (skip more : List Byte), s.flags.getLsbD 0 = true ∧ skip.length = 6 ∧
    s.bus.miso = skip ++ List.replicate 8 0xFF#8 ++ more := ⟨flagged 0x01 (ff 6 ++ ff 8 ++ []), ff 6, [], rfl, rfl, rfl⟩

theorem witness_WriteThenReadRoundTrip : ∃ (s t u : State) (skip answer data window skip' more more' : List Byte)
    (evs : List Event), s.flags.getLsbD 0 = true ∧ skip.length = 6 ∧ answer.length = 8 ∧ (∃ b ∈ answer, b ≠ 0xFF#8) ∧
    data.length = 515 ∧ window.length = 8 ∧
    (∃ b, window.find? (fun b => b != 0xFF#8) = some b ∧ b.toNat % 32 = 5) ∧
    s.bus.miso = skip ++ answer ++ data ++ window ++ [0xFF#8] ++ more ∧ exec (.write 7) s = .next t ∧
    t.bus.trace = s.bus.trace ++ evs ∧ u.flags.getLsbD 0 = true ∧ u.buf.wf = true ∧ skip'.length = 6 ∧
    u.bus.miso = skip' ++ [0x00#8, 0xFE#8] ++ ((sentBytes evs).drop 15).take 512 ++
      ((sentBytes evs).drop 527).take 2 ++ [0xFF#8] ++ more' := by
  obtain ⟨u, evs, -, h2, -, -, -, h6⟩ := writeBody_cases (sector := 7)
    (s := accept 3 7 [.write 7] (answeredWrite ([0xE5] ++ ff 7))) rfl
  have ht : ∃ st : Status, (writeBody 7 (accept 3 7 [.write 7] (answeredWrite ([0xE5] ++ ff 7)))).bus.trace =
      (answeredWrite ([0xE5] ++ ff 7)).bus.trace ++ (Event.req 3 7 :: ([Event.prepare, Event.cs false] ++ evs ++
        [Event.cs true]) ++ [Event.rsp st]) := by
    have hr : ∀ st, (respond st u).bus.trace = u.bus.trace ++ [.rsp st] := fun _ => rfl
    have hc : ∀ c, (raise c u).bus.trace = u.bus.trace ++ [.rsp .fail] := fun _ => rfl
    rcases h6 with h | h
    · exact ⟨.ok, by rw [h, hr, h2]; simp [accept, Bus.emit]⟩
    · exact ⟨.fail, by rw [h, hc, h2]; simp [accept, Bus.emit]⟩
  obtain ⟨st, ht⟩ := ht
  exact ⟨answeredWrite ([0xE5] ++ ff 7), _, flagged 0x03 _, ff 6, [0x00] ++ ff 7, ff 515, [0xE5] ++ ff 7, ff 6, [], [], _,
    (flagged_initialized _).2, rfl, rfl, ⟨0x00, by decide⟩, List.length_replicate, rfl, ⟨0xE5, rfl, rfl⟩, rfl, rfl, ht,
    (flagged_initialized _).1, rfl, rfl, rfl⟩

theorem witness_DeinitActsOnce : ∃ s u : State, s.flags.getLsbD 3 = false ∧ u.flags.getLsbD 3 = true :=
  ⟨State.reset, flagged 0x08 [], rfl, rfl⟩

/-- A state at one step of INIT. -/
def atStep (k : InitStep) : State := { State.reset with seq := [.init k, .init .commit] }

theorem witness_InitStepsFailWithTheirCause : ∀ k ∈ [InitStep.goIdle, .crcOn, .voltage, .opCond, .blockLen],
    (atStep k).seq = .init k :: [.init .commit] := by decide

theorem witness_InitClassifiesTheCard : (atStep .ifCond).seq = .init .ifCond :: [.init .commit] := rfl

theorem witness_InitNotesCapacity : ∃ (s u : State) (rest : List Point), s.seq = .init .capacity :: rest ∧ s.ver ≠ 2#2 ∧
    u.seq = .init .capacity :: rest ∧ u.ver = 2#2 :=
  ⟨{ atStep .capacity with ver := 1 }, { atStep .capacity with ver := 2 }, _, rfl, by decide, rfl, rfl⟩

theorem witness_InitInspectsWriteProtection : (atStep .writeProtect).seq = .init .writeProtect :: [.init .commit] := rfl

theorem witness_VoltageCheckGivesUpAfterTwenty : ∃ (s : State) (rest : List Point) (blocks : List (List Byte))
    (more : List Byte), s.seq = .init .voltage :: rest ∧ blocks.length = 20 ∧
    (∀ b ∈ blocks, ∃ (skip tail : List Byte) (i : Nat) (o1 o2 : Byte), i ≤ 3 ∧ skip.length = 6 ∧
      i + 3 + tail.length = 8 ∧ o2 &&& 0x30#8 ≠ 0x30#8 ∧
      b = skip ++ List.replicate i 0xFF#8 ++ [0x01#8, o1, o2] ++ tail) ∧ s.bus.miso = blocks.flatten ++ more := by
  refine ⟨{ card ((List.replicate 20 (ff 6 ++ ff 3 ++ [0x01, 0x00, 0x10] ++ ff 2)).flatten ++ []) with
    seq := [.init .voltage] }, [], List.replicate 20 (ff 6 ++ ff 3 ++ [0x01, 0x00, 0x10] ++ ff 2), [], rfl,
    List.length_replicate, ?_, rfl⟩
  intro b hb
  rw [List.eq_of_mem_replicate hb]
  exact ⟨ff 6, ff 2, 3, 0x00, 0x10, by decide, rfl, rfl, by decide, rfl⟩

theorem witness_InitWithoutCard : ∃ (s : State) (more : List Byte), s.bus.miso = List.replicate 710 0xFF#8 ++ more :=
  ⟨card (ff 710 ++ []), [], rfl⟩

theorem witness_InitSucceedsOnAGoodCard : ∃ (s : State)
    (x1 x2 x3 x4 x5 x6 x7 x8 x9 t1 t2 t3 t4 t5 t6 t7 csd more : List Byte) (a1 a2 b1 b2 c1 c2 hi lo : Byte),
    x1.length = 10 ∧ x2.length = 6 ∧ x3.length = 6 ∧ x4.length = 6 ∧ x5.length = 6 ∧ x6.length = 20 ∧
    x7.length = 6 ∧ x8.length = 6 ∧ x9.length = 6 ∧ t1.length = 7 ∧ t2.length = 3 ∧ t3.length = 7 ∧ t4.length = 5 ∧
    t5.length = 7 ∧ t6.length = 5 ∧ t7.length = 7 ∧ b2 &&& 0x30#8 = 0x30#8 ∧ c1.getLsbD 6 = true ∧
    csd.length = 16 ∧ csd.getD 14 0xFF#8 &&& 0x30#8 = 0#8 ∧ crc16Of csd = hi ++ lo ∧
    s.bus.miso = x1 ++ (x2 ++ [0x01#8] ++ t1) ++
      (x3 ++ [0x01#8, a1, a2, (s.cfg.ifCondArg >>> 8).setWidth 8, s.cfg.ifCondArg.setWidth 8] ++ t2) ++
      (x4 ++ [0x01#8] ++ t3) ++ (x5 ++ [0x01#8, b1, b2] ++ t4) ++ (x6 ++ [0x00#8] ++ t5) ++
      (x7 ++ [0x00#8, c1, c2] ++ t6) ++ (x8 ++ [0x00#8] ++ t7) ++
      (x9 ++ [0x00#8, 0xFE#8] ++ csd ++ [hi, lo, 0xFF#8]) ++ more :=
  ⟨card (ff 10 ++ (ff 6 ++ [0x01#8] ++ ff 7) ++
      (ff 6 ++ [0x01#8, 0x00#8, 0x00#8, (Params.default.ifCondArg >>> 8).setWidth 8, Params.default.ifCondArg.setWidth 8] ++
        ff 3) ++
      (ff 6 ++ [0x01#8] ++ ff 7) ++ (ff 6 ++ [0x01#8, 0x80#8, 0xFF#8] ++ ff 5) ++ (ff 20 ++ [0x00#8] ++ ff 7) ++
      (ff 6 ++ [0x00#8, 0xC0#8, 0xFF#8] ++ ff 5) ++ (ff 6 ++ [0x00#8] ++ ff 7) ++
      (ff 6 ++ [0x00#8, 0xFE#8] ++ csdImage ++ [0x44#8, 0xC6#8, 0xFF#8]) ++ []),
    ff 10, ff 6, ff 6, ff 6, ff 6, ff 20, ff 6, ff 6, ff 6, ff 7, ff 3, ff 7, ff 5, ff 7, ff 5, ff 7, csdImage, [],
    0x00, 0x00, 0x80, 0xFF, 0xC0, 0xFF, 0x44, 0xC6, rfl, rfl, rfl, rfl, rfl, rfl, rfl, rfl, rfl, rfl, rfl, rfl, rfl, rfl,
    rfl, rfl, by decide, by decide, rfl, by decide, by decide +kernel, rfl⟩

theorem witness_StepRunsTheInstruction : ∃ (s u : State) (v : State) (rest : List Point) (acts : List HostAct),
    (s.seq = .unit .cmd48 [0x40, 0, 0, 0, 0, 0x95] :: rest ∧ decode .cmd48 [0x40, 0, 0, 0, 0, 0x95] = .ok .cmd0 ∧
      wellFormed .cmd0 = true ∧ Instr.isRequest .cmd0 = false) ∧
    (u.seq = .call (.readBlock 17 0 512 .buf) :: rest ∧ wellFormed (.readBlock 17 0 512 .buf) = true ∧
      Instr.isRequest (.readBlock 17 0 512 .buf) = false) ∧
    (v.seq = [] ∧ v.host = .request 3 0xFFFFFFFF :: acts ∧
      decode .hreq (encodeRequest 3 0xFFFFFFFF) = .ok (.write 0xFFFFFFFF)) :=
  ⟨{ State.reset with seq := [.unit .cmd48 [0x40, 0, 0, 0, 0, 0x95]] },
    { State.reset with seq := [.call (.readBlock 17 0 512 .buf)] },
    { State.reset with host := [.request 3 0xFFFFFFFF] }, [], [], ⟨rfl, by decide +kernel, rfl, rfl⟩, ⟨rfl, rfl, rfl⟩,
    ⟨rfl, rfl, by decide +kernel⟩⟩

theorem witness_FetchWordRuns : decodeTableWord 48 0x400000000095 = some .cmd0 ∧
    decodeTableWord 34 0x200000000 = some (.read 0) ∧ decodeTableWord 8 0xFE = some .startBlock := by decide +kernel

theorem witness_StopsByName : ∃ (s u v : State) (rest : List Point) (f : Format) (bs : List Byte) (e : DecodeError)
    (i j : Instr), (s.seq = .unit f bs :: rest ∧ decode f bs = .error e) ∧
    (u.seq = .call i :: rest ∧ i.isRequest = true) ∧
    (v.seq = .call j :: rest ∧ j.isRequest = false ∧ wellFormed j = false) :=
  ⟨{ State.reset with seq := [.unit .hrsp [0x03]] }, { State.reset with seq := [.call (.read 0)] },
    { State.reset with seq := [.call (.sendCommand 63 0 CmdFlags.none)] }, [], .hrsp, [0x03], .reservedStatus, .read 0,
    .sendCommand 63 0 CmdFlags.none, ⟨rfl, by decide⟩, ⟨rfl, rfl⟩, ⟨rfl, rfl, by decide⟩⟩

theorem witness_StopsByName_lengths : exec (.readBlock 17 0 513 .buf) State.reset = .fault .noSuchAddress ∧
    exec (.readBlock 9 0 17 .csd) State.reset = .fault .noSuchAddress := ⟨rfl, rfl⟩

theorem witness_BusyPortIsClosed : ∃ s t : State, s.seq ≠ [] ∧ step s = .next t :=
  ⟨{ State.reset with seq := [.call .filler], host := [.request 0 0] }, _, by decide, rfl⟩

theorem witness_OneResponsePerRequest : State.reset.cs = true ∧ Instr.isRequest .cmd55 = false ∧ Instr.cmd55 ≠ .stOk ∧
    Instr.cmd55 ≠ .stFail ∧ Instr.cmd55 ≠ .stNoinit ∧ ∃ t, exec .cmd55 State.reset = .next t :=
  ⟨rfl, rfl, by decide, by decide, by decide, _, rfl⟩

theorem witness_StatusBitsOnlyGrow : ∃ s t u v : State, step s = .next t ∧ s.flags ≠ t.flags ∧
    (step u = .next v ∧ u.host = [.reset]) :=
  ⟨{ State.reset with seq := [.init .commit] }, _, { flagged 0x0F [] with host := [.reset] }, _, rfl, by decide, rfl, rfl⟩

/-- The hypothesis `exec i s = .next t` that several statements make of every instruction. -/
theorem witness_exec_next : ∀ i ∈ [Instr.init 0, .deinit 0, .read 0, .write 0, .cmd0, .stOk, .filler, .r0V1, .crc7 [],
    .sendCommand 0 0 CmdFlags.none, .checkCommand 0 0 CmdFlags.none 1 1, .findToken 0xFE 0, .readBlock 17 0 512 .buf],
    ∃ t, exec i (flagged 0x01 []) = .next t := by
  intro i hi
  simp only [List.mem_cons, List.not_mem_nil, or_false] at hi
  rcases hi with rfl | rfl | rfl | rfl | rfl | rfl | rfl | rfl | rfl | rfl | rfl | rfl | rfl <;> exact ⟨_, rfl⟩

theorem witness_ErrIsNeverRead : ∃ t, exec (.deinit 0) State.reset = .next t := ⟨_, rfl⟩

theorem witness_WriteProtectedIsNeverRead : ∃ t, exec (.write 0) (flagged 0x01 []) = .next t := ⟨_, rfl⟩

theorem witness_WhoSetsWhichErrBit : ∃ t, exec (.read 0) (flagged 0x01 []) = .next t := ⟨_, rfl⟩

theorem witness_ModeTransitions_up : ∃ s t : State, step s = .next t ∧ s.flags.getLsbD 0 = false ∧
    t.flags.getLsbD 0 = true := ⟨{ State.reset with seq := [.init .commit] }, _, rfl, rfl, rfl⟩

theorem witness_ModeTransitions_down : ∃ s t : State, step s = .next t ∧ s.flags.getLsbD 0 = true ∧
    t.flags.getLsbD 0 = false := ⟨{ flagged 0x01 [] with host := [.reset] }, _, rfl, rfl, rfl⟩

theorem witness_RateFollowsInit : ∃ t u, exec (.init 0) State.reset = .next t ∧ exec (.read 0) State.reset = .next u ∧
    ∀ sector, Instr.read 0 ≠ .init sector := ⟨_, _, rfl, rfl, by simp⟩

theorem witness_OnlyReadChangesTheBuffer : ∃ t, exec (.readBlock 9 0 16 .csd) State.reset = .next t ∧
    (∀ sector, Instr.readBlock 9 0 16 .csd ≠ .read sector) ∧
    ∀ cmd arg len, Instr.readBlock 9 0 16 .csd ≠ .readBlock cmd arg len .buf := ⟨_, rfl, by simp, by simp⟩

/-- The state after reset, with a request at the port, is idle in the sense of the invariant. -/
theorem witness_IdleInvariantKept : ∃ s t : State, IdleInv s ∧ step s = .next t :=
  ⟨{ State.reset with host := [.request 0 0] }, _,
    ⟨rfl, rfl, rfl, by decide, by decide, by decide, .inl rfl, rfl⟩, rfl⟩

theorem witness_RangesKeptByEveryStep : ∃ s t : State, s.flags &&& 0xF0#8 = 0#8 ∧ s.ver ≠ 3#2 ∧
    s.deadline < 2 ^ s.cfg.tickW ∧ s.buf.wf = true ∧ s.seq ≠ [] ∧ step s = .next t :=
  ⟨atStep .goIdle, _, by decide, by decide, by decide, rfl, by decide, rfl⟩

theorem witness_ResetState : ∃ (s u : State) (acts : List HostAct), (s.seq = [] ∧ s.host = .reset :: acts) ∧
    (u.seq = [] ∧ u.host = []) := ⟨{ flagged 0x0F [] with host := [.reset] }, State.reset, [], ⟨rfl, rfl⟩, ⟨rfl, rfl⟩⟩

theorem witness_HostBufferAccess_reads : State.reset.seq = [] ∧ (atStep .goIdle).seq ≠ [] := ⟨rfl, by decide⟩

theorem witness_HostBufferAccess : ∃ (s u : State) (v : Byte) (acts : List HostAct),
    (s.seq = [] ∧ s.host = .writeBuf 511 v :: acts ∧ s.buf.wf = true) ∧
    (u.seq = [] ∧ u.host = .writeBuf 512 v :: acts) :=
  ⟨{ State.reset with host := [.writeBuf 511 0xAA] }, { State.reset with host := [.writeBuf 512 0xAA] }, 0xAA, [],
    ⟨rfl, rfl, rfl⟩, ⟨rfl, rfl⟩⟩

end Sys2Proof.Tests
end

section
/-! PROOF. What the host may write and read, and when (20_memory.md R69, R76; 10_state.md R20). -/

namespace Sys2Proof.Machine

/-! ## What the host reads -/

theorem ready_of_idle {s : State} (h : s.seq = []) : ready s = true := by simp [ready, h]

theorem not_ready_of_busy {s : State} (h : s.seq ≠ []) : ready s = false := by simp [ready, h]

theorem hostFlags_of_idle {s : State} (h : s.seq = []) : hostFlags s = some s.flags := by
  simp [hostFlags, ready_of_idle h]

theorem hostFlags_of_busy {s : State} (h : s.seq ≠ []) : hostFlags s = none := by
  simp [hostFlags, not_ready_of_busy h]

theorem hostErr_of_idle {s : State} (h : s.seq = []) : hostErr s = some s.err := by
  simp [hostErr, ready_of_idle h]

theorem hostErr_of_busy {s : State} (h : s.seq ≠ []) : hostErr s = none := by
  simp [hostErr, not_ready_of_busy h]

theorem hostBuf_of_idle {s : State} {k : Nat} (h : s.seq = []) (hk : k < Config.sectorSize) :
    hostBuf k s = some (s.buf.read k) := by
  simp only [hostBuf, ready_of_idle h, hk, decide_true, Bool.and_self, if_true]

theorem hostBuf_of_busy {s : State} (k : Nat) (h : s.seq ≠ []) : hostBuf k s = none := by
  simp [hostBuf, not_ready_of_busy h]

theorem hostBuf_of_no_such_address (s : State) {k : Nat} (hk : Config.sectorSize ≤ k) : hostBuf k s = none := by
  simp only [hostBuf, Nat.not_lt.2 hk, decide_false, Bool.and_false, Bool.false_eq_true, if_false]

/-! ## What the host writes -/

/-- The next step of an idle block is the action at the head of the host's queue. -/
theorem step_of_host {s : State} {a : HostAct} {acts : List HostAct} (hq : s.seq = []) (hh : s.host = a :: acts) :
    step s = runHost a { s with host := acts } := by
  simp only [step, runNext, hq, hh]

theorem runHost_writeBuf {k : Nat} (v : Byte) (s : State) (hk : k < Config.sectorSize) :
    runHost (.writeBuf k v) s = .next { s with buf := s.buf.write k v } := if_pos hk

theorem runHost_writeBuf_no_such_address {k : Nat} (v : Byte) (s : State) (hk : Config.sectorSize ≤ k) :
    runHost (.writeBuf k v) s = .fault .noSuchAddress := if_neg (Nat.not_lt.2 hk)

theorem hostBuf_of_written {s : State} {k : Nat} (v : Byte) (hq : s.seq = []) (hk : k < Config.sectorSize)
    (hwf : s.buf.wf = true) : hostBuf k { s with buf := s.buf.write k v } = some v :=
  (hostBuf_of_idle (s := { s with buf := s.buf.write k v }) hq hk).trans
    (congrArg some (Memory.read_write_same v hwf))

/-- Settles O60: a write goes through to `Memory.write`, whose laws say what is read afterwards; the host's reads are
gated by `ready` and the size of `BUF`. -/
theorem hostBufferAccess : Obligations.HostBufferAccess := by
  refine ⟨fun s k v acts hq hh => ?_, fun s => ⟨fun hq => ?_, fun hq => ?_⟩⟩
  · rw [step_of_host hq hh]
    constructor
    · intro hk hwf
      exact ⟨_, runHost_writeBuf v _ hk, rfl, Memory.wf_write v hwf hk,
        hostBuf_of_written (s := { s with host := acts }) v hq hk hwf,
        fun a ha => Memory.read_write_other v ha⟩
    · exact fun hk => ⟨runHost_writeBuf_no_such_address v _ hk, hostBuf_of_no_such_address s hk⟩
  · exact ⟨hostFlags_of_idle hq, hostErr_of_idle hq, fun k hk => hostBuf_of_idle hq hk⟩
  · exact ⟨hostFlags_of_busy hq, hostErr_of_busy hq, fun k => hostBuf_of_busy k hq⟩

end Sys2Proof.Machine
end

section
/-! PROOF. One request and one response per host operation, nothing at the host's port in any other instruction
(00_scope.md R12; 60_exceptions.md R314). -/

namespace Sys2Proof.Machine

/-! ## Stretches without an event at the host's port -/

theorem quiet_of_send {s t : State} {bs : List Byte} (h : t.bus = s.bus.send bs) : Quiet s t [] := by
  rw [Bus.send_eq] at h
  exact ⟨List.zipWith Event.xfer bs (Bus.answers bs.length s.bus), by rw [h, List.append_nil],
    zipWith_xfer_not_host _ _⟩

/-- A chip-select bracket is no event at the host's port, if what it encloses is none. -/
theorem quiet_of_bracket {s t : State} {evs : List Event}
    (ht : t.bus.trace = s.bus.trace ++ ([.prepare, .cs false] ++ evs ++ [.cs true]))
    (hevs : ∀ e ∈ evs, e.isHost = false) : Quiet s t [] := by
  refine ⟨_, by rw [ht, List.append_nil], fun e he => ?_⟩
  simp only [List.mem_append, List.mem_cons, List.not_mem_nil, or_false] at he
  rcases he with ((rfl | rfl) | he) | rfl
  · rfl
  · rfl
  · exact hevs e he
  · rfl

/-- Nothing happened at the host's port from `s` to `t`: no request, no response, the sequencer where it was. -/
structure PortSilent (s t : State) : Prop where
  rsp : t.rsp = s.rsp
  seq : t.seq = s.seq
  quiet : Quiet s t []

theorem PortSilent.of_bus_eq {s t : State} (hr : t.rsp = s.rsp) (hq : t.seq = s.seq) (hb : t.bus = s.bus) :
    PortSilent s t := ⟨hr, hq, [], by rw [hb, List.append_nil, List.append_nil], by simp⟩

/-- The returned value is no business of the host's port. -/
theorem PortSilent.setRet {s t : State} (h : PortSilent s t) (v : Ret) : PortSilent s { t with ret := v } :=
  ⟨h.rsp, h.seq, h.quiet⟩

theorem sendBytes_portSilent (bs : List Byte) (s : State) : PortSilent s (sendBytes bs s) :=
  ⟨rfl, rfl, quiet_of_send rfl⟩

theorem sendCommandFrame_portSilent (cmd : BitVec 6) (arg : Word) (s : State) :
    PortSilent s (sendCommandFrame cmd arg s) := ⟨rfl, rfl, quiet_of_send (sendCommandFrame_bus cmd arg s)⟩

theorem appPrefix_portSilent (s : State) : PortSilent s (appPrefix s) :=
  ⟨rfl, rfl, quiet_of_send ((appPrefix_bus s).trans (Bus.send_append _ _ _).symm)⟩

theorem sendCommand_portSilent (cmd : BitVec 6) (arg : Word) (fl : CmdFlags) (s : State) :
    PortSilent s (sendCommand cmd arg fl s).2 := by
  obtain ⟨rx, e, -, -, ht⟩ := sendCommand_trace cmd arg fl s
  exact ⟨by rw [sendCommand_frame], by rw [sendCommand_frame], quiet_of_bracket ht (zipWith_xfer_not_host _ _)⟩

theorem checkCommand_portSilent (cmd : BitVec 6) (arg : Word) (fl : CmdFlags) (expected m : Byte) (s : State) :
    PortSilent s (checkCommand cmd arg fl expected m s).2 := by
  have hm : (0#8).toNat + m.toNat ≤ 255 := (Nat.zero_add _).le.trans (Nat.le_of_lt_succ m.isLt)
  obtain ⟨_, evs, ht, hevs, -⟩ := attempts_counts cmd arg fl (fun r _ => compareResponse fl expected r) m.toNat
    { s with att := 0#8 } hm
  unfold checkCommand
  exact ⟨by rw [attempts_frame], by rw [attempts_frame], evs, by rw [ht, List.append_nil], hevs⟩

theorem findToken_portSilent (token : Byte) (us : Word) (s : State) : PortSilent s (findToken token us s).2 :=
  have h := findToken_inner token us s
  ⟨h.rsp, h.seq, h.quiet⟩

theorem readBlock_portSilent (cmd : BitVec 6) (arg : Word) (len : Nat) (d : BlockDest) (s : State) :
    PortSilent s (readBlock cmd arg len d s).2 := by
  obtain ⟨evs, _, ht, hevs, -⟩ := blockEnd_trace cmd arg len d s
  exact ⟨by rw [readBlock_frame], by rw [readBlock_frame],
    quiet_of_bracket (by rw [readBlock_bus]; exact ht) fun e he => isHost_of_isWait (hevs e he)⟩

theorem execReadBlock_portSilent {cmd : BitVec 6} {arg : Word} {len : Nat} {d : BlockDest} {s t : State}
    (h : execReadBlock cmd arg len d s = .next t) : PortSilent s t := by
  unfold execReadBlock at h
  split at h
  · cases h; exact (readBlock_portSilent cmd arg len d s).setRet _
  · cases h

/-- Only the requests and the statuses do anything at the host's port. -/
theorem exec_portSilent {i : Instr} {s t : State} (hi : i.isRequest = false) (hok : i ≠ .stOk) (hfail : i ≠ .stFail)
    (hnoinit : i ≠ .stNoinit) (h : exec i s = .next t) : PortSilent s t := by
  cases i with
  | init | deinit | read | write => cases hi
  | stOk => exact absurd rfl hok
  | stFail => exact absurd rfl hfail
  | stNoinit => exact absurd rfl hnoinit
  | cmd0 | cmd1 | cmd8 | cmd9 | cmd16 | cmd17 | cmd24 | acmd41 | cmd58 | cmd59On | cmd59Off =>
    cases h; exact sendCommandFrame_portSilent _ _ s
  | cmd55 => cases h; exact appPrefix_portSilent s
  | filler => cases h; exact (sendBytes_portSilent [Config.fillerByte] s).setRet _
  | startBlock => cases h; exact sendBytes_portSilent _ s
  | drspAccepted | r0None | r0Ready | r0Idle | r0V1 | crc7 | crc16 => cases h; exact .of_bus_eq rfl rfl rfl
  | sendCommand cmd arg fl => cases h; exact (sendCommand_portSilent cmd arg fl s).setRet _
  | checkCommand cmd arg fl expected m => cases h; exact (checkCommand_portSilent cmd arg fl expected m s).setRet _
  | findToken token us => cases h; exact (findToken_portSilent token us s).setRet _
  | readBlock => exact execReadBlock_portSilent h

/-! ## From an accepted request to its response -/

/-- From `s`, where the request was accepted, to `t` one response was given, last; the block is deselected and idle. -/
structure Answered (s t : State) (st : Status) : Prop where
  quiet : Quiet s t [.rsp st]
  rsp : t.rsp = some st
  seq : t.seq = []
  cs : t.cs = true

theorem Quiet.answered {s t : State} (h : Quiet s t []) (hcs : t.cs = true) (st : Status) :
    Answered s (Machine.respond st t) st := ⟨h.respond st, rfl, rfl, hcs⟩

/-- The steps of INIT between the power-up framing and the commit (43_init.md R223). -/
def initMiddle : List InitStep :=
  [.goIdle, .ifCond, .crcOn, .voltage, .opCond, .capacity, .blockLen, .writeProtect]

theorem initSteps_eq : initSteps = .powerUp :: (initMiddle ++ [.commit]) := rfl

/-- Step 1 deselects the card whatever `CS` was (R203), so INIT needs no hypothesis on it. -/
theorem runInit_answered (s : State) : ∃ st, Answered s (runInit initSteps s) st := by
  obtain ⟨t, ht, hgo⟩ := initPowerUp_cases { s with seq := (initMiddle ++ [InitStep.commit]).map .init }
  obtain ⟨st, hend⟩ := runInit_end initMiddle (by decide) t hgo.stepped.cs
  have hrun : runInit initSteps s = runInit (initMiddle ++ [.commit]) t := by
    rw [initSteps_eq, runInit_cons, initStep, ht]
  rw [hrun]
  exact ⟨st, hgo.quiet.trans hend.quiet, hend.rsp, hend.seq, hend.stepped.cs⟩

theorem deinitBody_answered {s : State} (hcs : s.cs = true) : ∃ st, Answered s (deinitBody s) st := by
  cases hd : hasFlag .deinitialized s with
  | true => rw [deinitBody_latched hd]; exact ⟨_, (Quiet.refl s).answered hcs .ok⟩
  | false =>
    rw [deinitBody_eq hd]
    have hq := (sendCommand_portSilent 0 argNone CmdFlags.none s).quiet.trans
      (sendCommand_portSilent 59 argCrcOff CmdFlags.none _).quiet
    exact ⟨_, (hq.setFlag .deinitialized).answered (by rw [setFlag_cs, sendCommand_frame]) .ok⟩

theorem readBody_answered (sector : Word) {s : State} (hcs : s.cs = true) :
    ∃ st, Answered s (readBody sector s) st := by
  cases hi : hasFlag .initialized s with
  | false => rw [readBody_closed hi]; exact ⟨_, (Quiet.refl s).answered hcs .noinit⟩
  | true =>
    rw [readBody_eq hi]
    have hq : Quiet s _ [] := (readBlock_portSilent 17 (mapSector sector s) Config.sectorSize .buf
      { s with arg := mapSector sector s }).quiet
    exact ⟨_, hq.answered (by rw [readBlock_frame]) _⟩

theorem writeBody_answered (sector : Word) {s : State} (hcs : s.cs = true) :
    ∃ st, Answered s (writeBody sector s) st := by
  cases hi : hasFlag .initialized s with
  | false => rw [writeBody_closed hi]; exact ⟨_, (Quiet.refl s).answered hcs .noinit⟩
  | true =>
    obtain ⟨u, evs, hu, ht, hevs, -, -, hend⟩ := writeBody_cases (sector := sector) hi
    have hq : Quiet s u [] := quiet_of_bracket ht fun e he => isHost_of_isWait (hevs e he)
    have hc : u.cs = true := by rw [hu]
    rcases hend with h | h <;> rw [h]
    · exact ⟨_, hq.answered hc .ok⟩
    · have hq' : Quiet s (orErr .writeError u) [] := hq
      exact ⟨_, hq'.answered hc .fail⟩

/-- The request's event in front of the operation that answers it. -/
theorem Answered.of_accept {op : BitVec 2} {sector : Word} {q : List Point} {s t : State} {st : Status}
    (h : Answered (accept op sector q s) t st) : ∃ evs, t.bus.trace = s.bus.trace ++ [.req op sector] ++ evs ++
      [.rsp st] ∧ (∀ e ∈ evs, e.isHost = false) ∧ t.rsp = some st ∧ t.seq = [] ∧ t.cs = true := by
  obtain ⟨evs, ht, hevs⟩ := h.quiet
  exact ⟨evs, ht, hevs, h.rsp, h.seq, h.cs⟩

/-- A host operation is its request, accepted, and a body that answers it. -/
theorem exec_request_answered (sector : Word) {s : State} (hcs : s.cs = true) :
    ∀ p ∈ [(Instr.init sector, 0#2), (.deinit sector, 1#2), (.read sector, 2#2), (.write sector, 3#2)],
      ∃ q t st, exec p.1 s = .next t ∧ Answered (accept p.2 sector q s) t st := by
  intro p hp
  simp only [List.mem_cons, List.not_mem_nil, or_false] at hp
  rcases hp with rfl | rfl | rfl | rfl
  · obtain ⟨st, h⟩ := runInit_answered (accept 0 sector (initSteps.map .init) s)
    exact ⟨_, _, st, rfl, h⟩
  · obtain ⟨st, h⟩ := deinitBody_answered (s := accept 1 sector [.deinit] s) hcs
    exact ⟨_, _, st, rfl, h⟩
  · obtain ⟨st, h⟩ := readBody_answered sector (s := accept 2 sector [.read sector] s) hcs
    exact ⟨_, _, st, rfl, h⟩
  · obtain ⟨st, h⟩ := writeBody_answered sector (s := accept 3 sector [.write sector] s) hcs
    exact ⟨_, _, st, rfl, h⟩

/-- Settles O48: each host operation is an accepted request and a body that ends with its one response; every other
instruction but the statuses is silent at the host's port. -/
theorem oneResponsePerRequest : Obligations.OneResponsePerRequest := by
  refine ⟨fun sector s hcs p hp => ?_, fun i s t hi hok hfail hnoinit h => ?_⟩
  · obtain ⟨q, t, st, hexec, hans⟩ := exec_request_answered sector hcs p hp
    obtain ⟨evs, hrest⟩ := hans.of_accept
    exact ⟨t, evs, st, hexec, hrest⟩
  · obtain ⟨hr, hq, evs, ht, hevs⟩ := exec_portSilent hi hok hfail hnoinit h
    exact ⟨hr, hq, evs, by rwa [List.append_nil] at ht, hevs⟩

end Sys2Proof.Machine
end

section
/-! PROOF. What the sequencer runs and what it stops at, by name (10_state.md R28; 30_encoding.md R100, R101). -/

namespace Sys2Proof.Machine

/-! ## What a unit of bytes can be -/

/-- The encoder's bytes of a host request are the request's two fields (R100; log 23). -/
theorem decode_encodeRequest (op : BitVec 2) (sector : Word) :
    decode .hreq (encodeRequest op sector) = .ok (decodeRequest op sector) := by
  have fields : ∀ op : BitVec 2, (0#6 ++ op : BitVec 8).extractLsb' 2 6 = 0#6 ∧
      (0#6 ++ op : BitVec 8).extractLsb' 0 2 = op := by decide
  obtain ⟨hzero, hop⟩ := fields op
  simp only [encodeRequest, wordBytes, decode, hzero, hop, wordOfBytes_wordBytes, ne_eq, not_true_eq_false, if_false]

theorem decodeRequest_isRequest (op : BitVec 2) (sector : Word) : (decodeRequest op sector).isRequest = true := by
  unfold decodeRequest; split <;> rfl

theorem decodeRequest_wellFormed (op : BitVec 2) (sector : Word) : wellFormed (decodeRequest op sector) = true := by
  unfold decodeRequest; split <;> rfl

theorem decodeCommand_ok {index : BitVec 6} {arg : Word} {i : Instr} (h : decodeCommand index arg = .ok i) :
    wellFormed i = true ∧ i.isRequest = false := by
  unfold decodeCommand at h
  split at h <;> try split at h
  all_goals try split at h
  all_goals cases h
  all_goals exact ⟨rfl, rfl⟩

theorem decodeStatus_ok {b : Byte} {i : Instr} (h : decodeStatus b = .ok i) :
    wellFormed i = true ∧ i.isRequest = false := by
  unfold decodeStatus at h
  split at h <;> cases h <;> exact ⟨rfl, rfl⟩

theorem decodeResponse_ok {b : Byte} {i : Instr} (h : decodeResponse b = .ok i) :
    wellFormed i = true ∧ i.isRequest = false := by
  unfold decodeResponse at h
  repeat' split at h
  all_goals cases h
  all_goals exact ⟨rfl, rfl⟩

/-- Outside the host-request format, bytes decode to an instruction the block runs at its program point. -/
theorem decode_unit_ok {f : Format} {bs : List Byte} {i : Instr} (hf : f ≠ .hreq) (h : decode f bs = .ok i) :
    wellFormed i = true ∧ i.isRequest = false := by
  unfold decode at h
  split at h
  · obtain ⟨_, _, -, hc⟩ := decode_frame_ok (bs := [_, _, _, _, _, _]) h
    exact decodeCommand_ok hc
  · exact absurd rfl hf
  · exact decodeStatus_ok h
  · split at h <;> cases h; exact ⟨rfl, rfl⟩
  · split at h <;> cases h; exact ⟨rfl, rfl⟩
  · split at h <;> cases h; exact ⟨rfl, rfl⟩
  · exact decodeResponse_ok h
  · cases h

/-- In the host-request format, bytes decode to a request. -/
theorem decode_hreq_ok {bs : List Byte} {i : Instr} (h : decode .hreq bs = .ok i) :
    ∃ op sector, i = decodeRequest op sector := by
  unfold decode at h
  split at h
  case h_2 => split at h <;> cases h; exact ⟨_, _, rfl⟩
  case h_8 => cases h
  all_goals rename_i hf; cases hf

/-! ## What the next step is -/

/-- The next step of a busy block is its program point, `SEQ` at what follows. -/
theorem step_of_point {s : State} {p : Point} {rest : List Point} (h : s.seq = p :: rest) :
    step s = runPoint p { s with seq := rest } := by
  simp only [step, runNext, h]

/-- An idle block that the host asks nothing of waits. -/
theorem step_of_waiting {s : State} (hq : s.seq = []) (hh : s.host = []) : step s = .next s := by
  simp only [step, runNext, hq, hh]

theorem runPoint_unit {f : Format} {bs : List Byte} {i : Instr} (s : State) (h : decode f bs = .ok i) :
    runPoint (.unit f bs) s = runUnit i s := by
  simp only [runPoint, h]

theorem runPoint_undecodable {f : Format} {bs : List Byte} {e : DecodeError} (s : State) (h : decode f bs = .error e) :
    runPoint (.unit f bs) s = .refused (.undecodable e) := by
  simp only [runPoint, h]

theorem runUnit_eq {i : Instr} (s : State) (hr : i.isRequest = false) (hw : wellFormed i = true) :
    runUnit i s = exec i s := by
  simp only [runUnit, hr, hw, Bool.false_eq_true, if_false, if_true]

theorem runUnit_request {i : Instr} (s : State) (hr : i.isRequest = true) :
    runUnit i s = .refused .portNotReady := if_pos hr

theorem runUnit_illFormed {i : Instr} (s : State) (hr : i.isRequest = false) (hw : wellFormed i = false) :
    runUnit i s = .refused .illFormed := by
  simp only [runUnit, hr, hw, Bool.false_eq_true, if_false]

/-- A unit that runs at the program point is a well-formed instruction other than a request, and runs as itself. -/
theorem runUnit_next {i : Instr} {s t : State} (h : runUnit i s = .next t) :
    i.isRequest = false ∧ exec i s = .next t := by
  cases hr : i.isRequest with
  | true => rw [runUnit_request s hr] at h; cases h
  | false =>
    cases hw : wellFormed i with
    | true => exact ⟨rfl, (runUnit_eq s hr hw).symm.trans h⟩
    | false => rw [runUnit_illFormed s hr hw] at h; cases h

/-- Settles O44: the step takes the program point or the host's action, and neither adds anything to `exec`. -/
theorem stepRunsTheInstruction : Obligations.StepRunsTheInstruction := by
  refine ⟨fun s f bs i rest hq hd hw hr => ?_, fun s i rest hq hw hr => ?_, fun s op sector acts i hq hh hd => ?_⟩
  · rw [step_of_point hq, runPoint_unit _ hd, runUnit_eq _ hr hw]
  · exact (step_of_point hq).trans (runUnit_eq _ hr hw)
  · obtain rfl : decodeRequest op sector = i := Except.ok.inj ((decode_encodeRequest op sector).symm.trans hd)
    exact step_of_host hq hh

theorem execReadBlock_too_long {d : BlockDest} {len : Nat} (cmd : BitVec 6) (arg : Word) (s : State)
    (h : destSize d < len) : execReadBlock cmd arg len d s = .fault .noSuchAddress := if_neg (Nat.not_le.2 h)

/-- Settles O46: a unit is decoded, then asked for its port, then for its shape; `read_block` asks for the size of its
destination before anything else. -/
theorem stopsByName : Obligations.StopsByName := by
  refine ⟨fun s rest => ⟨fun f bs e hq he => ?_, fun i hq hr => ?_, fun i hq hr hw => ?_⟩, fun cmd arg len s => ?_⟩
  · rw [step_of_point hq, runPoint_undecodable _ he]
  · exact (step_of_point hq).trans (runUnit_request _ hr)
  · exact (step_of_point hq).trans (runUnit_illFormed _ hr hw)
  · exact ⟨execReadBlock_too_long (d := .buf) cmd arg s, execReadBlock_too_long (d := .csd) cmd arg s⟩

/-! ## A table word -/

theorem decodeTableWord_some {nbits w : Nat} {i : Instr} (h : decodeTableWord nbits w = some i) :
    ∃ f bs, tableWord nbits w = some (f, bs) ∧ decode f bs = .ok i := by
  unfold decodeTableWord at h
  split at h
  · cases h
  · rename_i f bs hw
    split at h
    · cases h; exact ⟨f, bs, hw, by assumption⟩
    · cases h

theorem placeUnit_unit {f : Format} (bs : List Byte) (s : State) (hf : f ≠ .hreq) :
    placeUnit f bs s = { s with seq := .unit f bs :: s.seq } := by
  cases f with
  | hreq => exact absurd rfl hf
  | _ => rfl

/-- A request is placed at the port of the idle block by its two fields. -/
theorem placeUnit_request {bs : List Byte} {op : BitVec 2} {sector : Word} (s : State)
    (h : decode .hreq bs = .ok (decodeRequest op sector)) : ∃ op', decodeRequest op' sector = decodeRequest op sector ∧
      placeUnit .hreq bs s = { s with seq := [], host := .request op' sector :: s.host } := by
  unfold placeUnit
  rw [h]
  unfold decodeRequest
  split
  · exact ⟨0, rfl, rfl⟩
  · exact ⟨1, rfl, rfl⟩
  · exact ⟨2, rfl, rfl⟩
  · exact ⟨3, rfl, rfl⟩

/-- Settles O45: a word of the table is a request, placed at the port, or a unit, placed at the program point; the step
takes it from there. -/
theorem fetchWordRuns : Obligations.FetchWordRuns := by
  intro s nbits w i h
  obtain ⟨f, bs, hword, hd⟩ := decodeTableWord_some h
  have hplace : s.withFetchWord nbits w = placeUnit f bs s := by simp only [State.withFetchWord, hword]
  rw [hplace]
  by_cases hf : f = .hreq
  · subst hf
    obtain ⟨op, sector, rfl⟩ := decode_hreq_ok hd
    obtain ⟨op', hop, hp⟩ := placeUnit_request s hd
    refine ⟨decodeRequest_wellFormed op sector, ?_⟩
    rw [decodeRequest_isRequest, if_pos rfl, hp, step_of_host rfl rfl, ← hop]
    rfl
  · obtain ⟨hw, hr⟩ := decode_unit_ok hf hd
    refine ⟨hw, ?_⟩
    rw [hr, placeUnit_unit bs s hf, step_of_point rfl, runPoint_unit _ hd, runUnit_eq _ hr hw]
    rfl

/-! ## A status -/

/-- Settles O13: a status is the end of an operation, `respond`, by itself. -/
theorem statusesRespond : Obligations.StatusesRespond := by
  intro p hp s
  simp only [List.mem_cons, List.not_mem_nil, or_false] at hp
  obtain rfl | rfl | rfl := hp <;> exact ⟨respond _ s, rfl, rfl, rfl, fun _ => rfl⟩

end Sys2Proof.Machine
end

section
/-! PROOF. What every step keeps of the status registers, the ranges of the registers and the port of a busy block
(10_state.md R20, R21, R28, R29, R37). -/

namespace Sys2Proof.Machine

/-! ## Bits that are kept -/

theorem BitsKept.refl (a : Byte) : BitsKept a a := BitVec.and_self

theorem BitsKept.trans {a b c : Byte} (h : BitsKept a b) (k : BitsKept b c) : BitsKept a c := by
  unfold BitsKept at *
  calc a &&& c = a &&& (b &&& c) := by rw [← BitVec.and_assoc, h]
    _ = a := by rw [k, h]

theorem BitsKept.or (a m : Byte) : BitsKept a (a ||| m) := by
  unfold BitsKept
  ext k hk
  cases h : a[k] <;> simp [h]

/-! ## What every part of an operation keeps -/

/-- From `s` to `t` no bit of `FLAGS` or `ERR` was cleared, the registers stayed in their ranges, the parameters and the
host's queue are as they were, and no request was accepted. -/
structure Kept (s t : State) : Prop where
  flags : BitsKept s.flags t.flags
  reserved : s.flags &&& 0xF0#8 = 0#8 → t.flags &&& 0xF0#8 = 0#8
  err : BitsKept s.err t.err
  version : s.ver ≠ 3#2 → t.ver ≠ 3#2
  cfg : t.cfg = s.cfg
  host : t.host = s.host
  tick : s.deadline < 2 ^ s.cfg.tickW → t.deadline < 2 ^ t.cfg.tickW
  buffer : s.buf.wf = true → t.buf.wf = true
  port : ∃ evs, t.bus.trace = s.bus.trace ++ evs ∧ ∀ op sector, Event.req op sector ∉ evs

theorem Kept.trans {s t u : State} (h : Kept s t) (k : Kept t u) : Kept s u := by
  obtain ⟨e1, h1, n1⟩ := h.port
  obtain ⟨e2, h2, n2⟩ := k.port
  refine ⟨h.flags.trans k.flags, k.reserved ∘ h.reserved, h.err.trans k.err, k.version ∘ h.version, k.cfg.trans h.cfg,
    k.host.trans h.host, k.tick ∘ h.tick, k.buffer ∘ h.buffer, e1 ++ e2, by rw [h2, h1, List.append_assoc], ?_⟩
  intro op sector he
  exact (List.mem_append.1 he).elim (n1 op sector) (n2 op sector)

/-- A stretch without an event at the host's port accepts no request; nor does a response. -/
theorem Quiet.no_request {s t : State} (h : Quiet s t []) :
    ∃ evs, t.bus.trace = s.bus.trace ++ evs ∧ ∀ op sector, Event.req op sector ∉ evs := by
  obtain ⟨evs, ht, hevs⟩ := h
  exact ⟨evs, by rw [ht, List.append_nil], fun op sector he => Bool.noConfusion (hevs _ he)⟩

/-- Everything that writes only other registers, `DEADLINE` within a tick and `BUF` in canonical form, and does not act at
the host's port. -/
theorem Kept.of_frame {s t : State} (hq : Quiet s t [])
    (hd : s.deadline < 2 ^ s.cfg.tickW → t.deadline < 2 ^ s.cfg.tickW) (hb : s.buf.wf = true → t.buf.wf = true)
    (ht : t = { s with
      seq := t.seq, cs := t.cs, rate := t.rate, fb := t.fb, rb := t.rb, arg := t.arg, att := t.att, fault := t.fault
      crc := t.crc, crcRx := t.crcRx, deadline := t.deadline, csd := t.csd, buf := t.buf, rsp := t.rsp, ret := t.ret
      bus := t.bus }) : Kept s t := by
  have hport := hq.no_request
  rw [ht] at hd hb hport ⊢
  exact ⟨.refl _, id, .refl _, id, rfl, rfl, hd, hb, hport⟩

/-- Everything that writes none of these registers and does not act at the host's port. -/
theorem Kept.of_unchanged {s t : State} (hq : Quiet s t []) (ht : t = { s with
      seq := t.seq, cs := t.cs, rate := t.rate, fb := t.fb, rb := t.rb, arg := t.arg, att := t.att, fault := t.fault
      crc := t.crc, crcRx := t.crcRx, csd := t.csd, rsp := t.rsp, ret := t.ret, bus := t.bus }) : Kept s t :=
  .of_frame hq (by rw [ht]; exact id) (by rw [ht]; exact id) (by rw [ht])

theorem Kept.refl (s : State) : Kept s s := .of_unchanged (Quiet.refl s) rfl

/-- Where the sequencer stands is none of these registers. -/
theorem withSeq_kept (q : List Point) (s : State) : Kept s { s with seq := q } := .of_unchanged (Quiet.refl s) rfl

theorem Kept.setRet {s t : State} (h : Kept s t) (v : Ret) : Kept s { t with ret := v } :=
  ⟨h.flags, h.reserved, h.err, h.version, h.cfg, h.host, h.tick, h.buffer, h.port⟩

theorem Kept.setVer {s t : State} (h : Kept s t) {v : BitVec 2} (hv : v ≠ 3#2) : Kept s { t with ver := v } :=
  ⟨h.flags, h.reserved, h.err, fun _ => hv, h.cfg, h.host, h.tick, h.buffer, h.port⟩

theorem setFlag_kept (f : Flag) (s : State) : Kept s (setFlag f s) := by
  have hf : f.mask &&& 0xF0#8 = 0#8 := by cases f <;> rfl
  refine ⟨.or _ _, fun h => ?_, .refl _, id, rfl, rfl, id, id, (Quiet.refl s).no_request⟩
  rw [setFlag_flags, BitVec.and_or_distrib_right, h, hf]
  rfl

theorem orErr_kept (c : Cause) (s : State) : Kept s (orErr c s) :=
  ⟨.refl _, id, .or _ _, id, rfl, rfl, id, id, (Quiet.refl s).no_request⟩

theorem respond_kept (st : Status) (s : State) : Kept s (respond st s) :=
  ⟨.refl _, id, .refl _, id, rfl, rfl, id, id, [.rsp st], rfl, by simp⟩

theorem Kept.respond {s t : State} (h : Kept s t) (st : Status) : Kept s (respond st t) := h.trans (respond_kept st t)

theorem Kept.raise {s t : State} (h : Kept s t) (c : Cause) : Kept s (raise c t) :=
  (h.trans (orErr_kept c t)).respond .fail

/-! ## The shared operations -/

theorem sendBytes_kept (bs : List Byte) (s : State) : Kept s (sendBytes bs s) :=
  .of_unchanged (sendBytes_portSilent bs s).quiet rfl

theorem sendCommandFrame_kept (cmd : BitVec 6) (arg : Word) (s : State) : Kept s (sendCommandFrame cmd arg s) :=
  .of_unchanged (sendCommandFrame_portSilent cmd arg s).quiet rfl

theorem appPrefix_kept (s : State) : Kept s (appPrefix s) := .of_unchanged (appPrefix_portSilent s).quiet rfl

theorem sendCommand_kept (cmd : BitVec 6) (arg : Word) (fl : CmdFlags) (s : State) :
    Kept s (sendCommand cmd arg fl s).2 :=
  .of_unchanged (sendCommand_portSilent cmd arg fl s).quiet (by rw [sendCommand_frame])

theorem attempts_kept (cmd : BitVec 6) (arg : Word) (fl : CmdFlags) (ok : Byte → State → Bool) (m : Byte) (s : State) :
    Kept s (attempts cmd arg fl ok m.toNat { s with att := 0#8 }).2 := by
  have hm : (0#8).toNat + m.toNat ≤ 255 := (Nat.zero_add _).le.trans (Nat.le_of_lt_succ m.isLt)
  obtain ⟨_, evs, ht, hevs, -⟩ := attempts_counts cmd arg fl ok m.toNat { s with att := 0#8 } hm
  exact .of_unchanged ⟨evs, by rw [ht, List.append_nil], hevs⟩ (by rw [attempts_frame])

theorem checkCommand_kept (cmd : BitVec 6) (arg : Word) (fl : CmdFlags) (expected m : Byte) (s : State) :
    Kept s (checkCommand cmd arg fl expected m s).2 := attempts_kept cmd arg fl _ m s

theorem findToken_kept (token : Byte) (us : Word) (s : State) : Kept s (findToken token us s).2 :=
  .of_frame (findToken_inner token us s).quiet (findToken_inner token us s).tick id (findToken_frame token us s)

theorem blockEnd_kept (cmd : BitVec 6) (arg : Word) {len : Nat} {d : BlockDest} (s : State) (hl : len ≤ destSize d) :
    Kept s (blockEnd cmd arg len d s) := by
  obtain ⟨evs, _, ht, hevs, -⟩ := blockEnd_trace cmd arg len d s
  refine .of_frame (quiet_of_bracket ht fun e he => isHost_of_isWait (hevs e he))
    (fun _ => blockEnd_deadline cmd arg len d s) (fun h => ?_) (by rw [blockEnd_frame])
  rw [← readBlock_buf]
  exact readBlock_wf h hl

theorem blockVerdict_kept (len : Nat) (d : BlockDest) (s : State) : Kept s (blockVerdict len d s).2 := by
  have hcrc : Kept s { s with crc := crc16Of (destLoad d len s) } := .of_unchanged (Quiet.refl s) rfl
  rcases blockVerdict_cases len d s with ⟨-, h⟩ | ⟨-, -, h⟩ | ⟨-, -, h⟩ <;> rw [h]
  · exact orErr_kept .readError s
  · exact hcrc.trans (orErr_kept .crcError _)
  · exact hcrc

theorem readBlock_kept (cmd : BitVec 6) (arg : Word) {len : Nat} {d : BlockDest} (s : State) (hl : len ≤ destSize d) :
    Kept s (readBlock cmd arg len d s).2 := by
  rw [readBlock_eq]
  exact (blockEnd_kept cmd arg s hl).trans (blockVerdict_kept len d _)

/-! ## The host operations -/

theorem readBody_kept (sector : Word) (s : State) : Kept s (readBody sector s) := by
  cases hi : hasFlag .initialized s with
  | false => rw [readBody_closed hi]; exact respond_kept .noinit s
  | true =>
    rw [readBody_eq hi]
    have harg : Kept s { s with arg := mapSector sector s } := .of_unchanged (Quiet.refl s) rfl
    exact (harg.trans (readBlock_kept 17 _ (d := .buf) _ (Nat.le_refl 512))).respond _

theorem writeBody_kept (sector : Word) (s : State) : Kept s (writeBody sector s) := by
  cases hi : hasFlag .initialized s with
  | false => rw [writeBody_closed hi]; exact respond_kept .noinit s
  | true =>
    obtain ⟨u, evs, hu, ht, hevs, -, htick, hend⟩ := writeBody_cases (sector := sector) hi
    have hk : Kept s u := .of_frame (quiet_of_bracket ht fun e he => isHost_of_isWait (hevs e he)) htick
      (by rw [hu]; exact id) (by rw [hu])
    rcases hend with h | h <;> rw [h]
    · exact hk.respond .ok
    · exact hk.raise .writeError

theorem deinitBody_kept (s : State) : Kept s (deinitBody s) := by
  cases hd : hasFlag .deinitialized s with
  | true => rw [deinitBody_latched hd]; exact respond_kept .ok s
  | false =>
    rw [deinitBody_eq hd]
    have h := (sendCommand_kept 0 argNone CmdFlags.none s).trans (sendCommand_kept 59 argCrcOff CmdFlags.none _)
    exact (h.trans (setFlag_kept .deinitialized _)).respond .ok

/-! ## INIT -/

theorem orRaise_kept {s : State} {r : Bool × State} (c : Cause) (h : Kept s r.2) : Kept s (orRaise c r).state := by
  unfold orRaise
  split
  · exact h
  · exact h.raise c

theorem classify_kept (s : State) : Kept s (classify s).state := by
  unfold classify
  split
  · exact (Kept.refl s).setVer (by decide)
  · split
    · exact (Kept.refl s).setVer (by decide)
    · exact (Kept.refl s).raise _

theorem noteCapacity_kept (s : State) : Kept s (noteCapacity s) := by
  unfold noteCapacity
  split
  · exact setFlag_kept _ s
  · exact .refl s

/-- Every step of INIT, in any state. -/
theorem initStep_kept (k : InitStep) (s : State) : Kept s (initStep k s).state := by
  cases k with
  | powerUp =>
    obtain ⟨t, ht, hgo⟩ := initPowerUp_cases s
    have hs : Kept s (initPowerUp s).state := .of_unchanged (by rw [ht]; exact hgo.quiet) rfl
    exact hs
  | goIdle | crcOn | blockLen => exact orRaise_kept _ (checkCommand_kept _ _ _ _ _ s)
  | voltage => exact orRaise_kept _ (attempts_kept _ _ _ _ _ s)
  | ifCond =>
    simp only [initStep, initIfCond]
    split
    · exact (checkCommand_kept _ _ _ _ _ s).trans (classify_kept _)
    · exact (checkCommand_kept _ _ _ _ _ s).raise _
  | opCond =>
    refine orRaise_kept _ ?_
    split
    · exact checkCommand_kept _ _ _ _ _ s
    · exact checkCommand_kept _ _ _ _ _ s
  | capacity =>
    simp only [initStep, initCapacity]
    split
    · split
      · exact (checkCommand_kept _ _ _ _ _ s).trans (noteCapacity_kept _)
      · exact (checkCommand_kept _ _ _ _ _ s).raise _
    · exact .refl s
  | writeProtect =>
    have hr := readBlock_kept 9 argNone (d := .csd) s (Nat.le_refl _)
    simp only [initStep, initWriteProtect]
    split
    · split
      · exact (hr.trans (setFlag_kept _ _)).respond .fail
      · exact hr
    · exact hr.respond .fail
  | commit =>
    have hq : Quiet (setFlag .initialized s) (setRate .fast (setFlag .initialized s)) [] :=
      ⟨[.setRate .fast], (List.append_nil _).symm, by simp [Event.isHost]⟩
    exact ((setFlag_kept .initialized s).trans (.of_unchanged hq rfl)).respond .ok

theorem runInit_kept (ks : List InitStep) (s : State) : Kept s (runInit ks s) := by
  induction ks generalizing s with
  | nil => exact .refl s
  | cons k ks ih =>
    have hstep := (withSeq_kept (ks.map .init) s).trans (initStep_kept k _)
    rw [runInit_cons]
    cases hk : initStep k { s with seq := ks.map .init } with
    | go t => rw [hk] at hstep; exact hstep.trans (ih t)
    | done t => rw [hk] at hstep; exact hstep

/-! ## Every instruction and every step -/

/-- A request, once accepted. -/
theorem exec_request_kept {op : BitVec 2} {sector : Word} {s t : State}
    (h : exec (decodeRequest op sector) s = .next t) : ∃ op' sector' q, Kept (accept op' sector' q s) t := by
  unfold decodeRequest at h
  split at h <;> cases h
  · exact ⟨_, _, _, runInit_kept initSteps _⟩
  · exact ⟨_, _, _, deinitBody_kept _⟩
  · exact ⟨_, _, _, readBody_kept sector _⟩
  · exact ⟨_, _, _, writeBody_kept sector _⟩

theorem execReadBlock_kept {cmd : BitVec 6} {arg : Word} {len : Nat} {d : BlockDest} {s t : State}
    (h : execReadBlock cmd arg len d s = .next t) : Kept s t := by
  unfold execReadBlock at h
  split at h
  next hl => cases h; exact (readBlock_kept cmd arg s hl).setRet _
  next => cases h

/-- Every other instruction. -/
theorem exec_kept {i : Instr} {s t : State} (hi : i.isRequest = false) (h : exec i s = .next t) : Kept s t := by
  cases i with
  | init | deinit | read | write => cases hi
  | stOk | stFail | stNoinit => cases h; exact respond_kept _ s
  | cmd0 | cmd1 | cmd8 | cmd9 | cmd16 | cmd17 | cmd24 | acmd41 | cmd58 | cmd59On | cmd59Off =>
    cases h; exact sendCommandFrame_kept _ _ s
  | cmd55 => cases h; exact appPrefix_kept s
  | filler => cases h; exact (sendBytes_kept [Config.fillerByte] s).setRet _
  | startBlock => cases h; exact sendBytes_kept _ s
  | drspAccepted | r0None | r0Ready | r0Idle | crc7 | crc16 => cases h; exact (Kept.refl s).setRet _
  | r0V1 =>
    cases h
    refine Kept.setRet (t := { s with ver := if testV1 s.rb then 1#2 else s.ver }) ?_ _
    split
    · exact (Kept.refl s).setVer (by decide)
    · exact .refl s
  | sendCommand cmd arg fl => cases h; exact (sendCommand_kept cmd arg fl s).setRet _
  | checkCommand cmd arg fl expected m => cases h; exact (checkCommand_kept cmd arg fl expected m s).setRet _
  | findToken token us => cases h; exact (findToken_kept token us s).setRet _
  | readBlock => exact execReadBlock_kept h

theorem runPoint_kept {p : Point} {s t : State} (h : runPoint p s = .next t) : Kept s t := by
  have unit : ∀ {i : Instr}, runUnit i s = .next t → Kept s t := fun hu =>
    exec_kept (runUnit_next hu).1 (runUnit_next hu).2
  cases p with
  | init k => cases h; exact initStep_kept k s
  | deinit => cases h; exact deinitBody_kept s
  | read sector => cases h; exact readBody_kept sector s
  | write sector => cases h; exact writeBody_kept sector s
  | call i => exact unit h
  | unit f bs =>
    cases hd : decode f bs with
    | ok i => rw [runPoint_unit s hd] at h; exact unit h
    | error e => rw [runPoint_undecodable s hd] at h; cases h

/-- Everything a step can do: run the program point of a busy block, wait, or act for the host on an idle one. -/
theorem step_cases {s t : State} (h : step s = .next t) :
    (s.seq ≠ [] ∧ Kept s t) ∨
    (s.seq = [] ∧ (s.host = [] ∧ t = s ∨
      ∃ acts, s.host = .reset :: acts ∧ t = applyReset { s with host := acts } ∨
        (∃ k v, s.host = .writeBuf k v :: acts ∧ k < Config.sectorSize ∧
          t = { s with host := acts, buf := s.buf.write k v }) ∨
        ∃ op sector, s.host = .request op sector :: acts ∧
          exec (decodeRequest op sector) { s with host := acts } = .next t)) := by
  by_cases hq : s.seq = []
  · refine .inr ⟨hq, ?_⟩
    cases hh : s.host with
    | nil => rw [step_of_waiting hq hh] at h; cases h; exact .inl ⟨rfl, rfl⟩
    | cons a acts =>
      rw [step_of_host hq hh] at h
      refine .inr ⟨acts, ?_⟩
      cases a with
      | reset => cases h; exact .inl ⟨rfl, rfl⟩
      | request op sector => exact .inr (.inr ⟨op, sector, rfl, h⟩)
      | writeBuf k v =>
        by_cases hk : k < Config.sectorSize
        · rw [runHost_writeBuf v _ hk] at h; cases h; exact .inr (.inl ⟨k, v, rfl, hk, rfl⟩)
        · rw [runHost_writeBuf_no_such_address v _ (Nat.not_lt.1 hk)] at h; cases h
  · obtain ⟨p, rest, hp⟩ := List.exists_cons_of_ne_nil hq
    rw [step_of_point hp] at h
    exact .inl ⟨hq, (withSeq_kept rest s).trans (runPoint_kept h)⟩

/-- Settles O47: the port of a busy block is closed because no part of an operation touches the host's queue or accepts
a request. -/
theorem busyPortIsClosed : Obligations.BusyPortIsClosed := by
  intro s t hq h
  rcases step_cases h with ⟨-, hk⟩ | ⟨hidle, -⟩
  · exact ⟨hk.host, hk.port⟩
  · exact absurd hidle hq

/-- Settles O49: only reset lowers a bit; a host write of `BUF` and waiting leave both registers alone. -/
theorem statusBitsOnlyGrow : Obligations.StatusBitsOnlyGrow := by
  intro s t h
  rcases step_cases h with ⟨-, hk⟩ | ⟨hidle, ⟨-, rfl⟩ | ⟨acts, ⟨hh, -⟩ | ⟨k, v, -, -, rfl⟩ | ⟨op, sector, -, hx⟩⟩⟩
  · exact .inl ⟨hk.flags, hk.err⟩
  · exact .inl ⟨.refl _, .refl _⟩
  · exact .inr ⟨hidle, acts, hh⟩
  · exact .inl ⟨.refl _, .refl _⟩
  · obtain ⟨_, _, _, hk⟩ := exec_request_kept hx
    exact .inl ⟨hk.flags, hk.err⟩

/-- The ranges of R21, R29 and R37 (b), which hold in the middle of an operation too. -/
structure InRange (s : State) : Prop where
  reserved : s.flags &&& 0xF0#8 = 0#8
  version : s.ver ≠ 3#2
  tick : s.deadline < 2 ^ s.cfg.tickW
  buffer : s.buf.wf = true

theorem Kept.inRange {s t : State} (h : Kept s t) (hs : InRange s) : InRange t :=
  ⟨h.reserved hs.reserved, h.version hs.version, h.tick hs.tick, h.buffer hs.buffer⟩

theorem applyReset_inRange (s : State) : InRange (applyReset s) :=
  ⟨by show 0x00#8 &&& 0xF0#8 = 0#8; decide, by show 0#2 ≠ 3#2; decide, Nat.two_pow_pos _, rfl⟩

theorem InRange.accept {s : State} (h : InRange s) (op : BitVec 2) (sector : Word) (q : List Point) :
    InRange (accept op sector q s) := ⟨h.reserved, h.version, h.tick, h.buffer⟩

theorem step_inRange {s t : State} (hs : InRange s) (h : step s = .next t) : InRange t := by
  rcases step_cases h with ⟨-, hk⟩ | ⟨-, ⟨-, rfl⟩ | ⟨acts, ⟨-, rfl⟩ | ⟨k, v, -, hk, rfl⟩ | ⟨op, sector, -, hx⟩⟩⟩
  · exact hk.inRange hs
  · exact hs
  · exact applyReset_inRange _
  · exact ⟨hs.reserved, hs.version, hs.tick, Memory.wf_write v hs.buffer hk⟩
  · obtain ⟨_, _, _, hk⟩ := exec_request_kept hx
    have hs' : InRange { s with host := acts } := ⟨hs.reserved, hs.version, hs.tick, hs.buffer⟩
    exact hk.inRange (hs'.accept _ _ _)

/-- Settles O58: the ranges are kept by every part of an operation, and reset meets them. -/
theorem rangesKeptByEveryStep : Obligations.RangesKeptByEveryStep := by
  intro s t hreserved hversion htick hbuffer h
  obtain ⟨h1, h2, h3, h4⟩ := step_inRange ⟨hreserved, hversion, htick, hbuffer⟩ h
  exact ⟨h1, h2, h3, h4⟩

end Sys2Proof.Machine
end

section
/-! PROOF. The idle invariant (10_state.md R37, R29; 30_encoding.md R106). -/

namespace Sys2Proof.Machine

/-- What a request, answered, keeps of the two registers the retry loops and the frame builder write. -/
structure CommandRegistersKept (s t : State) : Prop where
  frame : FrameRegister s.fb → FrameRegister t.fb
  attempt : s.att.toNat ≤ 250 → t.att.toNat ≤ 250

theorem CommandRegistersKept.of_accept {op : BitVec 2} {sector : Word} {q : List Point} {s t : State}
    (h : CommandRegistersKept (accept op sector q s) t) : CommandRegistersKept s t := ⟨h.frame, h.attempt⟩

/-- INIT is its power-up framing, after which the card is deselected, and the steps that follow it (43_init.md R203). -/
theorem runInit_powerUp (s : State) : ∃ t, WentOn .powerUp { s with seq := (initMiddle ++ [InitStep.commit]).map .init } t ∧
    runInit initSteps s = runInit (initMiddle ++ [.commit]) t := by
  obtain ⟨t, ht, hgo⟩ := initPowerUp_cases { s with seq := (initMiddle ++ [InitStep.commit]).map .init }
  exact ⟨t, hgo, by rw [initSteps_eq, runInit_cons, initStep, ht]⟩

theorem runInit_commandRegisters (s : State) : CommandRegistersKept s (runInit initSteps s) := by
  obtain ⟨t, hgo, hrun⟩ := runInit_powerUp s
  obtain ⟨st, hend⟩ := runInit_end initMiddle (by decide) t hgo.stepped.cs
  rw [hrun]
  exact ⟨hend.stepped.frame ∘ hgo.stepped.frame, hend.stepped.attempt ∘ hgo.stepped.attempt⟩

theorem deinitBody_commandRegisters (s : State) : CommandRegistersKept s (deinitBody s) := by
  cases hd : hasFlag .deinitialized s with
  | true => rw [deinitBody_latched hd]; exact ⟨id, id⟩
  | false =>
    rw [deinitBody_eq hd]
    have hi := (sendCommand_inner argNone CmdFlags.none s (cmd := 0) (by decide)).trans
      (sendCommand_inner argCrcOff CmdFlags.none _ (cmd := 59) (by decide))
    exact ⟨hi.frame, hi.attempt⟩

theorem readBody_commandRegisters (sector : Word) (s : State) : CommandRegistersKept s (readBody sector s) := by
  cases hi : hasFlag .initialized s with
  | false => rw [readBody_closed hi]; exact ⟨id, id⟩
  | true =>
    rw [readBody_eq hi]
    have hr := readBlock_inner (cmd := 17) (mapSector sector s) Config.sectorSize .buf
      { s with arg := mapSector sector s } (by decide)
    exact ⟨hr.frame, hr.attempt⟩

theorem writeBody_commandRegisters (sector : Word) (s : State) : CommandRegistersKept s (writeBody sector s) := by
  cases hi : hasFlag .initialized s with
  | false => rw [writeBody_closed hi]; exact ⟨id, id⟩
  | true =>
    obtain ⟨u, _, hu, -, -, -, -, hend⟩ := writeBody_cases (sector := sector) hi
    have hk : CommandRegistersKept s u := by
      rw [hu]; exact ⟨fun _ => .inr ⟨24, _, by decide, rfl⟩, id⟩
    rcases hend with h | h <;> rw [h] <;> exact ⟨hk.frame, hk.attempt⟩

theorem exec_request_commandRegisters {op : BitVec 2} {sector : Word} {s t : State}
    (h : exec (decodeRequest op sector) s = .next t) : CommandRegistersKept s t := by
  unfold decodeRequest at h
  split at h <;> cases h
  · exact (runInit_commandRegisters _).of_accept
  · exact (deinitBody_commandRegisters _).of_accept
  · exact (readBody_commandRegisters sector _).of_accept
  · exact (writeBody_commandRegisters sector _).of_accept

/-- A request of a deselected block leaves it idle and deselected. -/
theorem exec_request_idle {op : BitVec 2} {sector : Word} {s t : State} (hcs : s.cs = true)
    (h : exec (decodeRequest op sector) s = .next t) : t.seq = [] ∧ t.cs = true := by
  unfold decodeRequest at h
  split at h <;> cases h
  · obtain ⟨_, ha⟩ := runInit_answered (accept 0 sector (initSteps.map .init) s); exact ⟨ha.seq, ha.cs⟩
  · obtain ⟨_, ha⟩ := deinitBody_answered (s := accept 1 sector [.deinit] s) hcs; exact ⟨ha.seq, ha.cs⟩
  · obtain ⟨_, ha⟩ := readBody_answered sector (s := accept 2 sector [.read sector] s) hcs; exact ⟨ha.seq, ha.cs⟩
  · obtain ⟨_, ha⟩ := writeBody_answered sector (s := accept 3 sector [.write sector] s) hcs; exact ⟨ha.seq, ha.cs⟩

theorem IdleInv.inRange {s : State} (h : IdleInv s) : InRange s := ⟨h.reserved, h.version, h.tick, h.buffer⟩

theorem InRange.idleInv {s : State} (h : InRange s) (hq : s.seq = []) (hcs : s.cs = true) (ha : s.att.toNat ≤ 250)
    (hf : FrameRegister s.fb) : IdleInv s := ⟨hq, hcs, h.reserved, h.version, ha, h.tick, hf, h.buffer⟩

theorem applyReset_idleInv (s : State) : IdleInv (applyReset s) :=
  (applyReset_inRange s).idleInv rfl rfl (Nat.zero_le _) (.inl rfl)

/-- Settles O57: reset puts every register of the invariant at a value it allows, whatever stood before. -/
theorem resetMeetsTheInvariant : Obligations.ResetMeetsTheInvariant := applyReset_idleInv State.reset

/-- Settles O56: the ranges are kept by every step at all; an idle block waits, is reset, has a byte of `BUF` written, or
answers a request, which leaves it idle and deselected. -/
theorem idleInvariantKept : Obligations.IdleInvariantKept := by
  intro s t hs h
  have hr : InRange t := step_inRange hs.inRange h
  rcases step_cases h with ⟨hbusy, -⟩ | ⟨-, ⟨-, rfl⟩ | ⟨acts, ⟨-, rfl⟩ | ⟨k, v, -, -, rfl⟩ | ⟨op, sector, -, hx⟩⟩⟩
  · exact absurd hs.idle hbusy
  · exact hs
  · exact applyReset_idleInv _
  · exact hr.idleInv hs.idle hs.deselected hs.attempt hs.frame
  · obtain ⟨hseq, hcs⟩ := exec_request_idle (s := { s with host := acts }) hs.deselected hx
    have hc := exec_request_commandRegisters hx
    exact hr.idleInv hseq hcs (hc.attempt hs.attempt) (hc.frame hs.frame)

end Sys2Proof.Machine
end

section
/-! PROOF. INIT as its ten steps, and the clock rate it selects (43_init.md R200, R223; 10_state.md R28, R33). -/

namespace Sys2Proof.Machine

/-! ## INIT step by step -/

theorem run_succ {s t : State} (n : Nat) (h : step s = .next t) :
    Host.Core.run core (n + 1) s = Host.Core.run core n t := by
  have hs : core.step s = .next t := h
  simp only [Host.Core.run, hs]

/-- From the program point of a step of INIT on, the sequencer runs that step and those that follow it, and stops where
INIT ends. Only step 1 may find the card selected. -/
theorem run_initSteps (ks : List InitStep) (s : State) (hcs : ks.head? = some .powerUp ∨ s.cs = true)
    (hq : s.seq = ks.map .init) : ∃ n ≤ ks.length, Host.Core.run core n s = .next (runInit ks s) := by
  induction ks generalizing s with
  | nil => exact ⟨0, Nat.le_refl _, rfl⟩
  | cons k ks ih =>
    have hstep : step s = .next (initStep k { s with seq := ks.map .init }).state := step_of_point hq
    have hcs' : k ≠ .powerUp → s.cs = true := fun hk => hcs.resolve_left fun h => hk (Option.some.inj h)
    rw [runInit_cons]
    rcases initStep_cases k { s with seq := ks.map .init } hcs' with ⟨t, ht, hgo⟩ | ⟨t, st, ht, -⟩
    · rw [ht] at hstep ⊢
      obtain ⟨n, hn, hrun⟩ := ih t (.inr hgo.stepped.cs) hgo.seq
      exact ⟨n + 1, Nat.succ_le_succ hn, (run_succ n hstep).trans hrun⟩
    · rw [ht] at hstep ⊢
      exact ⟨1, Nat.succ_le_succ (Nat.zero_le _), run_succ 0 hstep⟩

/-- Settles O36: the accepted request stands at step 1, from where the sequencer runs the ten steps. -/
theorem initIsItsTenSteps : Obligations.InitIsItsTenSteps := by
  intro sector s
  obtain ⟨k, hk, hrun⟩ := run_initSteps initSteps (accept 0 sector (initSteps.map .init) s) (.inl rfl) rfl
  exact ⟨k, _, hk, rfl, hrun⟩

/-! ## The clock rate -/

/-- INIT answers ST_OK at the high rate or ST_FAIL at the rate step 1 selects (R33). -/
theorem runInit_rate (s : State) :
    ((runInit initSteps s).rsp = some .ok ∧ (runInit initSteps s).rate = .fast) ∨
    ((runInit initSteps s).rsp = some .fail ∧ (runInit initSteps s).rate = .init) := by
  obtain ⟨t, hgo, hrun⟩ := runInit_powerUp s
  obtain ⟨st, hend⟩ := runInit_end initMiddle (by decide) t hgo.stepped.cs
  have ht : t.rate = .init := hgo.rate
  rw [hrun, hend.rsp]
  rcases hend.cause with ⟨rfl, -, -, hr⟩ | ⟨rfl, -, -, hr⟩ | ⟨rfl, -, -, hr, -⟩
  · exact .inl ⟨rfl, hr⟩
  · exact .inr ⟨rfl, hr.trans ht⟩
  · exact .inr ⟨rfl, hr.trans ht⟩

theorem sendCommand_rate (cmd : BitVec 6) (arg : Word) (fl : CmdFlags) (s : State) :
    (sendCommand cmd arg fl s).2.rate = s.rate := by rw [sendCommand_frame]

theorem checkCommand_rate (cmd : BitVec 6) (arg : Word) (fl : CmdFlags) (expected m : Byte) (s : State) :
    (checkCommand cmd arg fl expected m s).2.rate = s.rate := by unfold checkCommand; rw [attempts_frame]

theorem readBlock_rate (cmd : BitVec 6) (arg : Word) (len : Nat) (d : BlockDest) (s : State) :
    (readBlock cmd arg len d s).2.rate = s.rate := by rw [readBlock_frame]

theorem execReadBlock_rate {cmd : BitVec 6} {arg : Word} {len : Nat} {d : BlockDest} {s t : State}
    (h : execReadBlock cmd arg len d s = .next t) : t.rate = s.rate := by
  unfold execReadBlock at h
  split at h <;> cases h
  exact readBlock_rate cmd arg len d s

theorem deinitBody_rate (s : State) : (deinitBody s).rate = s.rate := by
  cases hd : hasFlag .deinitialized s with
  | true => rw [deinitBody_latched hd, respond_rate]
  | false => rw [deinitBody_eq hd, respond_rate, setFlag_rate, sendCommand_rate, sendCommand_rate]

theorem readBody_rate (sector : Word) (s : State) : (readBody sector s).rate = s.rate := by
  cases hi : hasFlag .initialized s with
  | false => rw [readBody_closed hi, respond_rate]
  | true => rw [readBody_eq hi, respond_rate, readBlock_rate]

theorem writeBody_rate (sector : Word) (s : State) : (writeBody sector s).rate = s.rate := by
  cases hi : hasFlag .initialized s with
  | false => rw [writeBody_closed hi, respond_rate]
  | true =>
    obtain ⟨u, _, hu, -, -, -, -, hend⟩ := writeBody_cases (sector := sector) hi
    have hr : u.rate = s.rate := by rw [hu]
    rcases hend with h | h <;> rw [h]
    · exact hr
    · exact hr

/-- Every instruction but INIT leaves the clock rate alone. -/
theorem exec_rate {i : Instr} {s t : State} (hi : ∀ sector, i ≠ .init sector) (h : exec i s = .next t) :
    t.rate = s.rate := by
  cases i with
  | init sector => exact absurd rfl (hi sector)
  | deinit sector => cases h; exact deinitBody_rate _
  | read sector => cases h; exact readBody_rate sector _
  | write sector => cases h; exact writeBody_rate sector _
  | sendCommand cmd arg fl => cases h; exact sendCommand_rate cmd arg fl s
  | checkCommand cmd arg fl expected m => cases h; exact checkCommand_rate cmd arg fl expected m s
  | readBlock => exact execReadBlock_rate h
  | _ => cases h; rfl

/-- Settles O54: INIT's own steps select the rate, and its ending tells which; nothing else does. -/
theorem rateFollowsInit : Obligations.RateFollowsInit := by
  refine ⟨rfl, fun i s t h => ⟨?_, fun hi => exec_rate hi h⟩⟩
  rintro sector rfl
  cases h
  exact runInit_rate _

end Sys2Proof.Machine
end

section
/-! PROOF. The outcome of READ (44_block_io.md R252 to R257, R262, R263). -/

namespace Sys2Proof.Machine

/-- The state READ's read-block starts from: the request accepted, the mapped sector in `ARG`. -/
def readStart (sector : Word) (s : State) : State :=
  { accept 2 sector [.read sector] s with arg := mapSector sector s }

theorem execRead_eq {sector : Word} {s : State} (h : s.flags.getLsbD 0 = true) : execRead sector s = .next
    (respond (if (readBlock 17 (mapSector sector s) Config.sectorSize .buf (readStart sector s)).1 then .ok else .fail)
      (readBlock 17 (mapSector sector s) Config.sectorSize .buf (readStart sector s)).2) :=
  congrArg Host.Outcome.next (readBody_eq ((hasFlag_initialized s).trans h))

/-- Settles O27: READ is one read-block into `BUF` and the response that its verdict calls for. -/
theorem readOutcome : Obligations.ReadOutcome := by
  intro sector s hflag
  have hexec : exec (.read sector) s = _ := execRead_eq (sector := sector) hflag
  obtain ⟨evs, -, skip, scan, wait, payload, hi, lo, idle, htrace, hevs, -, -, hrecv, hskip, hpayload, hscan, hwait, hidle,
    hfault, hcrcRx, hbuf, hcsd, hverdict⟩ :=
    readBlock_history 17 (mapSector sector s) Config.sectorSize .buf (readStart sector s)
  have hframe := readBlock_frame 17 (mapSector sector s) Config.sectorSize .buf (readStart sector s)
  generalize readBlock 17 (mapSector sector s) Config.sectorSize .buf (readStart sector s) = r at *
  refine ⟨_, evs, if r.1 then .ok else .fail, skip, scan, wait, payload, hi, lo, idle, hexec, ?_, hevs, rfl, hrecv, hskip,
    hscan, hwait, hpayload, hidle, hcrcRx, fun hwf => ?_, hfault, ?_, ?_, fun a ha => ?_⟩
  · have hstart : (readStart sector s).bus.trace = s.bus.trace ++ [.req 2 sector] := rfl
    rw [respond_bus, Bus.emit, htrace, hstart]
    simp only [List.append_assoc, List.cons_append, List.nil_append]
  · exact destLoad_destStore (d := .buf) hpayload hwf hbuf hcsd
  · rcases hverdict with ⟨hf, hr, he, -⟩ | ⟨hf, hc, hne, hr, he⟩ | ⟨hf, hc, heq, hr, he⟩ <;> rw [hr]
    · exact .inl ⟨rfl, hf, he⟩
    · exact .inr (.inl ⟨rfl, hf, hc, hne, he⟩)
    · exact .inr (.inr ⟨rfl, hf, hc, heq, he⟩)
  · have hsame : r.2.csd = s.csd := hcsd
    rw [hframe, hsame]; rfl
  · have hstored : r.2.buf = s.buf.store 0 payload := hbuf
    rw [respond_buf, hstored]
    exact Memory.read_store_above (by rw [hpayload, Nat.zero_add]; exact ha)

end Sys2Proof.Machine
end

section
/-! PROOF. `ERR` and `write_protected` are never read (10_state.md R24, R27): whatever is OR-ed into the two status registers
beforehand, every instruction does the same and leaves it there. -/

namespace Sys2Proof.Machine

/-! ## OR-ing into the status registers -/

/-- `m` OR-ed into `ERR` and `w` into `FLAGS`. -/
def orStatus (m w : Byte) (s : State) : State := { s with flags := s.flags ||| w, err := m ||| s.err }

/-- No field of `FLAGS` but `write_protected` has a bit in `w`. -/
def OnlyWriteProtected (w : Byte) : Prop := ∀ f : Flag, f ≠ .writeProtected → w &&& f.mask = 0#8

theorem onlyWriteProtected_zero : OnlyWriteProtected 0x00#8 := fun f _ => by cases f <;> rfl

theorem onlyWriteProtected_mask : OnlyWriteProtected 0x04#8 := fun f hf => by
  cases f with
  | writeProtected => exact absurd rfl hf
  | _ => rfl

section
variable {m w : Byte}

@[simp] theorem orStatus_rb (s : State) : (orStatus m w s).rb = s.rb := rfl
@[simp] theorem orStatus_ver (s : State) : (orStatus m w s).ver = s.ver := rfl
@[simp] theorem orStatus_fault (s : State) : (orStatus m w s).fault = s.fault := rfl
@[simp] theorem orStatus_crc (s : State) : (orStatus m w s).crc = s.crc := rfl
@[simp] theorem orStatus_crcRx (s : State) : (orStatus m w s).crcRx = s.crcRx := rfl
@[simp] theorem orStatus_csd (s : State) : (orStatus m w s).csd = s.csd := rfl
@[simp] theorem orStatus_buf (s : State) : (orStatus m w s).buf = s.buf := rfl
@[simp] theorem orStatus_cfg (s : State) : (orStatus m w s).cfg = s.cfg := rfl

/-- The three other fields of `FLAGS` read the same. -/
theorem hasFlag_orStatus {f : Flag} (hw : OnlyWriteProtected w) (hf : f ≠ .writeProtected) (s : State) :
    hasFlag f (orStatus m w s) = hasFlag f s := by
  simp only [hasFlag, orStatus, BitVec.and_or_distrib_right, hw f hf, BitVec.or_zero]

theorem mapSector_orStatus (hw : OnlyWriteProtected w) (sector : Word) (s : State) :
    mapSector sector (orStatus m w s) = mapSector sector s := by
  simp only [mapSector, hasFlag_orStatus hw (by decide : Flag.highCapacity ≠ .writeProtected)]

theorem setFlag_orStatus (f : Flag) (s : State) : setFlag f (orStatus m w s) = orStatus m w (setFlag f s) := by
  have h : s.flags ||| w ||| f.mask = s.flags ||| f.mask ||| w := by
    rw [BitVec.or_assoc, BitVec.or_comm w, BitVec.or_assoc]
  simp only [setFlag, orStatus, h]

theorem orErr_orStatus (c : Cause) (s : State) : orErr c (orStatus m w s) = orStatus m w (orErr c s) := by
  simp only [orErr, orStatus, BitVec.or_assoc]

theorem respond_orStatus (st : Status) (s : State) : respond st (orStatus m w s) = orStatus m w (respond st s) := rfl

theorem raise_orStatus (c : Cause) (s : State) : raise c (orStatus m w s) = orStatus m w (raise c s) := by
  simp only [raise, orErr_orStatus, respond_orStatus]

theorem accept_orStatus (op : BitVec 2) (sector : Word) (q : List Point) (s : State) :
    accept op sector q (orStatus m w s) = orStatus m w (accept op sector q s) := rfl

theorem acquire_orStatus (s : State) : acquire (orStatus m w s) = orStatus m w (acquire s) := rfl

theorem release_orStatus (s : State) : release (orStatus m w s) = orStatus m w (release s) := rfl

/-! ## The shared operations -/

theorem sendBytes_orStatus (bs : List Byte) (s : State) : sendBytes bs (orStatus m w s) = orStatus m w (sendBytes bs s) :=
  rfl

theorem sendCommandFrame_orStatus (cmd : BitVec 6) (arg : Word) (s : State) :
    sendCommandFrame cmd arg (orStatus m w s) = orStatus m w (sendCommandFrame cmd arg s) := rfl

theorem appPrefix_orStatus (s : State) : appPrefix (orStatus m w s) = orStatus m w (appPrefix s) := rfl

theorem transmitCommand_orStatus (cmd : BitVec 6) (arg : Word) (app : Bool) (s : State) :
    transmitCommand cmd arg app (orStatus m w s) = orStatus m w (transmitCommand cmd arg app s) := by
  cases app with
  | false => exact sendCommandFrame_orStatus cmd arg s
  | true => exact (congrArg _ (appPrefix_orStatus s)).trans (sendCommandFrame_orStatus cmd arg (appPrefix s))

theorem readWindow_orStatus (s : State) : readWindow (orStatus m w s) = orStatus m w (readWindow s) := rfl

theorem completeResponse_orStatus (full : Bool) (s : State) :
    completeResponse full (orStatus m w s) = orStatus m w (completeResponse full s) := by
  unfold completeResponse
  rw [orStatus_rb]
  cases firstResponse s.rb <;> rfl

theorem sendCommand_orStatus (cmd : BitVec 6) (arg : Word) (fl : CmdFlags) (s : State) :
    sendCommand cmd arg fl (orStatus m w s) = Prod.map id (orStatus m w) (sendCommand cmd arg fl s) := by
  have hread : windowRead cmd arg fl (orStatus m w s) = orStatus m w (windowRead cmd arg fl s) := by
    rw [windowRead, acquire_orStatus, transmitCommand_orStatus, readWindow_orStatus, windowRead]
  have hsend : ∀ u, sendCommand cmd arg fl u = ((release (completeResponse fl.fullResponse (windowRead cmd arg fl u))).rb[0],
      release (completeResponse fl.fullResponse (windowRead cmd arg fl u))) := fun _ => rfl
  rw [hsend, hsend, hread, completeResponse_orStatus]
  rfl

/-- The state after one attempt of the retry loop, counted in `ATT` (42_policies.md R181). -/
def attempted (cmd : BitVec 6) (arg : Word) (fl : CmdFlags) (s : State) : State :=
  { (sendCommand cmd arg fl s).2 with att := (sendCommand cmd arg fl s).2.att + 1 }

theorem attempts_succ (cmd : BitVec 6) (arg : Word) (fl : CmdFlags) (ok : Byte → State → Bool) (n : Nat) (s : State) :
    attempts cmd arg fl ok (n + 1) s =
      if ok (sendCommand cmd arg fl s).1 (attempted cmd arg fl s) then (true, attempted cmd arg fl s)
      else if n = 0 then (false, attempted cmd arg fl s)
      else attempts cmd arg fl ok n (delay Config.retrySpacingUs (attempted cmd arg fl s)) := rfl

theorem attempted_orStatus (cmd : BitVec 6) (arg : Word) (fl : CmdFlags) (s : State) :
    attempted cmd arg fl (orStatus m w s) = orStatus m w (attempted cmd arg fl s) := by
  unfold attempted
  rw [sendCommand_orStatus]
  rfl

theorem attempts_orStatus (cmd : BitVec 6) (arg : Word) (fl : CmdFlags) {ok : Byte → State → Bool}
    (hok : ∀ b t, ok b (orStatus m w t) = ok b t) (n : Nat) (s : State) :
    attempts cmd arg fl ok n (orStatus m w s) = Prod.map id (orStatus m w) (attempts cmd arg fl ok n s) := by
  induction n generalizing s with
  | zero => rfl
  | succ n ih =>
    have hresponse : (sendCommand cmd arg fl (orStatus m w s)).1 = (sendCommand cmd arg fl s).1 := by
      rw [sendCommand_orStatus]; rfl
    have hdelay : ∀ u, delay Config.retrySpacingUs (orStatus m w u) = orStatus m w (delay Config.retrySpacingUs u) :=
      fun _ => rfl
    rw [attempts_succ, attempts_succ, hresponse, attempted_orStatus, hok, hdelay, ih]
    split
    · rfl
    · split <;> rfl

theorem checkCommand_orStatus (cmd : BitVec 6) (arg : Word) (fl : CmdFlags) (expected n : Byte) (s : State) :
    checkCommand cmd arg fl expected n (orStatus m w s) =
      Prod.map id (orStatus m w) (checkCommand cmd arg fl expected n s) :=
  attempts_orStatus cmd arg fl (fun _ _ => rfl) n.toNat { s with att := 0#8 }

theorem findToken_orStatus (token : Byte) (us : Word) (s : State) :
    findToken token us (orStatus m w s) = Prod.map id (orStatus m w) (findToken token us s) := rfl

theorem blockDrain_orStatus (len : Nat) (d : BlockDest) (s : State) :
    blockDrain len d (orStatus m w s) = orStatus m w (blockDrain len d s) := by
  cases d <;> rfl

theorem blockEnd_orStatus (cmd : BitVec 6) (arg : Word) (len : Nat) (d : BlockDest) (s : State) :
    blockEnd cmd arg len d (orStatus m w s) = orStatus m w (blockEnd cmd arg len d s) := by
  have hopen : blockOpen cmd arg (orStatus m w s) = orStatus m w (blockOpen cmd arg s) := rfl
  have hscan : ∀ u, blockScan (orStatus m w u) = orStatus m w (blockScan u) := fun _ => rfl
  have hwait : ∀ token u, blockWait token (orStatus m w u) = orStatus m w (blockWait token u) := fun _ _ => rfl
  rw [blockEnd, hopen, hscan, hwait, blockDrain_orStatus, hwait, release_orStatus, blockEnd]

theorem destLoad_orStatus (d : BlockDest) (len : Nat) (s : State) :
    destLoad d len (orStatus m w s) = destLoad d len s := by
  cases d <;> rfl

theorem blockVerdict_orStatus (len : Nat) (d : BlockDest) (s : State) :
    blockVerdict len d (orStatus m w s) = Prod.map id (orStatus m w) (blockVerdict len d s) := by
  simp only [blockVerdict, orStatus_fault, destLoad_orStatus, orErr_orStatus, orStatus_crcRx]
  split
  · rfl
  · split
    · exact congrArg (Prod.mk false) (orErr_orStatus .crcError { s with crc := crc16Of (destLoad d len s) })
    · rfl

theorem readBlock_orStatus (cmd : BitVec 6) (arg : Word) (len : Nat) (d : BlockDest) (s : State) :
    readBlock cmd arg len d (orStatus m w s) = Prod.map id (orStatus m w) (readBlock cmd arg len d s) := by
  rw [readBlock_eq, readBlock_eq, blockEnd_orStatus, blockVerdict_orStatus]

/-! ## The host operations -/

theorem readBody_orStatus (hw : OnlyWriteProtected w) (sector : Word) (s : State) :
    readBody sector (orStatus m w s) = orStatus m w (readBody sector s) := by
  have hi := hasFlag_orStatus (m := m) hw (by decide : Flag.initialized ≠ .writeProtected) s
  have harg : ∀ a : Word, { orStatus m w s with arg := a } = orStatus m w { s with arg := a } := fun _ => rfl
  cases h : hasFlag .initialized s with
  | false => rw [readBody_closed h, readBody_closed (hi.trans h), respond_orStatus]
  | true =>
    rw [readBody_eq h, readBody_eq (hi.trans h), mapSector_orStatus hw, harg, readBlock_orStatus, Prod.map_fst,
      Prod.map_snd, id, respond_orStatus]

theorem writeAsked_orStatus (hw : OnlyWriteProtected w) (sector : Word) (s : State) :
    writeAsked sector (orStatus m w s) = orStatus m w (writeAsked sector s) := by
  have hprepare : writePrepare sector (orStatus m w s) = orStatus m w (writePrepare sector s) := by
    unfold writePrepare
    rw [mapSector_orStatus hw]
    rfl
  have hcommand : ∀ u, writeCommand (orStatus m w u) = orStatus m w (writeCommand u) := fun _ => rfl
  rw [writeAsked, hprepare, hcommand, writeAsked]

theorem writeFinish_orStatus (s : State) : writeFinish (orStatus m w s) = orStatus m w (writeFinish s) := by
  have hdata : writeData (orStatus m w s) = orStatus m w (writeData s) := by
    unfold writeData
    rw [orStatus_buf, orStatus_crc, sendBytes_orStatus]
  have hend : writeEnd (orStatus m w s) = orStatus m w (writeEnd s) := by
    rw [writeEnd, hdata, readWindow_orStatus, findToken_orStatus, Prod.map_snd, release_orStatus, writeEnd]
  rw [writeFinish_eq, writeFinish_eq, hend, hdata, readWindow_orStatus, findToken_orStatus, Prod.map_fst, id, orStatus_rb,
    respond_orStatus, raise_orStatus]
  exact (apply_ite (orStatus m w) _ _ _).symm

theorem writeBody_orStatus (hw : OnlyWriteProtected w) (sector : Word) (s : State) :
    writeBody sector (orStatus m w s) = orStatus m w (writeBody sector s) := by
  have hi := hasFlag_orStatus (m := m) hw (by decide : Flag.initialized ≠ .writeProtected) s
  cases h : hasFlag .initialized s with
  | false => rw [writeBody_closed h, writeBody_closed (hi.trans h), respond_orStatus]
  | true =>
    rw [writeBody_eq h, writeBody_eq (hi.trans h), writeAsked_orStatus hw, writeFinish_orStatus, release_orStatus,
      raise_orStatus, orStatus_rb]
    split <;> rfl

theorem deinitBody_orStatus (hw : OnlyWriteProtected w) (s : State) :
    deinitBody (orStatus m w s) = orStatus m w (deinitBody s) := by
  have hd := hasFlag_orStatus (m := m) hw (by decide : Flag.deinitialized ≠ .writeProtected) s
  cases h : hasFlag .deinitialized s with
  | true => rw [deinitBody_latched h, deinitBody_latched (hd.trans h), respond_orStatus]
  | false =>
    rw [deinitBody_eq h, deinitBody_eq (hd.trans h), sendCommand_orStatus, Prod.map_snd, sendCommand_orStatus,
      Prod.map_snd, setFlag_orStatus, respond_orStatus]

/-! ## INIT -/

/-- An ending of a step of INIT, its state sent through `f`. -/
def StepEnd.map (f : State → State) : StepEnd → StepEnd
  | .go s => .go (f s)
  | .done s => .done (f s)

theorem orRaise_orStatus (c : Cause) (r : Bool × State) :
    orRaise c (Prod.map id (orStatus m w) r) = (orRaise c r).map (orStatus m w) := by
  obtain ⟨_ | _, t⟩ := r
  · exact congrArg StepEnd.done (raise_orStatus c t)
  · rfl

theorem classify_orStatus (s : State) : classify (orStatus m w s) = (classify s).map (orStatus m w) := by
  unfold classify
  rw [raise_orStatus, orStatus_rb, orStatus_cfg]
  split
  · rfl
  · split <;> rfl

theorem noteCapacity_orStatus (s : State) : noteCapacity (orStatus m w s) = orStatus m w (noteCapacity s) := by
  unfold noteCapacity
  rw [setFlag_orStatus, orStatus_rb]
  split <;> rfl

theorem initStep_orStatus (k : InitStep) (s : State) :
    initStep k (orStatus m w s) = (initStep k s).map (orStatus m w) := by
  cases k with
  | powerUp => rfl
  | goIdle | crcOn | blockLen =>
    exact (congrArg (orRaise _) (checkCommand_orStatus _ _ _ _ _ s)).trans (orRaise_orStatus _ _)
  | voltage =>
    exact (congrArg (orRaise _) (attempts_orStatus _ _ _ (fun _ _ => rfl) _ { s with att := 0#8 })).trans
      (orRaise_orStatus _ _)
  | ifCond =>
    simp only [initStep, initIfCond, orStatus_cfg, checkCommand_orStatus, Prod.map_fst, Prod.map_snd, id,
      classify_orStatus, raise_orStatus]
    split <;> rfl
  | opCond =>
    simp only [initStep, initOpCond, orStatus_ver, checkCommand_orStatus, ← apply_ite (Prod.map id (orStatus m w))]
    exact orRaise_orStatus _ _
  | capacity =>
    simp only [initStep, initCapacity, orStatus_ver, checkCommand_orStatus, Prod.map_fst, Prod.map_snd, id,
      noteCapacity_orStatus, raise_orStatus]
    split
    · split <;> rfl
    · rfl
  | writeProtect =>
    simp only [initStep, initWriteProtect, readBlock_orStatus, Prod.map_fst, Prod.map_snd, id, orStatus_csd,
      setFlag_orStatus, respond_orStatus]
    split
    · split <;> rfl
    · rfl
  | commit =>
    simp only [initStep, initCommit, setFlag_orStatus]
    rfl

theorem runInit_orStatus (ks : List InitStep) (s : State) : runInit ks (orStatus m w s) = orStatus m w (runInit ks s) := by
  induction ks generalizing s with
  | nil => rfl
  | cons k ks ih =>
    have hseq : { orStatus m w s with seq := ks.map .init } = orStatus m w { s with seq := ks.map .init } := rfl
    rw [runInit_cons, runInit_cons, hseq, initStep_orStatus]
    cases initStep k { s with seq := ks.map .init } with
    | go t => exact ih t
    | done t => rfl

/-! ## Every instruction -/

/-- The next state of an outcome sent through `f`. -/
def mapNext (f : State → State) : Host.Outcome State Fault Refusal → Host.Outcome State Fault Refusal
  | .next s => .next (f s)
  | .fault r => .fault r
  | .refused r => .refused r

theorem mapNext_eq_next {f : State → State} {o : Host.Outcome State Fault Refusal} {t : State}
    (h : mapNext f o = .next t) : ∃ u, o = .next u ∧ t = f u := by
  cases o with
  | next u => exact ⟨u, rfl, (Host.Outcome.next.inj h).symm⟩
  | fault | refused => cases h

theorem execReadBlock_orStatus (cmd : BitVec 6) (arg : Word) (len : Nat) (d : BlockDest) (s : State) :
    execReadBlock cmd arg len d (orStatus m w s) = mapNext (orStatus m w) (execReadBlock cmd arg len d s) := by
  simp only [execReadBlock, readBlock_orStatus]
  split <;> rfl

/-- An instruction that runs a state function does the same if its function does. -/
theorem exec_orStatus_of_next {i : Instr} {f : State → State} (hi : ∀ u, exec i u = .next (f u))
    (hf : ∀ u, f (orStatus m w u) = orStatus m w (f u)) (s : State) :
    exec i (orStatus m w s) = mapNext (orStatus m w) (exec i s) := by
  rw [hi, hi, hf, mapNext]

/-- Every instruction does the same with more bits of `ERR` and `write_protected` set, and leaves them set. -/
theorem exec_orStatus (hw : OnlyWriteProtected w) (i : Instr) (s : State) :
    exec i (orStatus m w s) = mapNext (orStatus m w) (exec i s) := by
  cases i with
  | cmd0 | cmd1 | cmd8 | cmd9 | cmd16 | cmd17 | cmd24 | acmd41 | cmd58 | cmd59On | cmd59Off =>
    exact exec_orStatus_of_next (f := sendCommandFrame _ _) (fun _ => rfl) (sendCommandFrame_orStatus _ _) s
  | cmd55 => exact exec_orStatus_of_next (fun _ => rfl) appPrefix_orStatus s
  | init sector =>
    exact exec_orStatus_of_next (f := fun u => runInit initSteps (accept 0 sector (initSteps.map .init) u)) (fun _ => rfl)
      (fun u => by rw [accept_orStatus, runInit_orStatus]) s
  | deinit sector =>
    exact exec_orStatus_of_next (f := fun u => deinitBody (accept 1 sector [.deinit] u)) (fun _ => rfl)
      (fun u => by rw [accept_orStatus, deinitBody_orStatus hw]) s
  | read sector =>
    exact exec_orStatus_of_next (f := fun u => readBody sector (accept 2 sector [.read sector] u)) (fun _ => rfl)
      (fun u => by rw [accept_orStatus, readBody_orStatus hw]) s
  | write sector =>
    exact exec_orStatus_of_next (f := fun u => writeBody sector (accept 3 sector [.write sector] u)) (fun _ => rfl)
      (fun u => by rw [accept_orStatus, writeBody_orStatus hw]) s
  | stOk | stFail | stNoinit => exact exec_orStatus_of_next (f := respond _) (fun _ => rfl) (respond_orStatus _) s
  | startBlock => exact exec_orStatus_of_next (f := sendBytes _) (fun _ => rfl) (sendBytes_orStatus _) s
  | filler | drspAccepted | r0None | r0Ready | r0Idle | r0V1 | crc7 | crc16 => rfl
  | sendCommand cmd arg fl =>
    exact exec_orStatus_of_next (f := fun u => { (sendCommand cmd arg fl u).2 with ret := .byte (sendCommand cmd arg fl u).1 })
      (fun _ => rfl) (fun u => by rw [sendCommand_orStatus]; rfl) s
  | checkCommand cmd arg fl expected n =>
    exact exec_orStatus_of_next (f := fun u => { (checkCommand cmd arg fl expected n u).2 with
      ret := .bool (checkCommand cmd arg fl expected n u).1 })
      (fun _ => rfl) (fun u => by rw [checkCommand_orStatus]; rfl) s
  | findToken token us => rfl
  | readBlock cmd arg len d => exact execReadBlock_orStatus cmd arg len d s

end

/-- Settles O50: the run from the state with `ERR` cleared decides what every other run does, and what it leaves in `ERR`
is the mask. -/
theorem errIsNeverRead : Obligations.ErrIsNeverRead := by
  intro i s t h
  have hset : ∀ e : Byte, { s with err := e } = orStatus e 0x00#8 { s with err := 0x00#8 } := fun e => by
    simp only [orStatus, BitVec.or_zero]
  have hexec : ∀ e : Byte, exec i { s with err := e } = mapNext (orStatus e 0x00#8) (exec i { s with err := 0x00#8 }) :=
    fun e => by rw [hset, exec_orStatus onlyWriteProtected_zero]
  obtain ⟨u, hu, rfl⟩ := mapNext_eq_next ((hexec s.err).symm.trans h)
  refine ⟨u.err, rfl, fun e => ?_⟩
  rw [hexec, hu]
  simp only [mapNext, orStatus]

/-- Settles O51: `write_protected` is one of the bits that may be OR-ed in beforehand. -/
theorem writeProtectedIsNeverRead : Obligations.WriteProtectedIsNeverRead := by
  intro i s t h
  have hset : ∀ u : State, { u with flags := u.flags ||| 0x04#8 } = orStatus 0x00#8 0x04#8 u := fun u => by
    simp only [orStatus, BitVec.zero_or]
  rw [hset, hset, exec_orStatus onlyWriteProtected_mask, h]
  rfl

end Sys2Proof.Machine
end

section
/-! PROOF. Who writes `BUF` (20_memory.md R78). -/

namespace Sys2Proof.Machine

theorem sendCommand_buf (cmd : BitVec 6) (arg : Word) (fl : CmdFlags) (s : State) :
    (sendCommand cmd arg fl s).2.buf = s.buf := by rw [sendCommand_frame]

theorem checkCommand_buf (cmd : BitVec 6) (arg : Word) (fl : CmdFlags) (expected m : Byte) (s : State) :
    (checkCommand cmd arg fl expected m s).2.buf = s.buf := by unfold checkCommand; rw [attempts_frame]

/-- A read-block into `CSD` stores nothing into `BUF` (44_block_io.md R254). -/
theorem readBlock_csd_buf (cmd : BitVec 6) (arg : Word) (len : Nat) (s : State) :
    (readBlock cmd arg len .csd s).2.buf = s.buf := by
  obtain ⟨_, -, hbuf⟩ := blockEnd_buf cmd arg len .csd s
  rw [readBlock_buf, hbuf, if_neg (by decide)]

theorem execReadBlock_csd_buf {cmd : BitVec 6} {arg : Word} {len : Nat} {s t : State}
    (h : execReadBlock cmd arg len .csd s = .next t) : t.buf = s.buf := by
  unfold execReadBlock at h
  split at h <;> cases h
  exact readBlock_csd_buf cmd arg len s

theorem deinitBody_buf (s : State) : (deinitBody s).buf = s.buf := by
  cases hd : hasFlag .deinitialized s with
  | true => rw [deinitBody_latched hd, respond_buf]
  | false => rw [deinitBody_eq hd, respond_buf, setFlag_buf, sendCommand_buf, sendCommand_buf]

theorem writeBody_buf (sector : Word) (s : State) : (writeBody sector s).buf = s.buf := by
  cases hi : hasFlag .initialized s with
  | false => rw [writeBody_closed hi, respond_buf]
  | true =>
    obtain ⟨u, _, hu, -, -, -, -, hend⟩ := writeBody_cases (sector := sector) hi
    have hb : u.buf = s.buf := by rw [hu]
    rcases hend with h | h <;> rw [h]
    · exact hb
    · exact hb

theorem runInit_buf (s : State) : (runInit initSteps s).buf = s.buf := by
  obtain ⟨t, hgo, hrun⟩ := runInit_powerUp s
  obtain ⟨_, hend⟩ := runInit_end initMiddle (by decide) t hgo.stepped.cs
  rw [hrun, hend.stepped.buf, hgo.stepped.buf]

/-- Every instruction but READ and a read-block into `BUF` leaves `BUF` alone. -/
theorem exec_buf {i : Instr} {s t : State} (hr : ∀ sector, i ≠ .read sector)
    (hb : ∀ cmd arg len, i ≠ .readBlock cmd arg len .buf) (h : exec i s = .next t) : t.buf = s.buf := by
  cases i with
  | read sector => exact absurd rfl (hr sector)
  | init sector => cases h; exact runInit_buf _
  | deinit sector => cases h; exact deinitBody_buf _
  | write sector => cases h; exact writeBody_buf sector _
  | sendCommand cmd arg fl => cases h; exact sendCommand_buf cmd arg fl s
  | checkCommand cmd arg fl expected m => cases h; exact checkCommand_buf cmd arg fl expected m s
  | readBlock cmd arg len d =>
    cases d with
    | buf => exact absurd rfl (hb cmd arg len)
    | csd => exact execReadBlock_csd_buf h
  | _ => cases h; rfl

/-- Settles O55: only the drain of a read-block stores into `BUF`, and only where `BUF` is its destination. -/
theorem onlyReadChangesTheBuffer : Obligations.OnlyReadChangesTheBuffer := by
  intro i s t h hr hb
  have hbuf : t.buf = s.buf := exec_buf hr hb h
  exact ⟨hbuf, fun a => by rw [hbuf]⟩

end Sys2Proof.Machine
end

section
/-! PROOF. READ and WRITE send the mapped sector (20_memory.md R70). -/

namespace Sys2Proof.Machine

/-- The sector mapping as arithmetic (R70, R71). -/
theorem mapSector_eq (sector : Word) (s : State) :
    mapSector sector s = if s.flags.getLsbD 1 then sector else BitVec.ofNat 32 (sector.toNat * 512) := by
  have hshift : sector <<< 9 = BitVec.ofNat 32 (sector.toNat * 512) := by
    apply BitVec.eq_of_toNat_eq
    rw [BitVec.toNat_shiftLeft, Nat.shiftLeft_eq, BitVec.toNat_ofNat]
  rw [← hasFlag_highCapacity, ← hshift]
  rfl

/-- The history of a host operation that has one chip-select bracket, `evs` inside it (44_block_io.md R262, R268). -/
def operationEvents (op : BitVec 2) (sector : Word) (evs : List Event) (st : Status) : List Event :=
  [.req op sector, .prepare, .cs false] ++ evs ++ [.cs true, .rsp st]

/-- Only the inside of the bracket sends bytes. -/
theorem sentBytes_operationEvents (op : BitVec 2) (sector : Word) (evs : List Event) (st : Status) :
    sentBytes (operationEvents op sector evs st) = sentBytes evs := by
  unfold operationEvents
  rw [sentBytes_append, sentBytes_append]
  exact List.append_nil _

/-- The request in front of a bracket and the response after it. -/
theorem respond_trace {op : BitVec 2} {sector : Word} {s u : State} {evs : List Event} (st : Status)
    (h : u.bus.trace = s.bus.trace ++ [.req op sector] ++ ([.prepare, .cs false] ++ evs ++ [.cs true])) :
    (respond st u).bus.trace = s.bus.trace ++ operationEvents op sector evs st := by
  rw [respond_bus, Bus.emit, h]
  simp only [operationEvents, List.append_assoc, List.cons_append, List.nil_append]

/-- From `s` to `t` the argument and the frame of a command went into `ARG` and `FB`, and the frame's bytes are the first
ones sent. -/
structure FrameSent (cmd : BitVec 6) (arg : Word) (s t : State) : Prop where
  argument : t.arg = arg
  frame : t.fb = frameBytes cmd arg
  sent : ∃ evs rest, t.bus.trace = s.bus.trace ++ evs ∧ sentBytes evs = t.fb.toList ++ rest

theorem execRead_frameSent (sector : Word) {s : State} (h : s.flags.getLsbD 0 = true) :
    ∃ t, exec (.read sector) s = .next t ∧ FrameSent 17 (mapSector sector s) s t := by
  have hframe := readBlock_frame 17 (mapSector sector s) Config.sectorSize .buf (readStart sector s)
  obtain ⟨evs, n, htrace, -, hsent, -⟩ :=
    blockEnd_trace 17 (mapSector sector s) Config.sectorSize .buf (readStart sector s)
  rw [← readBlock_bus] at htrace
  have harg : (readBlock 17 (mapSector sector s) Config.sectorSize .buf (readStart sector s)).2.arg =
    mapSector sector s := by rw [hframe]
  have hfb : (readBlock 17 (mapSector sector s) Config.sectorSize .buf (readStart sector s)).2.fb =
    frameBytes 17 (mapSector sector s) := by rw [hframe]
  exact ⟨_, execRead_eq h, harg, hfb, _, _, respond_trace _ htrace, by
    rw [sentBytes_operationEvents, hsent, respond_fb, hfb]⟩

theorem execWrite_frameSent (sector : Word) {s : State} (h : s.flags.getLsbD 0 = true) :
    ∃ t, exec (.write sector) s = .next t ∧ FrameSent 24 (mapSector sector s) s t := by
  obtain ⟨u, evs, hu, htrace, -, ⟨rest, hsent⟩, -, hend⟩ := writeBody_cases (sector := sector)
    (s := accept 3 sector [.write sector] s) ((hasFlag_initialized s).trans h)
  have harg : u.arg = mapSector sector s := by rw [hu]; rfl
  have hfb : u.fb = frameBytes 24 (mapSector sector s) := by rw [hu]; rfl
  have hbytes : ∀ st, sentBytes (operationEvents 3 sector evs st) = u.fb.toList ++ rest := fun st => by
    rw [sentBytes_operationEvents, hsent, hfb]; rfl
  refine ⟨_, rfl, ?_⟩
  rcases hend with hend | hend <;> rw [hend]
  · exact ⟨harg, hfb, _, rest, respond_trace .ok htrace, hbytes .ok⟩
  · exact ⟨harg, hfb, _, rest, respond_trace (u := orErr .writeError u) .fail htrace, hbytes .fail⟩

/-- Settles O26: READ's read-block and WRITE's command both take the mapped sector, and their frame is the first thing
inside the bracket. -/
theorem sectorMapping : Obligations.SectorMapping := by
  intro sector s hflag p hp arg
  have harg : arg = mapSector sector s := (mapSector_eq sector s).symm
  rw [harg]
  simp only [List.mem_cons, List.not_mem_nil, or_false] at hp
  rcases hp with rfl | rfl
  · obtain ⟨t, hexec, ha, hfb, evs, rest, htrace, hsent⟩ := execRead_frameSent sector hflag
    exact ⟨t, evs, rest, hexec, ha, hfb, by rw [hfb]; rfl, htrace, hsent⟩
  · obtain ⟨t, hexec, ha, hfb, evs, rest, htrace, hsent⟩ := execWrite_frameSent sector hflag
    exact ⟨t, evs, rest, hexec, ha, hfb, by rw [hfb]; rfl, htrace, hsent⟩

end Sys2Proof.Machine
end

section
/-! PROOF. A data block on the wire, read by the read-block primitive and by READ (44_block_io.md R252 to R258, R262;
20_memory.md R61, R62). -/

namespace Sys2Proof.Machine

/-- The bytes loaded from address 0 on are the bytes that stand there. -/
theorem Memory.read_of_load {m : Memory} {n k : Nat} {bytes : List Byte} (h : m.load 0 n = bytes)
    (hk : k < bytes.length) : m.read k = bytes[k] := by
  subst h
  rw [Memory.getElem_load, Nat.zero_add]

/-! ## The stretches of a block on the wire -/

theorem Bus.Moved.miso_eq {tx rx rest : List Byte} {b c : Bus} (h : Bus.Moved tx rx b c) {taken : List Byte}
    (hm : b.miso = taken ++ rest) (hl : taken.length = tx.length) : c.miso = rest := by
  obtain ⟨_, -, -, -, -, hmiso⟩ := h
  rw [hmiso, hm, ← hl, List.drop_left]

/-- A listed response within the scan's reach ends it there: the filler sent is counted (R252). -/
theorem Bus.scan_listed_bus {N n : Nat} {r : Byte} {more : List Byte} {b : Bus} (hr : r ≠ Config.fillerByte) (hn : n < N)
    (hm : b.miso = List.replicate n Config.fillerByte ++ r :: more) :
    (b.scan N).2 = b.send (List.replicate (n + 1) Config.fillerByte) := by
  induction N generalizing n b with
  | zero => omega
  | succ N ih =>
    cases n with
    | zero =>
      have hx : isResponse b.rx = true := by simpa [isResponse, Bus.rx, hm] using hr
      simp only [Bus.scan, hx, if_true]
      rfl
    | succ n =>
      have hx : isResponse b.rx = false := by simp [isResponse, Bus.rx, hm, List.replicate_succ]
      simp only [Bus.scan, hx, Bool.false_eq_true, if_false]
      exact ih (by omega) (by simp [Bus.xfer, hm, List.replicate_succ])

theorem Bus.moved_scan_listed {N n : Nat} {r : Byte} {more : List Byte} {b : Bus} (hr : r ≠ Config.fillerByte)
    (hn : n < N) (hm : b.miso = List.replicate n Config.fillerByte ++ r :: more) :
    ∃ rx, Bus.Moved (List.replicate (n + 1) Config.fillerByte) rx b (b.scan N).2 :=
  ⟨_, by rw [Bus.scan_listed_bus hr hn hm]; exact Bus.moved_send _ b⟩

/-- A wait whose token is the next listed answer is one exchange (42_policies.md R187). -/
theorem findToken_first_moved {token : Byte} {us : Word} {s : State} {rest : List Byte}
    (h : s.bus.miso = token :: rest) :
    Bus.Moved [Config.fillerByte] [token] s.bus (findToken token us s).2.bus := by
  obtain ⟨-, hmiso, htrace⟩ := findToken_first (us := us) h
  exact ⟨_, htrace, by simp [Event.isWait], rfl, rfl, by rw [hmiso, h]; rfl⟩

/-! ## The read-block primitive -/

section

variable {cmd : BitVec 6} {arg : Word} {len n : Nat} {d : BlockDest} {s : State} {skip payload more : List Byte}
  {r hi lo : Byte}

/-- The bytes a read-block sends where the block is listed: the frame, and one filler byte for each byte of response,
start token, payload, CRC and idle line (R251 to R255, R259). -/
theorem blockEnd_listed_sent (hs : skip.length = 6) (hn : n ≤ 15) (hr : r ≠ 0xFF#8) (hp : payload.length = len)
    (hm : s.bus.miso = skip ++ (List.replicate n 0xFF#8 ++ r :: 0xFE#8 :: (payload ++ hi :: lo :: 0xFF#8 :: more))) :
    ∃ evs, (blockEnd cmd arg len d s).bus.trace = s.bus.trace ++ ([.prepare, .cs false] ++ evs ++ [.cs true]) ∧
      sentBytes evs = (frameBytes cmd arg).toList ++ List.replicate (n + 1 + 1 + len + 2 + 1) 0xFF#8 := by
  have mopen : Bus.Moved (frameBytes cmd arg).toList _ ((s.bus.emit .prepare).emit (.cs false))
    (blockOpen cmd arg s).bus := Bus.moved_send _ _
  have hopen := mopen.miso_eq (show _ = skip ++ _ from hm) hs
  obtain ⟨_, mscan⟩ := Bus.moved_scan_listed (N := Config.readScanMax) hr (Nat.lt_succ_of_le hn) hopen
  have hscan : (blockScan (blockOpen cmd arg s)).bus.miso = 0xFE#8 :: (payload ++ hi :: lo :: 0xFF#8 :: more) :=
    mscan.miso_eq (taken := List.replicate n 0xFF#8 ++ [r]) (by rw [hopen]; simp) (by simp)
  have mwait := findToken_first_moved (token := Config.startToken) (us := Config.tokenTimeoutUs) hscan
  have hwait : (blockWait Config.startToken (blockScan (blockOpen cmd arg s))).bus.miso =
    (payload ++ [hi, lo]) ++ 0xFF#8 :: more := mwait.miso_eq (taken := [0xFE#8]) (by rw [hscan]; simp) rfl
  have mdrain := Bus.moved_send (List.replicate (len + 2) Config.fillerByte)
    (blockWait Config.startToken (blockScan (blockOpen cmd arg s))).bus
  rw [← blockDrain_bus len d] at mdrain
  have hdrain := mdrain.miso_eq hwait (by simp [hp])
  have midle := findToken_first_moved (token := Config.fillerByte) (us := Config.tokenTimeoutUs) hdrain
  obtain ⟨evs, htrace, -, hsent, -⟩ := mopen.trans (mscan.trans (mwait.trans (mdrain.trans midle)))
  refine ⟨evs, ?_, ?_⟩
  · have hend : (blockEnd cmd arg len d s).bus.trace = _ ++ [.cs true] := congrArg (· ++ [Event.cs true]) htrace
    rw [hend]
    simp [Bus.emit]
  · rw [hsent]
    simp only [← List.replicate_one, List.replicate_append_replicate, ← Nat.add_assoc]

/-- Everything a read-block makes of a block on the wire that fills its destination (R252 to R257). -/
theorem readBlock_listed (hwf : s.buf.wf = true) (hs : skip.length = 6) (hn : n ≤ 15) (hr : r ≠ 0xFF#8)
    (hp : payload.length = destSize d)
    (hm : s.bus.miso = skip ++ (List.replicate n 0xFF#8 ++ r :: 0xFE#8 :: (payload ++ hi :: lo :: 0xFF#8 :: more))) :
    let b := readBlock cmd arg (destSize d) d s
    destLoad d (destSize d) b.2 = payload ∧ b.2.crcRx = hi ++ lo ∧ b.2.bus.miso = more ∧
      ((r ≠ 0x00#8 ∧ b.1 = false ∧ b.2.err = s.err ||| 0x20#8) ∨
        (r = 0x00#8 ∧ crc16Of payload ≠ hi ++ lo ∧ b.1 = false ∧ b.2.err = s.err ||| 0x04#8) ∨
        (r = 0x00#8 ∧ crc16Of payload = hi ++ lo ∧ b.1 = true ∧ b.2.err = s.err)) := by
  obtain ⟨hfault, hcrc, hmiso, hbuf, hcsd⟩ := blockEnd_listed (cmd := cmd) (arg := arg) (d := d) hs hn hr hp hm
  have herr : (blockEnd cmd arg (destSize d) d s).err = s.err := by rw [blockEnd_frame]
  have hload := destLoad_destStore hp hwf hbuf hcsd
  simp only [readBlock_eq]
  generalize blockEnd cmd arg (destSize d) d s = u at *
  rcases blockVerdict_cases (destSize d) d u with ⟨hf, h⟩ | ⟨hf, hc, h⟩ | ⟨hf, hc, h⟩
  all_goals
    rw [hfault] at hf
    rw [h]
    refine ⟨destLoad_destStore hp hwf hbuf hcsd, hcrc, hmiso, ?_⟩
  · exact .inl ⟨by simpa using hf, rfl, congrArg (· ||| 0x20#8) herr⟩
  · exact .inr (.inl ⟨by simpa using hf, by rwa [hload, hcrc] at hc, rfl, congrArg (· ||| 0x04#8) herr⟩)
  · exact .inr (.inr ⟨by simpa using hf, by rwa [hload, hcrc] at hc, rfl, herr⟩)

end

theorem destSize_of_shape {cmd : BitVec 6} {len : Nat} {d : BlockDest} (h : readBlockShape cmd len d = true) :
    len = destSize d := by
  cases d <;> simp only [readBlockShape, Bool.and_eq_true, beq_iff_eq] at h <;> exact h.2

theorem execReadBlock_fits (cmd : BitVec 6) (arg : Word) {len : Nat} {d : BlockDest} (s : State) (h : len ≤ destSize d) :
    execReadBlock cmd arg len d s = .next { (readBlock cmd arg len d s).2 with
      ret := .bool (readBlock cmd arg len d s).1 } := if_pos h

/-- Settles O24: the block is followed along the wire to the verdict, whose three cases exclude each other. -/
theorem readBlockDelivers : Obligations.ReadBlockDelivers := by
  intro cmd arg len d s skip payload more n r hi lo hshape hwf hs hn hr hp hm
  obtain rfl : len = destSize d := destSize_of_shape hshape
  have hm' : s.bus.miso =
      skip ++ (List.replicate n 0xFF#8 ++ r :: 0xFE#8 :: (payload ++ hi :: lo :: 0xFF#8 :: more)) := hm.trans (by simp)
  obtain ⟨hload, hcrc, hmiso, hverdict⟩ := readBlock_listed (cmd := cmd) (arg := arg) hwf hs hn hr hp hm'
  refine ⟨_, execReadBlock_fits cmd arg s (Nat.le_refl _), ?_, hcrc, hmiso, ?_⟩
  · cases d <;> exact hload
  · rcases hverdict with ⟨h0, hret, herr⟩ | ⟨h0, hne, hret, herr⟩ | ⟨h0, heq, hret, herr⟩
    · exact ⟨fun _ => ⟨congrArg Ret.bool hret, herr⟩, fun h => absurd h h0, fun h => absurd h h0⟩
    · exact ⟨fun h => absurd h0 h, fun _ _ => ⟨congrArg Ret.bool hret, herr⟩, fun _ h => absurd h hne⟩
    · exact ⟨fun h => absurd h0 h, fun _ h => absurd heq h, fun _ _ => ⟨congrArg Ret.bool hret, herr⟩⟩

/-! ## READ -/

/-- Settles O28: READ's read-block delivers a good block into `BUF`, and its response follows the verdict. -/
theorem readDelivers : Obligations.ReadDelivers := by
  intro sector s skip payload more n hi lo hflag hwf hs hn hp hcrc hm
  have hm' : (readStart sector s).bus.miso =
      skip ++ (List.replicate n 0xFF#8 ++ 0x00#8 :: 0xFE#8 :: (payload ++ hi :: lo :: 0xFF#8 :: more)) :=
    hm.trans (by simp)
  obtain ⟨hload, -, hmiso, hverdict⟩ := readBlock_listed (cmd := 17) (arg := mapSector sector s) (d := .buf)
    (s := readStart sector s) hwf hs hn (by decide) hp hm'
  obtain ⟨evs, htrace, hsent⟩ := blockEnd_listed_sent (cmd := 17) (arg := mapSector sector s) (d := .buf) hs hn
    (by decide) hp hm'
  have hfb := congrArg State.fb (readBlock_frame 17 (mapSector sector s) Config.sectorSize .buf (readStart sector s))
  rw [← readBlock_bus] at htrace
  have hexec : exec (.read sector) s = _ := execRead_eq hflag
  simp only [destSize] at hload hmiso hverdict
  generalize readBlock 17 (mapSector sector s) Config.sectorSize .buf (readStart sector s) = b at *
  rcases hverdict with ⟨h0, -⟩ | ⟨-, hne, -⟩ | ⟨-, -, hok, herr⟩
  · exact absurd rfl h0
  · exact absurd hcrc hne
  · rw [hok, if_pos rfl] at hexec
    refine ⟨_, _, hexec, rfl, herr, fun k hk => ?_, hmiso, respond_trace .ok htrace, ?_⟩
    · exact Memory.read_of_load hload hk
    · rw [sentBytes_operationEvents, hsent, respond_fb, hfb]

end Sys2Proof.Machine
end

section
/-! PROOF. What WRITE sends, and what its data response and its busy wait make of it (44_block_io.md R264 to R269). -/

namespace Sys2Proof.Machine

/-! ## WRITE up to its busy wait -/

/-- The state of a WRITE, a response to CMD24 seen, after the data-response window (R266, R267). -/
def writeWaiting (sector : Word) (s : State) : State := readWindow (writeData (writeAsked sector s))

/-- The wait for the idle line that ends a WRITE (R267). -/
def writeBusy (sector : Word) (s : State) : Bool × State :=
  findToken Config.fillerByte Config.tokenTimeoutUs (writeWaiting sector s)

/-- Everything a WRITE sends before its busy wait: the frame, the response window, the data block, the data-response
window (R265 to R267). -/
def writeBytes (sector : Word) (s : State) : List Byte :=
  (frameBytes 24 (mapSector sector s)).toList ++ List.replicate 8 Config.fillerByte ++
    (Config.startToken :: (s.buf.load 0 Config.sectorSize ++ halfBytes (crc16Of (s.buf.load 0 Config.sectorSize)))) ++
    List.replicate 8 Config.fillerByte

theorem writeWaiting_frame (sector : Word) (s : State) : writeWaiting sector s = { s with
    cs := false
    fb := frameBytes 24 (mapSector sector s)
    arg := mapSector sector s
    crc := crc16Of (s.buf.load 0 Config.sectorSize)
    rb := (writeWaiting sector s).rb
    bus := (writeWaiting sector s).bus } := by
  unfold writeWaiting
  rw [readWindow_frame, writeData_frame, writeAsked_frame]

theorem writeBusy_fb (sector : Word) (s : State) : (writeBusy sector s).2.fb = frameBytes 24 (mapSector sector s) := by
  rw [writeBusy, findToken_frame, writeWaiting_frame]

theorem writeBusy_err (sector : Word) (s : State) : (writeBusy sector s).2.err = s.err := by
  rw [writeBusy, findToken_frame, writeWaiting_frame]

theorem writeWaiting_cfg (sector : Word) (s : State) : (writeWaiting sector s).cfg = s.cfg := by
  rw [writeWaiting_frame]

theorem writeData_bus (sector : Word) (s : State) : (writeData (writeAsked sector s)).bus =
    (writeAsked sector s).bus.send (Config.startToken ::
      (s.buf.load 0 Config.sectorSize ++ halfBytes (crc16Of (s.buf.load 0 Config.sectorSize)))) := by
  have hbuf : (writeAsked sector s).buf = s.buf := by rw [writeAsked_frame]
  have hcrc : (writeAsked sector s).crc = crc16Of (s.buf.load 0 Config.sectorSize) := by rw [writeAsked_frame]
  rw [writeData, sendBytes_bus, hbuf, hcrc]

theorem writeWaiting_bus (sector : Word) (s : State) :
    (writeWaiting sector s).bus = ((s.bus.emit .prepare).emit (.cs false)).send (writeBytes sector s) := by
  unfold writeWaiting writeBytes
  rw [readWindow_bus, Bus.recv_eq, writeData_bus, writeAsked_bus, ← Bus.send_append, ← Bus.send_append]

theorem writeBody_waited {sector : Word} {s : State} (hi : hasFlag .initialized s = true)
    (hr : testAnyResponse (writeAsked sector s).rb = true) : writeBody sector s =
      if testAccepted (writeWaiting sector s).rb && (writeBusy sector s).1
        then respond .ok (release (writeBusy sector s).2)
      else raise .writeError (release (writeBusy sector s).2) := by
  rw [writeBody_eq hi, if_pos hr, writeFinish_eq]
  rfl

/-! ## With the card's answers listed -/

section

variable {sector : Word} {s : State} {skip answer data window tail : List Byte}

/-- The window after the frame is read before the rest of the answers (R265). -/
theorem writeAsked_listed (hs : skip.length = 6) (ha : answer.length = 8) (hm : s.bus.miso = skip ++ answer ++ tail) :
    (writeAsked sector s).rb.toList = answer ∧ (writeAsked sector s).bus.miso = tail := by
  have hsent : (sendFrame (buildFrame 24 (mapSector sector s) (acquire (writePrepare sector s)))).bus.miso =
      answer ++ tail := by
    have hbus : (sendFrame (buildFrame 24 (mapSector sector s) (acquire (writePrepare sector s)))).bus =
      ((s.bus.emit .prepare).emit (.cs false)).send (frameBytes 24 (mapSector sector s)).toList := rfl
    rw [hbus]
    exact (Bus.moved_send _ _).miso_eq (taken := skip) (hm.trans (List.append_assoc _ _ _)) hs
  exact readWindow_listed hsent ha

/-- What the busy wait of a WRITE starts from: the answers beyond the data-response window, the window in `RB`, the time
source not yet asked (R267). -/
theorem writeWaiting_listed (hs : skip.length = 6) (ha : answer.length = 8) (hd : data.length = 515)
    (hw : window.length = 8) (hm : s.bus.miso = skip ++ answer ++ data ++ window ++ tail) :
    (writeWaiting sector s).rb.toList = window ∧ (writeWaiting sector s).bus.miso = tail ∧
      (writeWaiting sector s).bus.clock = s.bus.clock := by
  have hasked := (writeAsked_listed (sector := sector) (tail := data ++ (window ++ tail)) hs ha (by rw [hm]; simp)).2
  have hdata : (writeData (writeAsked sector s)).bus.miso = window ++ tail := by
    rw [writeData_bus]
    exact (Bus.moved_send _ _).miso_eq hasked (by simp [hd, halfBytes])
  obtain ⟨hrb, hmiso⟩ := readWindow_listed hdata hw
  exact ⟨hrb, hmiso, by rw [writeWaiting_bus, Bus.send_clock]; rfl⟩

theorem testAnyResponse_listed (hs : skip.length = 6) (ha : answer.length = 8) (hr : ∃ b ∈ answer, b ≠ 0xFF#8)
    (hm : s.bus.miso = skip ++ answer ++ data ++ window ++ tail) :
    testAnyResponse (writeAsked sector s).rb = true := by
  rw [testAnyResponse_iff, (writeAsked_listed (tail := data ++ (window ++ tail)) hs ha (by rw [hm]; simp)).1]
  exact hr

end

/-- A WRITE whose line is idle after the data-response window (R265 to R268): what it sends, and that the data response
alone decides. -/
theorem writeBody_idle {sector : Word} {s : State} {skip answer data window more : List Byte}
    (hi : hasFlag .initialized s = true) (hs : skip.length = 6) (ha : answer.length = 8) (hr : ∃ b ∈ answer, b ≠ 0xFF#8)
    (hd : data.length = 515) (hw : window.length = 8)
    (hm : s.bus.miso = skip ++ answer ++ data ++ window ++ 0xFF#8 :: more) :
    ∃ u evs, u.fb = frameBytes 24 (mapSector sector s) ∧ u.err = s.err ∧ u.bus.miso = more ∧
      u.bus.trace = s.bus.trace ++ ([.prepare, .cs false] ++ evs ++ [.cs true]) ∧
      sentBytes evs = writeBytes sector s ++ [0xFF#8] ∧
      (AcceptedWindow window → writeBody sector s = respond .ok u) ∧
      (¬ AcceptedWindow window → writeBody sector s = raise .writeError u) := by
  obtain ⟨hrb, hmiso, -⟩ := writeWaiting_listed (sector := sector) hs ha hd hw hm
  obtain ⟨hfound, hmore, -⟩ : (writeBusy sector s).1 = true ∧ (writeBusy sector s).2.bus.miso = more ∧ _ :=
    findToken_first hmiso
  have mbusy : Bus.Moved _ _ (writeWaiting sector s).bus (writeBusy sector s).2.bus := findToken_first_moved hmiso
  have mbytes := Bus.moved_send (writeBytes sector s) ((s.bus.emit .prepare).emit (.cs false))
  rw [← writeWaiting_bus] at mbytes
  obtain ⟨evs, htrace, -, hsent, -⟩ := mbytes.trans mbusy
  have hbody := writeBody_waited hi (testAnyResponse_listed (sector := sector) hs ha hr hm)
  have hacc := testAccepted_iff (writeWaiting sector s).rb
  have hfb := writeBusy_fb sector s
  have herr := writeBusy_err sector s
  rw [hrb] at hacc
  rw [hfound, Bool.and_true] at hbody
  generalize writeBusy sector s = r at *
  refine ⟨release r.2, evs, hfb, herr, hmore, ?_, hsent, fun h => ?_, fun h => ?_⟩
  · rw [release_bus, Bus.emit, htrace]
    simp [Bus.emit]
  · rw [hbody, if_pos (hacc.2 h)]
  · rw [hbody, if_neg (mt hacc.1 h)]

/-- A WRITE whose line stays busy until the time is up (R267, R268; 42_policies.md R186): the data response does not
count. -/
theorem writeBody_busy {sector : Word} {s : State} {skip answer data window busy more : List Byte} {t0 last : Nat}
    {ticks rest : List Nat} (hi : hasFlag .initialized s = true) (hs : skip.length = 6) (ha : answer.length = 8)
    (hr : ∃ b ∈ answer, b ≠ 0xFF#8) (hd : data.length = 515) (hw : window.length = 8) (hb : 0xFF#8 ∉ busy)
    (ht : ∀ t ∈ ticks, (2 : Int) ^ (s.cfg.tickW - 1) ≤
      ((t : Int) - ((t0 + 50000 * s.cfg.ticksPerUs) % 2 ^ s.cfg.tickW : Nat)) % 2 ^ s.cfg.tickW)
    (hl : ¬ (2 : Int) ^ (s.cfg.tickW - 1) ≤
      ((last : Int) - ((t0 + 50000 * s.cfg.ticksPerUs) % 2 ^ s.cfg.tickW : Nat)) % 2 ^ s.cfg.tickW)
    (hn : ticks.length + 1 = busy.length) (hm : s.bus.miso = skip ++ answer ++ data ++ window ++ (busy ++ more))
    (hc : s.bus.clock = t0 :: (ticks ++ last :: rest)) :
    ∃ u, writeBody sector s = raise .writeError u ∧ u.err = s.err ∧ u.cs = true ∧
      u.deadline = (t0 + 50000 * s.cfg.ticksPerUs) % 2 ^ s.cfg.tickW ∧ u.bus.miso = more ∧ u.bus.clock = rest := by
  obtain ⟨-, hmiso, hclock⟩ := writeWaiting_listed (sector := sector) hs ha hd hw hm
  have hcfg := writeWaiting_cfg sector s
  rw [hc] at hclock
  obtain ⟨hlate, hmore, hrest⟩ : (writeBusy sector s).1 = false ∧ (writeBusy sector s).2.bus.miso = more ∧
    (writeBusy sector s).2.bus.clock = rest := findToken_late hb
    (by rw [hcfg]; exact ht) (by rw [hcfg]; exact hl) hn hmiso hclock
  have hdeadline : (writeBusy sector s).2.deadline = _ := findToken_deadline hclock
  have herr := writeBusy_err sector s
  rw [hcfg] at hdeadline
  have hbody := writeBody_waited hi (testAnyResponse_listed (sector := sector) hs ha hr hm)
  rw [hlate, Bool.and_false, if_neg Bool.false_ne_true] at hbody
  generalize writeBusy sector s = r at *
  exact ⟨release r.2, hbody, herr, rfl, hdeadline, hmore, hrest⟩

/-! ## What WRITE sends -/

/-- The two bytes of the CRC16 on the wire, high byte first (20_memory.md R61). -/
theorem halfBytes_eq (h : Half) : halfBytes h = [(h >>> 8).setWidth 8, h.setWidth 8] := rfl

/-- What a WRITE with one poll of an idle line sends, part by part (R265 to R267). -/
theorem writeBytes_poll (sector : Word) (s : State) : writeBytes sector s ++ [0xFF#8] =
    (frameBytes 24 (mapSector sector s)).toList ++ List.replicate 8 0xFF#8 ++ [0xFE#8] ++ s.buf.load 0 512 ++
      [(crc16Of (s.buf.load 0 512) >>> 8).setWidth 8, (crc16Of (s.buf.load 0 512)).setWidth 8] ++
      List.replicate 9 0xFF#8 := by
  rw [writeBytes, halfBytes_eq, List.replicate_succ' (n := 8)]
  simp only [List.append_assoc, List.cons_append, List.nil_append]

theorem execWrite_eq (sector : Word) (s : State) :
    exec (.write sector) s = .next (writeBody sector (accept 3 sector [.write sector] s)) := rfl

/-- Settles O30: after the window the idle line leaves the verdict to the data response, and a busy line that outlasts the
deadline overrides it. -/
theorem writeSendsTheBlock : Obligations.WriteSendsTheBlock := by
  constructor
  · intro sector s skip answer data window more hflag hs ha hr hd hw hm crc
    obtain ⟨u, evs, hfb, herr, hmiso, htrace, hsent, hok, hfail⟩ := writeBody_idle (sector := sector) (more := more)
      (s := accept 3 sector [.write sector] s) ((hasFlag_initialized s).trans hflag) hs ha hr hd hw (hm.trans (by simp))
    rw [writeBytes_poll] at hsent
    have hbytes : sentBytes evs = u.fb.toList ++ List.replicate 8 0xFF#8 ++ [0xFE#8] ++ s.buf.load 0 512 ++
        [(crc >>> 8).setWidth 8, crc.setWidth 8] ++ List.replicate 9 0xFF#8 := by
      rw [hsent, hfb]
      rfl
    by_cases hacc : AcceptedWindow window
    · have hexec := execWrite_eq sector s
      rw [hok hacc] at hexec
      exact ⟨_, _, hexec, hmiso, respond_trace .ok htrace, by rw [sentBytes_operationEvents]; exact hbytes,
        fun _ => ⟨rfl, herr⟩, fun h => absurd hacc fun ⟨b, hb, h5⟩ => h b hb h5⟩
    · have hexec := execWrite_eq sector s
      rw [hfail hacc] at hexec
      exact ⟨_, _, hexec, hmiso, respond_trace (u := orErr .writeError u) .fail htrace,
        by rw [sentBytes_operationEvents]; exact hbytes, fun h => absurd h hacc,
        fun _ => ⟨rfl, congrArg (· ||| 0x40#8) herr⟩⟩
  · intro sector s skip answer data window busy more t0 last ticks rest w deadline early hflag hs ha hr hd hw hb ht hl hn
      hm hc
    obtain ⟨u, hbody, herr, hcs, hdeadline, hmiso, hclock⟩ := writeBody_busy (sector := sector)
      (more := more) (s := accept 3 sector [.write sector] s) ((hasFlag_initialized s).trans hflag) hs ha hr hd hw hb ht
      hl hn (hm.trans (by simp)) hc
    have hexec := execWrite_eq sector s
    rw [hbody] at hexec
    exact ⟨_, hexec, rfl, congrArg (· ||| 0x40#8) herr, hcs, rfl, hdeadline, hmiso, hclock⟩

/-! ## The round trip -/

theorem take_drop_middle {pre mid post : List Byte} {n m : Nat} (hpre : pre.length = n) (hmid : mid.length = m) :
    ((pre ++ mid ++ post).drop n).take m = mid := by
  rw [List.append_assoc, List.drop_left' hpre, List.take_left' hmid]

/-- Settles O32: what WRITE sent holds `BUF` from byte 15 on and its CRC16 from byte 527 on, and that is a good block for
READ. -/
theorem writeThenReadRoundTrip : Obligations.WriteThenReadRoundTrip := by
  intro sector sector' s t u skip answer data window skip' more more' evs hflag hs ha hr hd hw hacc hm hexec htrace payload
    trailer huflag hwf hs' hm'
  obtain ⟨t', evs', hexec', -, htrace', hsent, hok, -⟩ :=
    writeSendsTheBlock.1 sector s skip answer data window more hflag hs ha hr hd hw hm
  obtain rfl : t = t' := Host.Outcome.next.inj (hexec.symm.trans hexec')
  obtain rfl : evs = evs' := List.append_cancel_left (htrace.symm.trans htrace')
  have hpayload : payload = s.buf.load 0 512 := by
    simp only [payload, hsent, List.append_assoc _ _ (List.replicate 9 _)]
    exact take_drop_middle (by simp) (Memory.length_load _ _ _)
  have htrailer : trailer = halfBytes (crc16Of (s.buf.load 0 512)) := by
    simp only [trailer, hsent]
    exact take_drop_middle (by simp) rfl
  rw [hpayload, htrailer] at hm'
  obtain ⟨v, -, hread, hrsp, -, hbytes, -⟩ := readDelivers sector' u skip' (s.buf.load 0 512) more' 0 _ _ huflag hwf hs'
    (Nat.zero_le _) (Memory.length_load _ _ _) (halfOfBytes_halfBytes _).symm (hm'.trans (by simp [halfBytes]))
  refine ⟨(hok hacc).1, v, hread, hrsp, fun a ha => ?_⟩
  rw [hbytes a (by rwa [Memory.length_load]), Memory.getElem_load, Nat.zero_add]

end Sys2Proof.Machine
end

section
/-! PROOF. Decoder and encoder agree (30_encoding.md R91 to R106, R110). -/

namespace Sys2Proof.Machine

/-! ## Decoding an encoding -/

/-- An encoding decodes in its format to the instruction it is of. -/
theorem decode_of_encode {i : Instr} {f : Format} {bs : List Byte} (h : encode i = some (f, bs)) :
    decode f bs = .ok i := by
  cases i with
  | cmd0 | cmd1 | cmd8 | cmd9 | cmd16 | cmd17 | cmd24 | cmd55 | acmd41 | cmd58 | cmd59On | cmd59Off =>
    cases h; exact decode_encodeFrame _ _
  | init | deinit | read | write => cases h; exact decode_encodeRequest _ _
  | stOk | stFail | stNoinit | filler | startBlock | drspAccepted | r0None | r0Ready | r0Idle | r0V1 => cases h; rfl
  | crc7 | crc16 | sendCommand | checkCommand | findToken | readBlock => cases h

/-- Settles O1: an encoded row is a frame or a request, which give their fields back, or a single byte; what is left are
the micro-operations. -/
theorem decodeOfEncode : Obligations.DecodeOfEncode := by
  refine ⟨fun i f bs h => decode_of_encode h, fun i h => ?_⟩
  cases i with
  | crc7 d => exact .inl ⟨d, rfl⟩
  | crc16 d => exact .inr (.inl ⟨d, rfl⟩)
  | sendCommand c a fl => exact .inr (.inr (.inl ⟨c, a, fl, rfl⟩))
  | checkCommand c a fl e m => exact .inr (.inr (.inr (.inl ⟨c, a, fl, e, m, rfl⟩)))
  | findToken k us => exact .inr (.inr (.inr (.inr (.inl ⟨k, us, rfl⟩))))
  | readBlock c a l d => exact .inr (.inr (.inr (.inr (.inr ⟨c, a, l, d, rfl⟩))))
  | _ => cases h

/-! ## Encoding what was decoded -/

theorem eq_ofNat_of_toNat_eq {w n : Nat} {x : BitVec w} (h : x.toNat = n) : x = BitVec.ofNat w n := by
  rw [← h, BitVec.ofNat_toNat, BitVec.setWidth_eq]

/-- A format with one byte and one instruction accepts that byte alone. -/
theorem eq_of_ite_ok {b c : Byte} {i j : Instr} {e : DecodeError}
    (h : (if b = c then Except.ok j else .error e) = .ok i) : b = c ∧ j = i := by
  split at h
  case isTrue hb => cases h; exact ⟨hb, rfl⟩
  case isFalse => cases h

/-- A command index and argument that are an instruction's are the fields of its frame, and the index is one the block
emits (R102, R104, R106). -/
theorem decodeCommand_encode {index : BitVec 6} {arg : Word} {i : Instr} (h : decodeCommand index arg = .ok i) :
    emitted index = true ∧ encode i = some (.cmd48, encodeFrame index arg) := by
  unfold decodeCommand at h
  split at h
  case h_12 => cases h
  all_goals
    rename_i hindex
    obtain rfl : index = _ := eq_ofNat_of_toNat_eq hindex
    refine ⟨rfl, ?_⟩
    repeat' split at h
    all_goals cases h
    all_goals subst_vars; rfl

/-- The request of two fields is encoded as these fields (R100; log 23). -/
theorem encode_decodeRequest (op : BitVec 2) (sector : Word) :
    encode (decodeRequest op sector) = some (.hreq, encodeRequest op sector) := by
  have hop : op = 0 ∨ op = 1 ∨ op = 2 ∨ op = 3 := by revert op; decide
  rcases hop with rfl | rfl | rfl | rfl <;> rfl

/-- Whatever decodes as a host request is an encoded request (R100; log 23). -/
theorem decode_request_ok {bs : List Byte} {i : Instr} (h : decode .hreq bs = .ok i) :
    ∃ op sector, bs = encodeRequest op sector ∧ i = decodeRequest op sector := by
  have first : ∀ b : Byte, b.extractLsb' 2 6 = 0#6 → (0#6 ++ b.extractLsb' 0 2 : BitVec 8) = b := by decide
  unfold decode at h
  split at h
  case h_2 b0 b1 b2 b3 b4 hf =>
    split at h
    · cases h
    · rename_i hzero
      cases h
      refine ⟨_, _, ?_, rfl⟩
      rw [encodeRequest, wordBytes_wordOfBytes, first b0 (Decidable.not_not.1 hzero)]
  case h_8 => cases h
  all_goals rename_i hf; cases hf

/-- The three statuses stand in bytes 0, 1 and 2 (R101; log 23). -/
theorem decodeStatus_encode {b : Byte} {i : Instr} (h : decodeStatus b = .ok i) : encode i = some (.hrsp, [b]) := by
  unfold decodeStatus at h
  split at h
  case h_1 hb | h_2 hb | h_3 hb =>
    obtain rfl : b = _ := eq_ofNat_of_toNat_eq hb
    cases h; rfl
  all_goals cases h

/-- Settles O2: a frame and a request are the encoding of their fields, and the other three formats have one byte for each
instruction. -/
theorem encodeOfDecode : Obligations.EncodeOfDecode := by
  intro f hf bs i h
  simp only [List.mem_cons, List.not_mem_nil, or_false] at hf
  rcases hf with rfl | rfl | rfl | rfl | rfl
  · obtain ⟨index, arg, rfl, hcmd⟩ := decode_frame_ok h
    exact (decodeCommand_encode hcmd).2
  · obtain ⟨op, sector, rfl, rfl⟩ := decode_request_ok h
    exact encode_decodeRequest op sector
  · match bs, h with
    | [b], h => exact decodeStatus_encode h
  · match bs, h with
    | [b], h => obtain ⟨rfl, rfl⟩ := eq_of_ite_ok h; rfl
  · match bs, h with
    | [b], h => obtain ⟨rfl, rfl⟩ := eq_of_ite_ok h; rfl

/-! ## The frame builder -/

/-- The builder's six bytes: index and argument, then the CRC7 of the five bytes they stand in (R92 to R94). -/
theorem frameBytes_toList (index : BitVec 6) (arg : Word) : (frameBytes index arg).toList =
    ((0x40#8 ||| index.zeroExtend 8) :: wordBytes arg) ++ [crc7Of ((0x40#8 ||| index.zeroExtend 8) :: wordBytes arg)] :=
  rfl

/-- The frame builder and the encoder form the same frame (R91; 41_command.md R151). -/
theorem frameBytes_eq_encodeFrame (index : BitVec 6) (arg : Word) :
    (frameBytes index arg).toList = encodeFrame index arg := by
  rw [frameBytes_toList, frameByte0, encodeFrame, crc7Of, (stopBit _).2]

/-- Settles O3: bytes that decode as a frame are the encoder's frame of an emitted index, and that is the builder's. -/
theorem onlyBuiltFramesDecode : Obligations.OnlyBuiltFramesDecode := by
  intro bs i h
  obtain ⟨index, arg, rfl, hcmd⟩ := decode_frame_ok h
  exact ⟨index, arg, (decodeCommand_encode hcmd).1, (frameBytes_eq_encodeFrame index arg).symm⟩

theorem crc7Of_stopBit (data : List Byte) : (crc7Of data).getLsbD 0 = true := by
  rw [crc7Of, BitVec.getLsbD_or]
  exact Bool.or_true _

/-- Settles O4: the builder's bytes are those of the fields by definition; byte 5 ends with the stop bit of `crc7`. -/
theorem frameLayout : Obligations.FrameLayout := by
  intro index arg fb
  exact ⟨rfl, frameByte0 index, rfl, rfl, rfl, rfl, rfl, crc7Of_stopBit _, frameBytes_eq_encodeFrame index arg⟩

/-! ## Words of the spec's tables -/

/-- Settles O5: the words of the formats without open bits are encodings; the data response 0xE5 and the response 0x05 have
open bits set and are decoded as they stand. -/
theorem specWordsDecode : Obligations.SpecWordsDecode := by
  refine ⟨decode_of_encode ?_, decode_of_encode ?_, decode_of_encode ?_, decode_of_encode ?_, decode_of_encode ?_,
    decode_of_encode ?_, decode_of_encode ?_, decode_of_encode ?_, ?_, ?_⟩ <;> decide +kernel

end Sys2Proof.Machine
end

section
/-! PROOF. Frames, single bytes and tests of a response, run by themselves (30_encoding.md R95 to R99, R102, R104;
41_command.md R151). -/

namespace Sys2Proof.Machine

/-! ## Command frames -/

/-- Sending a frame by itself writes `ARG` and `FB` and exchanges the frame's bytes (R151; log 10). -/
theorem sendCommandFrame_frame (cmd : BitVec 6) (arg : Word) (s : State) : sendCommandFrame cmd arg s = { s with
    arg := arg
    fb := frameBytes cmd arg
    bus := (sendCommandFrame cmd arg s).bus } := rfl

theorem sendCommandFrame_exchanged (cmd : BitVec 6) (arg : Word) (s : State) :
    ∃ rx, Exchanged (frameBytes cmd arg).toList rx s.bus (sendCommandFrame cmd arg s).bus :=
  ⟨_, Bus.exchanged_send _ s.bus⟩

/-- An instruction that sends the frame `fb` by itself, what it does to the state (R102, R151). -/
theorem frame_sent {i : Instr} {cmd : BitVec 6} {arg : Word} {fb : Vector Byte 6} {s : State}
    (hexec : exec i s = .next (sendCommandFrame cmd arg s)) (hfb : frameBytes cmd arg = fb) :
    ∃ t rx, exec i s = .next t ∧ Exchanged fb.toList rx s.bus t.bus ∧
      t = { s with arg := arg, fb := fb, bus := t.bus } ∧ ∀ a, t.buf.read a = s.buf.read a := by
  subst hfb
  obtain ⟨rx, hrx⟩ := sendCommandFrame_exchanged cmd arg s
  exact ⟨_, rx, hexec, hrx, sendCommandFrame_frame cmd arg s, fun _ => rfl⟩

/-- Settles O10: each row sends its frame, and the builder's six bytes are those of the spec's table. -/
theorem fixedFramesAreSent : Obligations.FixedFramesAreSent := by
  intro p hp s
  simp only [List.mem_cons, List.not_mem_nil, or_false] at hp
  rcases hp with rfl | rfl | rfl | rfl | rfl | rfl | rfl | rfl <;> exact frame_sent rfl (by decide +kernel)

/-- The same, with the frame's bytes written out from byte 0 and the argument, most significant byte first (R92 to R94). -/
theorem argument_frame_sent {i : Instr} {cmd : BitVec 6} {b0 : Byte} {arg : Word} {s : State}
    (hexec : exec i s = .next (sendCommandFrame cmd arg s)) (h0 : 0x40#8 ||| cmd.zeroExtend 8 = b0) :
    let head := b0 :: wordBytes arg
    ∃ t rx, exec i s = .next t ∧ Exchanged (head ++ [crc7Of head]) rx s.bus t.bus ∧
      t.fb.toList = head ++ [crc7Of head] ∧ t = { s with arg := arg, fb := t.fb, bus := t.bus } ∧
      ∀ a, t.buf.read a = s.buf.read a := by
  subst h0
  obtain ⟨rx, hrx⟩ := sendCommandFrame_exchanged cmd arg s
  exact ⟨_, rx, hexec, hrx, frameBytes_toList cmd arg, rfl, fun _ => rfl⟩

/-- Settles O11: the frame that is sent is the builder's for every argument, byte 0 that of the row's index. -/
theorem argumentFramesAreSent : Obligations.ArgumentFramesAreSent := by
  intro arg s p hp
  simp only [List.mem_cons, List.not_mem_nil, or_false] at hp
  rcases hp with rfl | rfl | rfl <;> exact argument_frame_sent rfl rfl

/-! ## Single bytes -/

/-- One exchange brings in the card's next answer. -/
theorem Bus.exchanged_xfer (tx : Byte) (b : Bus) : Exchanged [tx] [b.rx] b (b.xfer tx) := by
  have h := Bus.exchanged_send [tx] b
  rwa [List.length_singleton, Bus.answers_succ 0 tx, Bus.answers_zero] at h

/-- Settles O14: both rows are one exchange; FILLER keeps the byte that came in. -/
theorem singleBytesAreExchanged : Obligations.SingleBytesAreExchanged :=
  ⟨fun s => ⟨_, _, rfl, Bus.exchanged_xfer _ s.bus, rfl, fun _ => rfl⟩,
    fun s => ⟨_, _, rfl, Bus.exchanged_xfer _ s.bus, rfl, fun _ => rfl⟩⟩

/-! ## Tests of a response -/

theorem testNone_eq (rb : Vector Byte 8) : testNone rb = decide (rb[0].toNat = 255) := by
  have h : ∀ b : Byte, (b == 0xFF#8) = decide (b.toNat = 255) := by decide
  exact h _

theorem testReady_eq (rb : Vector Byte 8) : testReady rb = decide (rb[0].toNat = 0) := by
  have h : ∀ b : Byte, (b == 0x00#8) = decide (b.toNat = 0) := by decide
  exact h _

theorem testIdle_eq (rb : Vector Byte 8) : testIdle rb = decide (rb[0].toNat = 1) := by
  have h : ∀ b : Byte, (b == 0x01#8) = decide (b.toNat = 1) := by decide
  exact h _

theorem testV1_eq (rb : Vector Byte 8) : testV1 rb = decide (rb[0].toNat / 4 % 2 = 1) := by
  have h : ∀ b : Byte, b.getLsbD 2 = decide (b.toNat / 4 % 2 = 1) := by decide
  exact h _

/-- Settles O15: each row leaves the outcome of its test, and only R0_V1 writes `VER`. -/
theorem responseTests : Obligations.ResponseTests := by
  intro s
  rw [← testNone_eq, ← testReady_eq, ← testIdle_eq, ← testV1_eq]
  refine ⟨rfl, rfl, rfl, _, rfl, rfl, ?_⟩
  simp only [testV1_eq, decide_eq_true_eq]

/-- A window of nothing but filler holds no data response (44_block_io.md R267). -/
theorem not_acceptedWindow_of_filler {l : List Byte} (h : ∀ b ∈ l, b = 0xFF#8) : ¬ AcceptedWindow l := by
  rintro ⟨b, hfind, -⟩
  have hb : b ≠ 0xFF#8 := by simpa using List.find?_some hfind
  exact hb (h b (List.mem_of_find?_eq_some hfind))

/-- The first byte that is not filler is the data response (R98; 44_block_io.md R267). -/
theorem acceptedWindow_iff_first {l : List Byte} {j : Nat} (hj : j < l.length) (hr : l[j] ≠ 0xFF#8)
    (hfill : ∀ k (hk : k < j), l[k] = 0xFF#8) : AcceptedWindow l ↔ l[j].toNat % 32 = 5 := by
  have hfind : l.find? (fun b => b != 0xFF#8) = some l[j] :=
    List.find?_eq_some_iff_getElem.2 ⟨by simpa using hr, j, hj, rfl, fun k hk => by simp [hfill k hk]⟩
  simp only [AcceptedWindow, hfind, Option.some.injEq, exists_eq_left']

/-- Settles O16: the outcome is `AcceptedWindow` of the window, which its first byte that is not filler decides. -/
theorem dataResponseTest : Obligations.DataResponseTest := by
  refine fun s => ⟨testAccepted s.rb, rfl, fun hfill => ?_, fun j hr hfill => ?_⟩
  · rw [← Bool.not_eq_true, testAccepted_iff]
    refine not_acceptedWindow_of_filler fun b hb => ?_
    obtain ⟨k, hk, rfl⟩ := List.getElem_of_mem hb
    rw [Vector.length_toList] at hk
    exact hfill ⟨k, hk⟩
  · rw [testAccepted_iff]
    exact acceptedWindow_iff_first (l := s.rb.toList) (j := j) (by simp) hr
      fun k hk => hfill ⟨k, hk.trans j.isLt⟩ hk

end Sys2Proof.Machine
end

section
/-! PROOF. The outcome of WRITE (44_block_io.md R264 to R269). -/

namespace Sys2Proof.Machine

/-- How a WRITE that stands at `u`, everything exchanged, ends (R265, R268): `st` is its response and `v` the state that
response is given on. -/
def WriteEnded (u : State) (st : Status) (v : State) : Prop :=
  (st = .ok ∧ v = u) ∨ (st = .fail ∧ v = orErr .writeError u)

/-- What the bytes received after the frame say about the response of a WRITE: without an answer to CMD24 nothing more
comes in, with one the data response and the busy wait decide (R265 to R268). -/
def WriteVerdict (st : Status) (answer rest : List Byte) : Prop :=
  (answer = List.replicate 8 0xFF#8 ∧ rest = [] ∧ st = .fail) ∨
    ((∃ b ∈ answer, b ≠ 0xFF#8) ∧ ∃ data window idle, rest = data ++ window ++ idle ∧ data.length = 515 ∧
      window.length = 8 ∧ Awaited 0xFF#8 idle ∧ (st = .ok ↔ AcceptedWindow window ∧ 0xFF#8 ∈ idle))

/-- Everything a WRITE of an initialised block can end in, its verdict tied to the bytes received (R264 to R268). -/
theorem writeBody_verdict {sector : Word} {s : State} (h : hasFlag .initialized s = true) :
    ∃ (u v : State) (evs : List Event) (st : Status) (skip answer rest : List Byte),
      writeBody sector s = respond st v ∧ WriteEnded u st v ∧ WriteVerdict st answer rest ∧
      u = { s with
        cs := true
        fb := frameBytes 24 (mapSector sector s)
        arg := mapSector sector s
        crc := crc16Of (s.buf.load 0 Config.sectorSize)
        rb := u.rb
        deadline := u.deadline
        bus := u.bus } ∧
      u.bus.trace = s.bus.trace ++ ([.prepare, .cs false] ++ evs ++ [.cs true]) ∧ (∀ e ∈ evs, e.isWait = true) ∧
      receivedBytes evs = skip ++ answer ++ rest ∧ skip.length = 6 ∧ answer.length = 8 := by
  obtain ⟨u, evs, hu, htrace, hevs, -, -, skip, answer, rest, hrecv, hskip, hanswer, hend⟩ :=
    writeBody_history (sector := sector) h
  rcases hend with ⟨hfill, hrest, hbody⟩ | ⟨hresp, data, window, idle, hrest, hdata, hwindow, hidle, hend⟩
  · exact ⟨u, _, evs, .fail, skip, answer, rest, hbody, .inr ⟨rfl, rfl⟩, .inl ⟨hfill, hrest, rfl⟩, hu, htrace, hevs,
      hrecv, hskip, hanswer⟩
  · have verdict {st : Status} (hst : st = .ok ↔ AcceptedWindow window ∧ 0xFF#8 ∈ idle) : WriteVerdict st answer rest :=
      .inr ⟨hresp, data, window, idle, hrest, hdata, hwindow, hidle, hst⟩
    rcases hend with ⟨hacc, hmem, hbody⟩ | ⟨hnot, hbody⟩
    · exact ⟨u, _, evs, .ok, skip, answer, rest, hbody, .inl ⟨rfl, rfl⟩,
        verdict (iff_of_true rfl ⟨hacc, hmem⟩), hu, htrace, hevs, hrecv, hskip, hanswer⟩
    · exact ⟨u, _, evs, .fail, skip, answer, rest, hbody, .inr ⟨rfl, rfl⟩,
        verdict (iff_of_false (by decide) hnot), hu, htrace, hevs, hrecv, hskip, hanswer⟩

/-- Settles O29: the body of WRITE ends with its one response, which follows from the bytes received, on a state that holds
all the rest. -/
theorem writeOutcome : Obligations.WriteOutcome := by
  intro sector s hflag
  obtain ⟨u, v, evs, st, skip, answer, rest, hbody, hend, hverdict, hu, htrace, hevs, hrecv, hskip, hanswer⟩ :=
    writeBody_verdict (sector := sector) (s := accept 3 sector [.write sector] s) ((hasFlag_initialized s).trans hflag)
  have hexec := execWrite_eq sector s
  rw [hbody] at hexec
  have herr : u.err = s.err := by rw [hu]; rfl
  have hcrc : u.crc = crc16Of (s.buf.load 0 512) := by rw [hu]; rfl
  have hbuf : u.buf = s.buf := by rw [hu]; rfl
  have hbus : v.bus = u.bus := by rcases hend with ⟨-, rfl⟩ | ⟨-, rfl⟩ <;> rfl
  refine ⟨_, evs, st, skip, answer, rest, hexec, respond_trace st (hbus ▸ htrace), hevs, rfl, hrecv, hskip, hanswer,
    hverdict, ?_⟩
  rcases hend with ⟨rfl, rfl⟩ | ⟨rfl, rfl⟩
  · refine ⟨.inl ⟨rfl, herr⟩, hcrc, ?_, fun a => congrArg (Memory.read · a) hbuf⟩
    rw [hu]; rfl
  · refine ⟨.inr ⟨rfl, congrArg (· ||| 0x40#8) herr⟩, hcrc, ?_, fun a => congrArg (Memory.read · a) hbuf⟩
    rw [hu]; rfl

end Sys2Proof.Machine
end

section
/-! PROOF. The CRC engine (40_crc.md R130 to R136): both functions are one linear shift register, fed a byte at a time. -/

namespace Sys2Proof.Machine

/-! ## The shift register -/

/-- One step of a CRC register of any width with generator `g`, taking in one bit: the common form of the model's
shift steps and of the serial CRCs (R131, R134). -/
def crcStep {w : Nat} (g c : BitVec w) (bit : Bool) : BitVec w :=
  if c.msb != bit then (c <<< 1) ^^^ g else c <<< 1

/-- The first `n` bits of a word, most significant bit first (20_memory.md R63). -/
def leadingBits {w : Nat} (n : Nat) (x : BitVec w) : List Bool :=
  (List.range n).map x.getMsbD

theorem serial7_eq_crcStep : serial7 = crcStep 0x09#7 := rfl

theorem serial16_eq_crcStep : serial16 = crcStep 0x1021#16 := rfl

theorem crc7Bit_eq_crcStep : crc7Bit = (crcStep 0x12#8 · false) := by
  funext c
  rw [crc7Bit, crcStep, Bool.bne_false]

theorem crc16Bit_eq_crcStep : crc16Bit = (crcStep 0x1021#16 · false) := by
  funext c
  rw [crc16Bit, crcStep, Bool.bne_false]

theorem messageBits_eq_leadingBits (data : List Byte) : messageBits data = data.flatMap (leadingBits 8) := rfl

/-- A step is linear in the register and the bit together: the two feedback bits add, and each brings in the generator. -/
theorem crcStep_xor {w : Nat} (g c d : BitVec w) (a b : Bool) :
    crcStep g (c ^^^ d) (a ^^ b) = crcStep g c a ^^^ crcStep g d b := by
  have hfeedback : ((c ^^^ d).msb != (a ^^ b)) = ((c.msb != a) ^^ (d.msb != b)) := by
    simp only [BitVec.msb_xor, Bool.bne_eq_xor, Bool.xor_assoc, Bool.xor_left_comm]
  simp only [crcStep, hfeedback, BitVec.shiftLeft_xor_distrib]
  have hleft : c <<< 1 ^^^ d <<< 1 ^^^ g = c <<< 1 ^^^ g ^^^ d <<< 1 := by ac_rfl
  have hboth : c <<< 1 ^^^ d <<< 1 = c <<< 1 ^^^ g ^^^ (d <<< 1 ^^^ g) := by
    rw [← BitVec.xor_assoc, ← hleft, BitVec.xor_assoc, BitVec.xor_self, BitVec.xor_zero]
  cases c.msb != a <;> cases d.msb != b
  · rfl
  · exact BitVec.xor_assoc ..
  · exact hleft
  · exact hboth

/-- A bit equal to the register's top bit brings in no generator. -/
theorem crcStep_msb {w : Nat} (g x : BitVec w) : crcStep g x x.msb = x <<< 1 := by
  simp [crcStep]

/-- Steps on a zero bit are linear, as each of them is. -/
theorem repeat_crcStep_xor {w : Nat} (g c d : BitVec w) (n : Nat) :
    Nat.repeat (crcStep g · false) n (c ^^^ d) =
      Nat.repeat (crcStep g · false) n c ^^^ Nat.repeat (crcStep g · false) n d := by
  induction n with
  | zero => rfl
  | succ n ih => simpa only [Nat.repeat, ih, Bool.xor_false] using crcStep_xor g _ _ false false

theorem repeat_crcStep_zero {w : Nat} (g : BitVec w) (n : Nat) : Nat.repeat (crcStep g · false) n 0#w = 0#w := by
  simpa only [BitVec.xor_self] using repeat_crcStep_xor g 0#w 0#w n

/-- Adding a word to the register and then shifting is the same as feeding the word's bits in one at a time: what is not
yet fed in stands shifted beside the register (D12: the reading of R131's and R134's loop). -/
theorem repeat_crcStep_eq_foldl {w : Nat} (g c x : BitVec w) (n : Nat) :
    Nat.repeat (crcStep g · false) n (c ^^^ x) = (leadingBits n x).foldl (crcStep g) c ^^^ x <<< n := by
  induction n with
  | zero => simp [Nat.repeat, leadingBits]
  | succ n ih =>
    have hbit : x.getMsbD n = (x <<< n).msb := by rw [BitVec.msb_eq_getMsbD_zero, BitVec.getMsbD_shiftLeft, Nat.zero_add]
    have hfold : (leadingBits (n + 1) x).foldl (crcStep g) c =
        crcStep g ((leadingBits n x).foldl (crcStep g) c) (x <<< n).msb := by
      rw [leadingBits, List.range_succ, List.map_append, List.foldl_append, ← hbit]
      rfl
    calc Nat.repeat (crcStep g · false) (n + 1) (c ^^^ x)
        = crcStep g (Nat.repeat (crcStep g · false) n (c ^^^ x)) false := rfl
      _ = crcStep g ((leadingBits n x).foldl (crcStep g) c ^^^ x <<< n) ((x <<< n).msb ^^ (x <<< n).msb) := by
          rw [ih, Bool.xor_self]
      _ = (leadingBits (n + 1) x).foldl (crcStep g) c ^^^ x <<< (n + 1) := by
          rw [crcStep_xor, crcStep_msb, hfold, BitVec.shiftLeft_add]

/-- Feeding a register its own bits clears it. -/
theorem foldl_crcStep_self {w : Nat} (g c : BitVec w) : (leadingBits w c).foldl (crcStep g) c = 0#w := by
  have h := repeat_crcStep_eq_foldl g c c w
  rwa [BitVec.xor_self, repeat_crcStep_zero, BitVec.shiftLeft_eq_zero le_rfl, BitVec.xor_zero, eq_comm] at h

/-! ## The model's CRCs, bit by bit -/

theorem crc7Byte_eq_foldl : crc7Byte = fun c b => (leadingBits 8 b).foldl (crcStep 0x12#8) c := by
  funext c b
  rw [crc7Byte, crc7Bit_eq_crcStep, repeat_crcStep_eq_foldl, BitVec.shiftLeft_eq_zero le_rfl, BitVec.xor_zero]

/-- The byte that R134 places in the high half of the register leads it. -/
theorem leadingBits_highByte (b : Byte) : leadingBits 8 (b.zeroExtend 16 <<< 8) = leadingBits 8 b := by
  refine congrArg (List.range 8).map (funext fun i => ?_)
  rw [BitVec.getMsbD_shiftLeft]
  simp [BitVec.getMsbD_setWidth]

theorem crc16Byte_eq_foldl : crc16Byte = fun c b => (leadingBits 8 b).foldl serial16 c := by
  funext c b
  rw [crc16Byte, crc16Bit_eq_crcStep, repeat_crcStep_eq_foldl, leadingBits_highByte, serial16_eq_crcStep,
    ← BitVec.shiftLeft_add, BitVec.shiftLeft_eq_zero le_rfl, BitVec.xor_zero]

theorem crc7Raw_eq_foldl (data : List Byte) : crc7Raw data = (messageBits data).foldl (crcStep 0x12#8) 0#8 := by
  rw [crc7Raw, messageBits_eq_leadingBits, List.foldl_flatMap, crc7Byte_eq_foldl]

theorem crc16Of_eq_foldl (data : List Byte) : crc16Of data = (messageBits data).foldl serial16 0#16 := by
  rw [crc16Of, messageBits_eq_leadingBits, List.foldl_flatMap, crc16Byte_eq_foldl]

/-- The 8-bit register of R131 is the 7-bit one with a 0 below it, and 0x12 is 0x09 in bits 7:1 (D12). -/
theorem crcStep_append_zero (r : BitVec 7) (bit : Bool) :
    crcStep 0x12#8 (r ++ 0#1) bit = (serial7 r bit ++ 0#1 : BitVec 8) := by
  revert r bit
  decide

theorem crc7Raw_eq_serial (data : List Byte) :
    crc7Raw data = ((messageBits data).foldl serial7 0#7 ++ 0#1 : BitVec 8) := by
  rw [crc7Raw_eq_foldl]
  exact List.foldl_hom (α₂ := Byte) (init := 0#7) (· ++ 0#1) crcStep_append_zero

/-- Settles O6: the 8-bit register holds the serial one in bits 7:1 and 0 in bit 0, which the final `or` sets. -/
theorem crc7IsTheSerialCrc : Obligations.Crc7IsTheSerialCrc := by
  intro data s
  have hor : ∀ r : BitVec 7, (r ++ 0#1 : BitVec 8) ||| 0x01#8 = (r ++ 1#1 : BitVec 8) := by decide
  exact ⟨crc7Of data, rfl, by rw [crc7Of, crc7Raw_eq_serial, hor]⟩

/-- Settles O7: the register that takes in bytes is the one that takes in their bits. -/
theorem crc16IsTheSerialCrc : Obligations.Crc16IsTheSerialCrc := by
  intro data s
  rw [← crc16Of_eq_foldl]
  rfl

/-! ## The residue -/

/-- The two bytes of a CRC, high byte first, carry its bits from the top down (20_memory.md R61, R63). -/
theorem messageBits_halfBytes (h : Half) : messageBits (halfBytes h) = leadingBits 16 h := by
  simp [messageBits, halfBytes, leadingBits, List.range_succ, BitVec.getMsbD]

/-- Settles O8: the register that the data leave takes in its own bits and is cleared. -/
theorem crc16Residue : Obligations.Crc16Residue := by
  intro data
  have happend : messageBits (data ++ halfBytes (crc16Of data)) = messageBits data ++ leadingBits 16 (crc16Of data) := by
    rw [← messageBits_halfBytes]
    exact List.flatMap_append
  rw [crc16Of_eq_foldl, happend, List.foldl_append, ← crc16Of_eq_foldl]
  exact foldl_crcStep_self 0x1021#16 (crc16Of data)

/-! ## Linearity -/

theorem crc7Byte_xor (c d x y : Byte) : crc7Byte (c ^^^ d) (x ^^^ y) = crc7Byte c x ^^^ crc7Byte d y := by
  have hinput : c ^^^ d ^^^ (x ^^^ y) = c ^^^ x ^^^ (d ^^^ y) := by ac_rfl
  simp only [crc7Byte, hinput, crc7Bit_eq_crcStep, repeat_crcStep_xor]

theorem crc16Byte_xor (c d : Half) (x y : Byte) : crc16Byte (c ^^^ d) (x ^^^ y) = crc16Byte c x ^^^ crc16Byte d y := by
  have hinput (u v : Half) : c ^^^ d ^^^ (u ^^^ v) = c ^^^ u ^^^ (d ^^^ v) := by ac_rfl
  simp only [crc16Byte, BitVec.truncate_eq_setWidth, BitVec.setWidth_xor, BitVec.shiftLeft_xor_distrib, hinput,
    crc16Bit_eq_crcStep, repeat_crcStep_xor]

/-- A register whose step for a byte is linear is linear in messages of equal length. -/
theorem foldl_zipWith_xor {w : Nat} {step : BitVec w → Byte → BitVec w}
    (hstep : ∀ c d x y, step (c ^^^ d) (x ^^^ y) = step c x ^^^ step d y) {xs ys : List Byte}
    (hlen : xs.length = ys.length) (c d : BitVec w) :
    (List.zipWith (· ^^^ ·) xs ys).foldl step (c ^^^ d) = xs.foldl step c ^^^ ys.foldl step d := by
  induction xs generalizing ys c d with
  | nil => cases List.length_eq_zero_iff.1 hlen.symm; rfl
  | cons x xs ih =>
    match ys with
    | y :: ys =>
      rw [List.zipWith_cons_cons, List.foldl_cons, hstep]
      exact ih (Nat.succ.inj hlen) _ _

/-- Settles O9: the byte steps of both CRCs are linear, and both start from zero. -/
theorem crcsAreLinear : Obligations.CrcsAreLinear := by
  intro xs ys hlen
  unfold crc7Raw crc16Of
  exact ⟨foldl_zipWith_xor crc7Byte_xor hlen 0#8 0#8, foldl_zipWith_xor crc16Byte_xor hlen 0#16 0#16⟩

end Sys2Proof.Machine
end

section
/-! PROOF. The CMD55 row and `send_command`, run by themselves (41_command.md R150 to R160). -/

namespace Sys2Proof.Machine

/-! ## CMD55 before a command -/

/-- `appPrefix` writes `FB` and exchanges the CMD55 frame and eight filler bytes (R152). -/
theorem appPrefix_frame (s : State) : appPrefix s = { s with
    fb := frameBytes 55 argNone
    bus := s.bus.send ((frameBytes 55 argNone).toList ++ List.replicate Config.windowLen Config.fillerByte) } := by
  rw [Bus.send_append]; rfl

theorem frameBytes_cmd55 : frameBytes 55 argNone = #v[0x77#8, 0x00#8, 0x00#8, 0x00#8, 0x00#8, 0x65#8] :=
  Vector.toList_inj.1 prefixFrame

/-- Settles O12: the row is `appPrefix`, its frame the builder's for CMD55. -/
theorem prefixCostsFourteenExchanges : Obligations.PrefixCostsFourteenExchanges := by
  intro s
  have hexec : exec .cmd55 s = .next (appPrefix s) := rfl
  rw [appPrefix_frame, frameBytes_cmd55] at hexec
  exact ⟨_, _, hexec, Bus.length_answers 14 s.bus, Bus.exchanged_send _ s.bus, rfl, fun _ => rfl⟩

/-! ## `send_command` -/

theorem exec_sendCommand (cmd : BitVec 6) (arg : Word) (fl : CmdFlags) (s : State) :
    exec (.sendCommand cmd arg fl) s =
      .next { (sendCommand cmd arg fl s).2 with ret := .byte (sendCommand cmd arg fl s).1 } := rfl

/-- Settles O17: the bracket's extra exchanges are those `extraOf` counts in the window that was read. -/
theorem sendCommandBracket : Obligations.SendCommandBracket := by
  intro cmd arg fl s
  obtain ⟨rx, e, he, hlen, htrace⟩ := sendCommand_trace cmd arg fl s
  have hmiso : (sendCommand cmd arg fl s).2.bus.miso = s.bus.miso.drop rx.length := by
    rw [sendCommand_miso, hlen, he]
  have hbound : e ≤ 4 := he ▸ extraOf_le _ _
  have hplain (h : fl.fullResponse = false) : e = 0 := by rw [he, h, extraOf_plain]
  refine ⟨_, e, rx, exec_sendCommand cmd arg fl s, htrace, ?_, hbound, hplain, hmiso,
    sendCommand_clock cmd arg fl s, rfl, ?_, fun _ => ?_⟩
  · rw [hlen, length_commandBytes, ← Nat.add_assoc]
  · exact congrArg (fun t : State => { t with ret := .byte (sendCommand cmd arg fl s).1 })
      (sendCommand_frame cmd arg fl s)
  · rw [sendCommand_buf]

/-- Settles O18: `sendCommand_response` where the window holds a response, `sendCommand_silent` where it holds none. -/
theorem responseScan : Obligations.ResponseScan := by
  intro cmd arg fl s skip more hskip
  rw [← length_commandBytes cmd arg] at hskip
  constructor
  · intro i r0 tail extra hr hi hextra hm
    obtain ⟨hret, hmore, hrb⟩ := sendCommand_response hr hi hextra (by simpa using hm) hskip
    exact ⟨_, exec_sendCommand cmd arg fl s, congrArg Ret.byte hret, hmore, hrb⟩
  · intro hm
    obtain ⟨hret, hrb, hmore⟩ := sendCommand_silent (by simpa using hm) hskip
    exact ⟨_, exec_sendCommand cmd arg fl s, congrArg Ret.byte hret, hmore, Vector.toList_inj.1 hrb⟩

end Sys2Proof.Machine
end

section
/-! PROOF. The policies, run by themselves: `check_command` (42_policies.md R180 to R184) and `find_token` (R186, R187). -/

namespace Sys2Proof.Machine

/-! ## `check_command` -/

theorem exec_checkCommand (cmd : BitVec 6) (arg : Word) (fl : CmdFlags) (expected m : Byte) (s : State) :
    exec (.checkCommand cmd arg fl expected m) s =
      .next { (checkCommand cmd arg fl expected m s).2 with
        ret := .bool (checkCommand cmd arg fl expected m s).1 } := rfl

theorem checkCommand_frame (cmd : BitVec 6) (arg : Word) (fl : CmdFlags) (expected m : Byte) (s : State) :
    (checkCommand cmd arg fl expected m s).2 = { s with
      cs := (checkCommand cmd arg fl expected m s).2.cs
      fb := (checkCommand cmd arg fl expected m s).2.fb
      arg := (checkCommand cmd arg fl expected m s).2.arg
      rb := (checkCommand cmd arg fl expected m s).2.rb
      att := (checkCommand cmd arg fl expected m s).2.att
      bus := (checkCommand cmd arg fl expected m s).2.bus } :=
  attempts_frame cmd arg fl _ m.toNat { s with att := 0#8 }

/-- Without a budget only `ATT` is written (R181). -/
theorem checkCommand_noBudget (cmd : BitVec 6) (arg : Word) (fl : CmdFlags) (expected : Byte) {m : Byte} (s : State)
    (hm : m.toNat = 0) : checkCommand cmd arg fl expected m s = (false, { s with att := 0#8 }) := by
  unfold checkCommand; rw [hm]; rfl

theorem resetAtt_add_le (m : Byte) (s : State) : ({ s with att := 0#8 } : State).att.toNat + m.toNat ≤ 255 := by
  have := m.isLt
  simp; omega

/-- Settles O19: the counts are those of the retry loop from `ATT = 0`; without a budget the state itself says that
nothing was exchanged. -/
theorem checkCommandCounts : Obligations.CheckCommandCounts := by
  intro cmd arg fl expected m s
  obtain ⟨k, evs, htrace, -, hatt, hle, hpos, hfail, hprepare, hlow, hhigh, hdelay⟩ :=
    attempts_counts cmd arg fl (fun r _ => compareResponse fl expected r) m.toNat _ (resetAtt_add_le m s)
  have htrace : (checkCommand cmd arg fl expected m s).2.bus.trace = s.bus.trace ++ evs := htrace
  refine ⟨_, _, k, evs, exec_checkCommand cmd arg fl expected m s, rfl, htrace, hatt.trans (Nat.zero_add k), hle, hfail,
    hpos, ?_, hprepare, hlow, hhigh, hdelay, ?_, ?_, fun _ => ?_⟩
  · intro hm
    rw [checkCommand_noBudget cmd arg fl expected s hm] at htrace ⊢
    exact ⟨rfl, List.self_eq_append_right.1 htrace, rfl⟩
  · exact congrArg (fun t : State => { t with ret := .bool (checkCommand cmd arg fl expected m s).1 })
      (checkCommand_frame cmd arg fl expected m s)
  · intro hm
    have hframe := (tried_checkCommand cmd arg fl expected m s hm).frame
    exact ⟨by rw [hframe], by rw [hframe], by rw [hframe]⟩
  · rw [checkCommand_buf]

theorem compareResponse_iff (fl : CmdFlags) (expected r : Byte) :
    compareResponse fl expected r = true ↔ Accepts fl expected r := by
  unfold compareResponse Accepts
  cases fl.notExpect <;> simp

/-- Settles O20: `attempts_first` for the comparison of R182, from `ATT = 0`. -/
theorem checkCommandFirstMatch : Obligations.CheckCommandFirstMatch := by
  intro cmd arg fl expected m s
  refine ⟨_, exec_checkCommand cmd arg fl expected m s, ?_⟩
  have hfirst := attempts_first cmd arg fl (compareResponse fl expected) m.toNat _ (resetAtt_add_le m s)
  simp only [← Bool.not_eq_true, compareResponse_iff] at hfirst
  obtain ⟨hok, k, hk, haccepted, hrb, hatt, hbefore⟩ | ⟨hok, hatt, hnone⟩ := hfirst
  · exact .inl ⟨congrArg Ret.bool hok, k, hk, haccepted, hrb, hatt.trans (by simp), hbefore⟩
  · exact .inr ⟨congrArg Ret.bool (Bool.eq_false_iff.2 hok), BitVec.eq_of_toNat_eq (hatt.trans (Nat.zero_add _)), hnone⟩

/-! ## `find_token` -/

theorem exec_findToken (token : Byte) (us : Word) (s : State) :
    exec (.findToken token us) s =
      .next { (findToken token us s).2 with ret := .bool (findToken token us s).1 } := rfl

/-- Settles O21: `findToken_waited`, with the look at the time that sets `DEADLINE` as the first event. -/
theorem findTokenNeverScansPast : Obligations.FindTokenNeverScansPast := by
  intro token us s
  obtain ⟨evs, rs, htrace, hwait, hreceived, hsent, hpolled, hfound, hmissed, hmiso⟩ := findToken_waited token us s
  exact ⟨_, _, _, rs, exec_findToken token us s, rfl, htrace, List.forall_mem_cons.2 ⟨rfl, hwait⟩, hreceived, hsent,
    hpolled, hfound, hmissed, hmiso, rfl, fun _ => rfl⟩

theorem Bus.poll_first_clock {w : Nat} {token : Byte} {deadline : Nat} {b : Bus} {more : List Byte}
    (h : b.miso = token :: more) : (Bus.poll w token deadline b.clock b).2.clock = b.clock := by
  have hr : b.rx = token := by simp [Bus.rx, h]
  cases hc : b.clock with
  | nil =>
    simp only [Bus.poll]
    cases Config.pollBudget b.free <;> simp [Bus.pollFree, Bus.rx, Bus.xfer, h, hc]
  | cons t ts => simp [Bus.poll, hr]

/-- A wait along listed ticks, all before the deadline, on a line that then shows the token: it succeeds, and takes
exactly the bytes and ticks up to there (R186). -/
theorem Bus.poll_found {w : Nat} {token : Byte} {deadline : Nat} {quiet more : List Byte} {ticks rest : List Nat}
    {b : Bus} (hq : token ∉ quiet) (ht : ∀ t ∈ ticks, before w (t % 2 ^ w) deadline = true)
    (hn : ticks.length = quiet.length) (hm : b.miso = quiet ++ token :: more) (hc : b.clock = ticks ++ rest) :
    (Bus.poll w token deadline (ticks ++ rest) b).1 = true ∧
      (Bus.poll w token deadline (ticks ++ rest) b).2.miso = more ∧
      (Bus.poll w token deadline (ticks ++ rest) b).2.clock = rest := by
  induction quiet generalizing ticks b with
  | nil =>
    obtain rfl := List.length_eq_zero_iff.1 hn
    obtain ⟨hfound, hmiso, -⟩ := Bus.poll_first (w := w) (deadline := deadline) hm
    have hclock := Bus.poll_first_clock (w := w) (deadline := deadline) hm
    rw [hc] at hfound hmiso hclock
    exact ⟨hfound, hmiso, hclock⟩
  | cons q qs ih =>
    obtain ⟨t, ts, rfl⟩ := List.exists_cons_of_length_eq_add_one hn
    simp only [List.mem_cons, not_or] at hq
    obtain ⟨hne, hqs⟩ := hq
    obtain ⟨hearly, hts⟩ := List.forall_mem_cons.1 ht
    have hr : b.rx ≠ token := by simpa [Bus.rx, hm] using Ne.symm hne
    simp only [List.cons_append, Bus.poll, if_neg hr, hearly, if_true]
    exact ih hqs hts (by simpa using hn) (by simp [Bus.xfer, hm]) rfl

/-- A wait whose token comes in time (R186, R187). -/
theorem findToken_inTime {token : Byte} {us : Word} {s : State} {t0 : Nat} {quiet more : List Byte}
    {ticks rest : List Nat} (hq : token ∉ quiet)
    (ht : ∀ t ∈ ticks, (2 : Int) ^ (s.cfg.tickW - 1) ≤
      ((t : Int) - ((t0 + us.toNat * s.cfg.ticksPerUs) % 2 ^ s.cfg.tickW : Nat)) % 2 ^ s.cfg.tickW)
    (hn : ticks.length = quiet.length) (hm : s.bus.miso = quiet ++ token :: more)
    (hc : s.bus.clock = t0 :: (ticks ++ rest)) :
    (findToken token us s).1 = true ∧ (findToken token us s).2.bus.miso = more ∧
      (findToken token us s).2.bus.clock = rest := by
  simp only [← before_iff] at ht
  have hclock : (s.bus.now s.cfg.tickW).clock = ticks ++ rest := by rw [Bus.now, hc, List.tail_cons]
  have := Bus.poll_found (b := s.bus.now s.cfg.tickW) hq ht hn hm hclock
  simpa only [findToken, Bus.nowTick, Bus.now, hc, usToTicks, ← Nat.add_mod, List.tail_cons] using this

/-- Settles O22: `findToken_inTime` where the token comes in time, `findToken_late` where the time source ends the
wait. -/
theorem findTokenDeadline : Obligations.FindTokenDeadline := by
  intro token us s t0 quiet more ticks rest w deadline early hq ht
  constructor
  · intro hm hc hn
    obtain ⟨hfound, hmiso, hclock⟩ := findToken_inTime hq ht hn hm hc
    exact ⟨_, exec_findToken token us s, congrArg Ret.bool hfound, findToken_deadline (token := token) hc, hmiso, hclock⟩
  · intro last hl hm hc hn
    rw [List.cons_append] at hc
    obtain ⟨hmissed, hmiso, hclock⟩ := findToken_late hq ht hl hn hm hc
    exact ⟨_, exec_findToken token us s, congrArg Ret.bool hmissed, findToken_deadline (token := token) hc, hmiso, hclock⟩

end Sys2Proof.Machine
end

section
/-! PROOF. DEINIT: two best-effort commands behind a latch (43_init.md R222). -/

namespace Sys2Proof.Machine

/-- The bracket of a `send_command` that asks for no full response: its command and the window, no exchange more (R159). -/
theorem sendCommand_bracket {cmd : BitVec 6} {arg : Word} {fl : CmdFlags} (hfl : fl.fullResponse = false) (s : State) :
    ∃ rx, rx.length = (commandBytes cmd arg fl.appCmd).length + 8 ∧
      (sendCommand cmd arg fl s).2.bus.trace = s.bus.trace ++
        bracket (commandBytes cmd arg fl.appCmd ++ List.replicate 8 0xFF#8) rx := by
  obtain ⟨rx, e, he, hlen, htrace⟩ := sendCommand_trace cmd arg fl s
  rw [hfl, extraOf_plain] at he
  subst he
  exact ⟨rx, hlen, htrace⟩

theorem commandBytes_cmd0 :
    commandBytes 0 argNone false = [0x40#8, 0x00#8, 0x00#8, 0x00#8, 0x00#8, 0x95#8] := by decide +kernel

theorem commandBytes_cmd59Off :
    commandBytes 59 argCrcOff false = [0x7B#8, 0x00#8, 0x00#8, 0x00#8, 0x00#8, 0x91#8] := by decide +kernel

/-- The state of DEINIT after its two commands. -/
def deinitSent (s : State) : State :=
  (sendCommand 59 argCrcOff CmdFlags.none (sendCommand 0 argNone CmdFlags.none s).2).2

theorem deinitSent_frame (s : State) : deinitSent s = { s with
    cs := true
    fb := (deinitSent s).fb
    arg := argCrcOff
    rb := (deinitSent s).rb
    bus := (deinitSent s).bus } := by
  unfold deinitSent
  rw [sendCommand_frame 59, sendCommand_frame 0]

/-- The two brackets of DEINIT, fourteen exchanges each (R222). -/
theorem deinitSent_trace (s : State) : ∃ rx ry, rx.length = 14 ∧ ry.length = 14 ∧
    (deinitSent s).bus.trace = s.bus.trace ++
      bracket ([0x40#8, 0x00#8, 0x00#8, 0x00#8, 0x00#8, 0x95#8] ++ List.replicate 8 0xFF#8) rx ++
      bracket ([0x7B#8, 0x00#8, 0x00#8, 0x00#8, 0x00#8, 0x91#8] ++ List.replicate 8 0xFF#8) ry := by
  obtain ⟨rx, hrx, htrace⟩ := sendCommand_bracket (cmd := 0) (arg := argNone) (fl := CmdFlags.none) rfl s
  obtain ⟨ry, hry, htrace'⟩ := sendCommand_bracket (cmd := 59) (arg := argCrcOff) (fl := CmdFlags.none) rfl
    (sendCommand 0 argNone CmdFlags.none s).2
  refine ⟨rx, ry, hrx, hry, ?_⟩
  rw [← commandBytes_cmd0, ← commandBytes_cmd59Off]
  exact htrace'.trans (congrArg (· ++ _) htrace)

/-- Settles O33: the body of DEINIT is its response, after the two commands and the latch where the latch is clear. -/
theorem deinitActsOnce : Obligations.DeinitActsOnce := by
  intro sector s
  have hexec : exec (.deinit sector) s = .next (deinitBody (accept 1 sector [.deinit] s)) := rfl
  have hlatch := hasFlag_deinitialized (accept 1 sector [.deinit] s)
  have hbuf := deinitBody_buf (accept 1 sector [.deinit] s)
  constructor
  · intro hclear
    rw [deinitBody_eq (hlatch.trans hclear)] at hexec hbuf
    obtain ⟨rx, ry, hrx, hry, htrace⟩ := deinitSent_trace (accept 1 sector [.deinit] s)
    have hframe := deinitSent_frame (accept 1 sector [.deinit] s)
    refine ⟨_, rx, ry, hexec, hrx, hry, congrArg (· ++ [Event.rsp .ok]) htrace, ?_,
      fun a => congrArg (Memory.read · a) hbuf⟩
    exact congrArg (fun u => respond .ok (setFlag .deinitialized u)) hframe
  · intro hset
    rw [deinitBody_latched (hlatch.trans hset)] at hexec
    exact ⟨_, hexec, by simp [Bus.emit], rfl, fun _ => rfl⟩

end Sys2Proof.Machine
end

section
/-! PROOF. How INIT begins and how it ends, whatever the card answers (43_init.md R200 to R204, R219 to R221). -/

namespace Sys2Proof.Machine

/-! ## The power-up framing -/

/-- INIT after step 1 (R203). -/
def poweredUp (s : State) : State :=
  skipBytes Config.powerupBytes (delay Config.powerupWaitUs (setRate .init (configure
    { s with seq := (initMiddle ++ [InitStep.commit]).map .init })))

theorem runInit_go {k : InitStep} {ks : List InitStep} {s t : State}
    (h : initStep k { s with seq := ks.map .init } = .go t) : runInit (k :: ks) s = runInit ks t := by
  rw [runInit_cons, h]

theorem runInit_poweredUp (s : State) : runInit initSteps s = runInit (initMiddle ++ [.commit]) (poweredUp s) := by
  rw [initSteps_eq]
  exact runInit_go rfl

theorem poweredUp_trace (s : State) : ∃ rx, rx.length = 10 ∧ (poweredUp s).bus.trace = s.bus.trace ++
    [.configure s.cfg.spiBus s.cfg.spiMode, .setRate .init, .delay 1000] ++
      List.zipWith Event.xfer (List.replicate 10 0xFF#8) rx := by
  obtain ⟨hlen, -, -, -, htrace⟩ := Bus.exchanged_send (List.replicate 10 0xFF#8)
    (delay Config.powerupWaitUs (setRate .init (configure s))).bus
  exact ⟨_, hlen, htrace.trans (by simp [Bus.emit])⟩

/-- Settles O34: step 1 is the first part of the history, and the rest of INIT only adds to it. -/
theorem initPowersUp : Obligations.InitPowersUp := by
  intro sector s
  obtain ⟨rx, hlen, htrace⟩ := poweredUp_trace (accept 0 sector (initSteps.map .init) s)
  obtain ⟨st, hend⟩ := runInit_end initMiddle (by decide) (poweredUp (accept 0 sector (initSteps.map .init) s)) rfl
  obtain ⟨evs, hrest, -⟩ := hend.quiet
  refine ⟨_, rx, evs ++ [.rsp st], rfl, hlen, ?_⟩
  rw [runInit_poweredUp, hrest, htrace]
  simp [Bus.emit]

/-! ## What INIT has established when it commits -/

/-- What one step of INIT establishes and the others keep holds where INIT answers ST_OK, which it does only at its
commit. -/
theorem runInit_established {P : State → Prop} {k₀ : InitStep} {ks : List InitStep} {s : State}
    (hseq : ∀ (q : List Point) u, P u → P { u with seq := q })
    (hgo : ∀ k u v, WentOn k u v → k = k₀ ∨ P u → P v)
    (hcommit : ∀ u v, Ended .commit u v .ok → P u → P v)
    (hp : .powerUp ∉ ks) (hc : .commit ∉ ks) (hcs : s.cs = true) (hs : k₀ ∈ ks ∨ P s)
    (hok : (runInit (ks ++ [.commit]) s).rsp = some .ok) : P (runInit (ks ++ [.commit]) s) := by
  induction ks generalizing s with
  | nil =>
    obtain ⟨t, ht, hended⟩ := initCommit_cases { s with seq := [] } hcs
    have hrun : runInit ([] ++ [.commit]) s = t := by
      rw [List.nil_append, runInit_cons, List.map_nil, initStep, ht]
    rw [hrun]
    exact hcommit _ _ hended (hseq [] _ (hs.resolve_left List.not_mem_nil))
  | cons k ks ih =>
    simp only [List.mem_cons, not_or] at hp hc hs
    rw [List.cons_append, runInit_cons] at hok ⊢
    rcases initStep_cases k { s with seq := (ks ++ [InitStep.commit]).map Point.init } (fun _ => hcs) with
      ⟨t, ht, hwent⟩ | ⟨t, st, ht, hended⟩
    · rw [ht] at hok ⊢
      refine ih hp.2 hc.2 hwent.stepped.cs ?_ hok
      rcases hs with (h | h) | h
      · exact .inr (hgo _ _ _ hwent (.inl h.symm))
      · exact .inl h
      · exact .inr (hgo _ _ _ hwent (.inr (hseq _ _ h)))
    · rw [ht] at hok
      obtain rfl : st = .ok := Option.some.inj (hended.rsp.symm.trans hok)
      rcases hended.cause with ⟨hk, -⟩ | ⟨hst, -⟩ | ⟨-, hst, -⟩
      · exact absurd hk.symm hc.1
      · cases hst
      · cases hst

/-- The card is classified: what step 3 establishes (R209). -/
def Classified (s : State) : Prop := s.ver = 1#2 ∨ s.ver = 2#2

theorem runInit_classified {s : State} (hcs : s.cs = true)
    (hok : (runInit (initMiddle ++ [.commit]) s).rsp = some .ok) : Classified (runInit (initMiddle ++ [.commit]) s) := by
  refine runInit_established (k₀ := .ifCond) (fun _ _ h => h) (fun k u v h hu => ?_) (fun u v h hu => ?_) (by decide)
    (by decide) hcs (.inl (by decide)) hok
  · have hver := h.ver
    unfold Classified at hu ⊢
    split at hver
    next => exact hver
    next hk => rw [hver]; exact hu.resolve_left hk
  · unfold Classified; rw [h.ver]; exact hu

/-- No write-protect bit is set in `CSD`: what step 9 establishes (R220). -/
theorem runInit_unprotected {s : State} (hcs : s.cs = true)
    (hok : (runInit (initMiddle ++ [.commit]) s).rsp = some .ok) :
    testWriteProtect (runInit (initMiddle ++ [.commit]) s).csd = false := by
  refine runInit_established (P := fun u => testWriteProtect u.csd = false) (k₀ := .writeProtect) (fun _ _ h => h)
    (fun k u v h hu => ?_) (fun u v h hu => ?_) (by decide) (by decide) hcs (.inl (by decide)) hok
  · have hcsd := h.csd
    split at hcsd
    next => exact hcsd
    next hk => rw [hcsd]; exact hu.resolve_left hk
  · rcases h.cause with ⟨-, -, -, -, -, hcsd⟩ | ⟨hst, -⟩ | ⟨hk, -⟩
    · rw [hcsd]; exact hu
    · cases hst
    · cases hk

theorem testWriteProtect_iff (csd : Vector Byte 16) : testWriteProtect csd = true ↔ csd[14] &&& 0x30#8 ≠ 0#8 := by
  rw [testWriteProtect, bne_iff_ne]

/-- Settles O35: `runInit_end` from the powered-up state, and what steps 3 and 9 have established where the answer is
ST_OK. -/
theorem initOutcome : Obligations.InitOutcome := by
  intro sector s
  have hcs : (poweredUp (accept 0 sector (initSteps.map .init) s)).cs = true := rfl
  obtain ⟨st, hend⟩ := runInit_end initMiddle (by decide) _ hcs
  refine ⟨_, rfl, ?_⟩
  rw [runInit_poweredUp]
  refine ⟨hend.seq, hend.stepped.cs, hend.stepped.buf, fun a => congrArg (·.read a) hend.stepped.buf, hend.stepped.cfg,
    hend.stepped.host, hend.stepped.ret, ?_⟩
  rcases hend.cause with ⟨rfl, hflags, herr, hrate⟩ | ⟨rfl, hflags, hmask, hrate⟩ | ⟨rfl, hflags, herr, hrate, hwp⟩
  · have hwp := runInit_unprotected hcs hend.rsp
    rw [← Bool.not_eq_true, testWriteProtect_iff, not_not] at hwp
    exact .inl ⟨hend.rsp, hrate, herr, hflags, hwp, runInit_classified hcs hend.rsp⟩
  · exact .inr (.inl ⟨hend.rsp, hrate, hflags, hmask⟩)
  · exact .inr (.inr ⟨hend.rsp, hrate, herr, hflags, (testWriteProtect_iff _).1 hwp⟩)

end Sys2Proof.Machine
end

section
/-! PROOF. The steps of INIT that repeat one command, from their program points (43_init.md R205 to R218). -/

namespace Sys2Proof.Machine

/-- A step of INIT from its program point (10_state.md R28). -/
theorem step_of_initStep {k : InitStep} {s : State} {rest : List Point} (h : s.seq = .init k :: rest) :
    step s = .next (initStep k { s with seq := rest }).state := step_of_point h

section

variable {cmd : BitVec 6} {arg : Word} {ok : Byte → State → Bool} {m : Byte} {s : State} {r : Bool × State}

/-- A step whose attempts are used up, as the state it leaves (R201). -/
theorem Tried.raised (h : Tried cmd arg ok m s r) (c : Cause) (hr : r.1 = false) : raise c r.2 = { s with
    fb := frameBytes cmd arg
    arg := arg
    cs := true
    rb := r.2.rb
    att := m
    err := s.err ||| c.mask
    seq := []
    rsp := some .fail
    bus := (raise c r.2).bus } := by
  have hframe := h.frame
  rw [h.failure hr] at hframe
  exact congrArg (raise c) hframe

/-- How a step of INIT that repeats the command whose frame is `fb` ends: with a response that it waits for, or with
its cause after `m` attempts. -/
structure Retried (awaited : Vector Byte 8 → Prop) (c : Cause) (m : Byte) (fb : Vector Byte 6) (s t : State) :
    Prop where
  cs : t.cs = true
  flags : t.flags = s.flags
  rate : t.rate = s.rate
  ver : t.ver = s.ver
  fb : t.fb = fb
  ending : (t.seq = s.seq ∧ t.err = s.err ∧ t.rsp = s.rsp ∧ awaited t.rb) ∨
    (t.seq = [] ∧ t.err = s.err ||| c.mask ∧ t.rsp = some .fail ∧ t.att = m ∧ ¬ awaited t.rb)
  buf : t.buf = s.buf

theorem Tried.retried {awaited : Vector Byte 8 → Prop} (h : Tried cmd arg ok m s r) (c : Cause)
    (hok : ∀ u : State, ok u.rb[0] u = true ↔ awaited u.rb) :
    Retried awaited c m (frameBytes cmd arg) s (orRaise c r).state := by
  have hverdict := hok r.2
  rw [h.verdict] at hverdict
  unfold orRaise
  cases hr : r.1 with
  | true =>
    have hframe := h.frame
    rw [if_pos rfl, StepEnd.state]
    exact ⟨by rw [hframe], by rw [hframe], by rw [hframe], by rw [hframe], by rw [hframe],
      .inl ⟨by rw [hframe], by rw [hframe], by rw [hframe], hverdict.1 hr⟩, by rw [hframe]⟩
  | false =>
    have hraised := h.raised c hr
    rw [if_neg Bool.false_ne_true, StepEnd.state]
    have hrb : ¬ awaited (raise c r.2).rb := fun ha => Bool.false_ne_true (hr.symm.trans (hverdict.2 ha))
    exact ⟨by rw [hraised], by rw [hraised], by rw [hraised], by rw [hraised], by rw [hraised],
      .inr ⟨by rw [hraised], by rw [hraised], by rw [hraised], by rw [hraised], hrb⟩, by rw [hraised]⟩

end

theorem compareResponse_plain (fl : CmdFlags) (h : fl.notExpect = false) (expected : Byte) (u : State) :
    compareResponse fl expected u.rb[0] = true ↔ u.rb[0] = expected := by
  rw [compareResponse_iff, Accepts, h, if_neg Bool.false_ne_true]

/-- The responses that a step of INIT waits for: its R0, in the voltage check with both voltage bits (R213). -/
def AwaitedResponse (k : InitStep) (expected : Byte) (rb : Vector Byte 8) : Prop :=
  rb[0] = expected ∧ (k = .voltage → rb[2] &&& 0x30#8 = 0x30#8)

theorem awaitedResponse_of_ne {k : InitStep} (h : k ≠ .voltage) (expected : Byte) (rb : Vector Byte 8) :
    AwaitedResponse k expected rb ↔ rb[0] = expected :=
  and_iff_left fun hk => absurd hk h

/-- A step of INIT that is one `check_command`. -/
theorem checkCommand_retried {k : InitStep} (cmd : BitVec 6) (arg : Word) {fl : CmdFlags} (expected m : Byte) (c : Cause)
    (s : State) (hfl : fl.notExpect = false) (hm : 0 < m.toNat) (hk : k ≠ .voltage) :
    Retried (AwaitedResponse k expected) c m (frameBytes cmd arg) s
      (orRaise c (checkCommand cmd arg fl expected m s)).state :=
  (tried_checkCommand cmd arg fl expected m s hm).retried c fun u =>
    (compareResponse_plain fl hfl expected u).trans (awaitedResponse_of_ne hk expected u.rb).symm

theorem voltageOk_iff (u : State) : voltageOk u.rb[0] u = true ↔ AwaitedResponse .voltage 0x01#8 u.rb := by
  simp [voltageOk, testVoltage, AwaitedResponse]

theorem initVoltage_retried (s : State) : Retried (AwaitedResponse .voltage 0x01#8) .ocrError 20#8
    (frameBytes 58 argNone) s (initVoltage s).state :=
  (tried_attempts _ _ _ _ _ _ (by decide)).retried .ocrError voltageOk_iff

theorem initOpCond_retried (s : State) : Retried (AwaitedResponse .opCond 0x00#8) .opCondTimeout 250#8
    (if s.ver = 2#2 then frameBytes 41 argOpCond else frameBytes 1 argNone) s (initOpCond s).state := by
  unfold initOpCond
  split
  · exact checkCommand_retried _ _ _ _ _ s rfl (by decide) (by decide)
  · exact checkCommand_retried _ _ _ _ _ s rfl (by decide) (by decide)

/-- A step that is `Retried`, run from its program point. -/
theorem step_of_retried {k : InitStep} {expected m : Byte} {c : Cause} {fb : Vector Byte 6} {s : State}
    {rest : List Point} (h : Retried (AwaitedResponse k expected) c m fb { s with seq := rest }
      (initStep k { s with seq := rest }).state) (hseq : s.seq = .init k :: rest) :
    ∃ t, step s = .next t ∧ t.cs = true ∧ t.flags = s.flags ∧ t.rate = s.rate ∧ t.ver = s.ver ∧ t.fb = fb ∧
      ((t.seq = rest ∧ t.err = s.err ∧ t.rsp = s.rsp ∧ AwaitedResponse k expected t.rb) ∨
        (t.seq = [] ∧ t.err = s.err ||| c.mask ∧ t.rsp = some .fail ∧ t.att = m ∧
          ¬ AwaitedResponse k expected t.rb)) ∧
      ∀ a, t.buf.read a = s.buf.read a :=
  ⟨_, step_of_initStep hseq, h.cs, h.flags, h.rate, h.ver, h.fb, h.ending, fun a => congrArg (Memory.read · a) h.buf⟩

/-- The frame of CMD58, of steps 5 and 7 (R104). -/
theorem frameBytes_cmd58 : frameBytes 58 argNone = #v[0x7A#8, 0x00#8, 0x00#8, 0x00#8, 0x00#8, 0xFD#8] := by
  decide +kernel

/-- Settles O37: each of the five steps is a retry loop of its own command. -/
theorem initStepsFailWithTheirCause : Obligations.InitStepsFailWithTheirCause := by
  intro p hp s rest hseq
  simp only [List.mem_cons, List.not_mem_nil, or_false] at hp
  rcases hp with rfl | rfl | rfl | rfl | rfl
  · have hfb : frameBytes 0 argNone = #v[0x40#8, 0x00#8, 0x00#8, 0x00#8, 0x00#8, 0x95#8] := by decide +kernel
    rw [ite_self, ← hfb]
    exact step_of_retried (checkCommand_retried 0 argNone 0x01#8 50#8 .noIdle _ rfl (by decide) (by decide)) hseq
  · have hfb : frameBytes 59 argCrcOn = #v[0x7B#8, 0x00#8, 0x00#8, 0x00#8, 0x01#8, 0x83#8] := by decide +kernel
    rw [ite_self, ← hfb]
    exact step_of_retried (checkCommand_retried 59 argCrcOn 0x01#8 3#8 .crcError _ rfl (by decide) (by decide)) hseq
  · rw [ite_self, ← frameBytes_cmd58]
    exact step_of_retried (initVoltage_retried _) hseq
  · have hfb2 : frameBytes 41 argOpCond = #v[0x69#8, 0x40#8, 0x00#8, 0x00#8, 0x00#8, 0x77#8] := by decide +kernel
    have hfb1 : frameBytes 1 argNone = #v[0x41#8, 0x00#8, 0x00#8, 0x00#8, 0x00#8, 0xF9#8] := by decide +kernel
    rw [← hfb2, ← hfb1]
    exact step_of_retried (initOpCond_retried { s with seq := rest }) hseq
  · have hfb : frameBytes 16 argBlockLen = #v[0x50#8, 0x00#8, 0x00#8, 0x02#8, 0x00#8, 0x15#8] := by decide +kernel
    rw [ite_self, ← hfb]
    exact step_of_retried (checkCommand_retried 16 argBlockLen 0x00#8 3#8 .other _ rfl (by decide) (by decide)) hseq

/-! ## Steps 3 and 7 -/

theorem testEcho_iff (arg : Word) (rb : Vector Byte 8) :
    testEcho arg rb = true ↔ rb[3] = (arg >>> 8).setWidth 8 ∧ rb[4] = arg.setWidth 8 := by
  have hhigh : arg.extractLsb' 8 8 = (arg >>> 8).setWidth 8 := rfl
  have hlow : arg.extractLsb' 0 8 = arg.setWidth 8 := rfl
  rw [testEcho, Bool.and_eq_true, beq_iff_eq, beq_iff_eq, hhigh, hlow]

/-- The response of step 3 is there, whatever it is (R207). -/
theorem compareResponse_ifCond (r : Byte) :
    compareResponse { appCmd := false, fullResponse := true, notExpect := true } 0xFF#8 r = true ↔ r ≠ 0xFF#8 := by
  rw [compareResponse_iff, Accepts, if_pos rfl]

/-- Settles O38: the retry loop ends with a response, which `classify` tests, or without one. -/
theorem initClassifiesTheCard : Obligations.InitClassifiesTheCard := by
  intro s rest hseq
  have htried := tried_checkCommand 8 s.cfg.ifCondArg { appCmd := false, fullResponse := true, notExpect := true }
    0xFF#8 Config.attIfCond { s with seq := rest } (by decide)
  have hstep := step_of_initStep hseq
  simp only [initStep, initIfCond] at hstep
  generalize checkCommand 8 s.cfg.ifCondArg _ 0xFF#8 Config.attIfCond { s with seq := rest } = r at htried hstep
  have hframe := htried.frame
  have hfb : r.2.fb = frameBytes 8 s.cfg.ifCondArg := by rw [hframe]
  have hflags : r.2.flags = s.flags := by rw [hframe]
  have hcs : r.2.cs = true := by rw [hframe]
  have hnext : r.2.seq = rest := by rw [hframe]
  have herr : r.2.err = s.err := by rw [hframe]
  have hver : r.2.ver = s.ver := by rw [hframe]
  have hcfg : r.2.cfg = s.cfg := by rw [hframe]
  have hresponse := compareResponse_ifCond r.2.rb[0]
  rw [htried.verdict] at hresponse
  have hv1 : testV1 r.2.rb = r.2.rb[0].getLsbD 2 := rfl
  have hecho := testEcho_iff s.cfg.ifCondArg r.2.rb
  have hraised : r.2.err ||| 0x02#8 = s.err ||| 0x02#8 := by rw [herr]
  refine ⟨_, hstep, ?_⟩
  cases hr : r.1 with
  | false =>
    have hnone : r.2.rb[0] = 0xFF#8 := not_not.1 fun h => Bool.false_ne_true (hr.symm.trans (hresponse.2 h))
    exact ⟨hfb, hflags, hcs, .inr (.inr ⟨rfl, rfl, hraised, hver, .inl ⟨hnone, htried.failure hr⟩⟩)⟩
  | true =>
    rw [if_pos rfl, classify, hcfg, hv1]
    cases h1 : r.2.rb[0].getLsbD 2 with
    | true => exact ⟨hfb, hflags, hcs, .inl ⟨hnext, herr, rfl, hresponse.1 hr, h1⟩⟩
    | false =>
      cases h2 : testEcho s.cfg.ifCondArg r.2.rb with
      | true => exact ⟨hfb, hflags, hcs, .inr (.inl ⟨hnext, herr, rfl, h1, hecho.1 h2⟩)⟩
      | false =>
        have hno := fun h => Bool.false_ne_true (h2.symm.trans (hecho.2 h))
        exact ⟨hfb, hflags, hcs, .inr (.inr ⟨rfl, rfl, hraised, hver, .inr ⟨h1, hno⟩⟩)⟩

theorem noteCapacity_flags (s : State) :
    (noteCapacity s).flags = if s.rb[1].getLsbD 6 then s.flags ||| 0x02#8 else s.flags := by
  unfold noteCapacity testCapacity
  split <;> rfl

theorem noteCapacity_frame (s : State) : noteCapacity s = { s with flags := (noteCapacity s).flags } := by
  unfold noteCapacity
  split <;> rfl

/-- Settles O39: for version 2 a retry loop and what a success notes, for any other nothing. -/
theorem initNotesCapacity : Obligations.InitNotesCapacity := by
  intro s rest hseq
  have hstep := step_of_initStep hseq
  refine ⟨fun hver => ?_, fun hver => ?_⟩
  · rw [hstep, initStep, initCapacity, if_neg hver, StepEnd.state]
  · have htried := tried_checkCommand 58 argNone { appCmd := false, fullResponse := true, notExpect := false }
      0x00#8 Config.attCapacity { s with seq := rest } (by decide)
    rw [initStep, initCapacity, if_pos hver] at hstep
    dsimp only at hstep
    generalize checkCommand 58 argNone _ 0x00#8 Config.attCapacity { s with seq := rest } = r at htried hstep
    have hframe := htried.frame
    have hready := compareResponse_plain { appCmd := false, fullResponse := true, notExpect := false } rfl 0x00#8 r.2
    rw [htried.verdict] at hready
    rw [← frameBytes_cmd58]
    refine ⟨_, hstep, ?_⟩
    cases hr : r.1 with
    | true =>
      have hflags := noteCapacity_flags r.2
      rw [if_pos rfl, StepEnd.state, noteCapacity_frame, hflags]
      have hkept : r.2.flags = s.flags := by rw [hframe]
      exact ⟨by rw [hframe], by rw [hframe], .inl ⟨by rw [hframe], by rw [hframe], hready.1 hr, by rw [hkept]⟩⟩
    | false =>
      have hraised := htried.raised .ocrError hr
      have hbusy : r.2.rb[0] ≠ 0x00#8 := fun h => Bool.false_ne_true (hr.symm.trans (hready.2 h))
      rw [if_neg Bool.false_ne_true, StepEnd.state, hraised]
      exact ⟨rfl, rfl, .inr ⟨rfl, rfl, rfl, rfl, rfl, hbusy⟩⟩

/-! ## Step 9 -/

/-- What `CSD` holds after sixteen bytes are stored in it (44_block_io.md R254). -/
theorem destStore_csd_toList {payload : List Byte} (h : payload.length = 16) (s : State) :
    (destStore .csd payload s).csd.toList = payload := csdOf_toList h s.csd

/-- The CRC16 that the verdict on a read-block into `CSD` compares is that of the whole of `CSD` (R257). -/
theorem destLoad_csd (s : State) : destLoad .csd 16 s = s.csd.toList :=
  List.take_of_length_le (Nat.le_of_eq Vector.length_toList)

/-- How step 9 ends (R219, R220): the read-block into `CSD`, with a response on top of it where it failed or a
write-protect bit is set. -/
theorem initWriteProtect_ending (s : State) :
    let r := readBlock 9 argNone 16 .csd s
    ∃ t tail, (initWriteProtect s).state = t ∧ t.bus.trace = r.2.bus.trace ++ tail ∧
      t = { r.2 with flags := t.flags, seq := t.seq, rsp := t.rsp, bus := t.bus } ∧
      ((r.1 = false ∧ tail = [.rsp .fail] ∧ t.seq = [] ∧ t.rsp = some .fail ∧ t.flags = s.flags) ∨
        (r.1 = true ∧ testWriteProtect t.csd = true ∧ tail = [.rsp .fail] ∧ t.seq = [] ∧ t.rsp = some .fail ∧
          t.flags = s.flags ||| 0x04#8) ∨
        (r.1 = true ∧ testWriteProtect t.csd = false ∧ tail = [] ∧ t.seq = s.seq ∧ t.rsp = s.rsp ∧
          t.flags = s.flags)) := by
  have hframe := readBlock_frame 9 argNone 16 .csd s
  unfold initWriteProtect
  dsimp only
  generalize readBlock 9 argNone 16 .csd s = r at hframe ⊢
  have hflags : r.2.flags = s.flags := by rw [hframe]
  cases hr : r.1 with
  | false =>
    rw [if_neg Bool.false_ne_true]
    exact ⟨_, [.rsp .fail], rfl, rfl, rfl, .inl ⟨rfl, rfl, rfl, rfl, hflags⟩⟩
  | true =>
    rw [if_pos rfl]
    cases hp : testWriteProtect r.2.csd with
    | true =>
      rw [if_pos rfl]
      exact ⟨_, [.rsp .fail], rfl, rfl, rfl, .inr (.inl ⟨rfl, hp, rfl, rfl, rfl, congrArg (· ||| 0x04#8) hflags⟩)⟩
    | false =>
      rw [if_neg Bool.false_ne_true]
      exact ⟨_, [], rfl, (List.append_nil _).symm, rfl,
        .inr (.inr ⟨rfl, hp, rfl, by rw [StepEnd.state, hframe], by rw [StepEnd.state, hframe], hflags⟩)⟩

/-- Settles O40: `readBlock_history` for `CSD`, whose verdict and write-protect bits decide how the step ends. -/
theorem initInspectsWriteProtection : Obligations.InitInspectsWriteProtection := by
  intro s rest hseq
  have hstep := step_of_initStep hseq
  obtain ⟨t, tail, ht, htail, hkept, hend⟩ := initWriteProtect_ending { s with seq := rest }
  rw [initStep, ht] at hstep
  obtain ⟨evs, n, skip, scan, wait, payload, hi, lo, idle, htrace, hwait, -, -, hrx, hskip, hpayload, hscan, htoken, hidle,
    hfault, hcrcRx, -, hcsd, hverdict⟩ := readBlock_history 9 argNone 16 .csd { s with seq := rest }
  have hframe := readBlock_frame 9 argNone 16 .csd { s with seq := rest }
  have hbuf := readBlock_csd_buf 9 argNone 16 { s with seq := rest }
  rw [← destStore_csd_toList hpayload, ← hcsd] at hrx
  rw [destLoad_csd] at hverdict
  generalize readBlock 9 argNone 16 .csd { s with seq := rest } = r at *
  have hfb : frameBytes 9 argNone = #v[0x49#8, 0x00#8, 0x00#8, 0x00#8, 0x00#8, 0xAF#8] := by decide +kernel
  have tcsd : t.csd = r.2.csd := by rw [hkept]
  have tcrcRx : t.crcRx = r.2.crcRx := by rw [hkept]
  have tfault : t.fault = r.2.fault := by rw [hkept]
  have tcrc : t.crc = r.2.crc := by rw [hkept]
  have terr : t.err = r.2.err := by rw [hkept]
  have tfb : t.fb = frameBytes 9 argNone := by rw [hkept, hframe]
  have tcs : t.cs = true := by rw [hkept, hframe]
  have trate : t.rate = s.rate := by rw [hkept, hframe]
  have tbuf : t.buf = s.buf := by rw [hkept, ← hbuf]
  rw [← tfault, ← tcrc, ← tcrcRx, ← terr, ← tcsd] at hverdict
  rw [← tfault] at hfault
  rw [← tcsd] at hrx
  refine ⟨t, evs, tail, skip, scan, wait, hi, lo, idle, hstep, by rw [htail, htrace], hwait, hrx, hskip, hscan, htoken,
    hidle, by rw [tcrcRx, hcrcRx], hfault, ?_, by rw [tfb, hfb], tcs, trate, ?_, fun a => by rw [tbuf]⟩
  · intro hno
    rcases hverdict with ⟨hyes, -⟩ | ⟨-, hcrc, -⟩ | ⟨-, hcrc, -⟩
    · exact absurd (hno.symm.trans hyes) Bool.false_ne_true
    · exact hcrc
    · exact hcrc
  · have hprotected := testWriteProtect_iff t.csd
    rcases hend with ⟨hr, hlast, hidle, hrsp, hflags⟩ | ⟨hr, hwp, hlast, hidle, hrsp, hflags⟩ |
      ⟨hr, hwp, hlast, hnext, hrsp, hflags⟩ <;> rw [hr] at hverdict
    · refine .inl ⟨hlast, hidle, hrsp, hflags, ?_⟩
      rcases hverdict with ⟨hf, -, herr, -⟩ | ⟨hf, -, hne, -, herr⟩ | ⟨-, -, -, hok, -⟩
      · exact .inl ⟨hf, herr⟩
      · exact .inr ⟨hf, hne, herr⟩
      · cases hok
    · rcases hverdict with ⟨-, hbad, -⟩ | ⟨-, -, -, hbad, -⟩ | ⟨hf, -, heq, -, herr⟩
      · cases hbad
      · cases hbad
      · exact .inr (.inl ⟨hlast, hidle, hrsp, hflags, herr, hf, heq, hprotected.1 hwp⟩)
    · rcases hverdict with ⟨-, hbad, -⟩ | ⟨-, -, -, hbad, -⟩ | ⟨hf, -, heq, -, herr⟩
      · cases hbad
      · cases hbad
      · rw [← Bool.not_eq_true, hprotected, not_not] at hwp
        exact .inr (.inr ⟨hlast, hnext, hrsp, hflags, herr, hf, heq, hwp⟩)

end Sys2Proof.Machine
end

section
/-! PROOF. INIT on a card whose answers are listed: without the voltage bits, without a card, and on a good card
(43_init.md R205, R213, R214, R221, R223). -/

namespace Sys2Proof.Machine

/-! ## Retry loops along listed answers -/

/-- A retry loop whose every attempt meets an answer it does not accept: it fails, and takes exactly those answers. -/
theorem attempts_refused {cmd : BitVec 6} {arg : Word} {fl : CmdFlags} {ok : Byte → State → Bool}
    {blocks : List (List Byte)} {more : List Byte} {s : State}
    (hrefused : ∀ b ∈ blocks, ∀ (u : State) (rest : List Byte), u.bus.miso = b ++ rest →
      ok (sendCommand cmd arg fl u).1 (attempted cmd arg fl u) = false ∧
        (sendCommand cmd arg fl u).2.bus.miso = rest)
    (hm : s.bus.miso = blocks.flatten ++ more) :
    (attempts cmd arg fl ok blocks.length s).1 = false ∧
      (attempts cmd arg fl ok blocks.length s).2.bus.miso = more := by
  induction blocks generalizing s with
  | nil => exact ⟨rfl, hm⟩
  | cons b bs ih =>
    obtain ⟨hb, hbs⟩ := List.forall_mem_cons.1 hrefused
    rw [List.flatten_cons, List.append_assoc] at hm
    obtain ⟨hno, hmiso⟩ := hb s _ hm
    rw [List.length_cons, attempts_succ, hno, if_neg Bool.false_ne_true]
    cases bs with
    | nil => exact ⟨rfl, hmiso⟩
    | cons b' bs' =>
      rw [if_neg (by simp)]
      exact ih hbs hmiso

/-- The flags of CMD58 (R213, R217). -/
abbrev ocrFlags : CmdFlags := { appCmd := false, fullResponse := true, notExpect := false }

/-- What a card answers to one CMD58 where a voltage bit of its OCR is clear, the response at an offset up to 3. -/
def VoltageMissing (b : List Byte) : Prop :=
  ∃ (skip tail : List Byte) (i : Nat) (o1 o2 : Byte), i ≤ 3 ∧ skip.length = 6 ∧ i + 3 + tail.length = 8 ∧
    o2 &&& 0x30#8 ≠ 0x30#8 ∧ b = skip ++ List.replicate i 0xFF#8 ++ [0x01#8, o1, o2] ++ tail

/-- Such an answer is refused, and no byte beyond it is taken (R213). -/
theorem voltage_refused {b : List Byte} (hb : VoltageMissing b) (u : State) (more : List Byte)
    (hm : u.bus.miso = b ++ more) :
    voltageOk (sendCommand 58 argNone ocrFlags u).1 (attempted 58 argNone ocrFlags u) = false ∧
      (sendCommand 58 argNone ocrFlags u).2.bus.miso = more := by
  obtain ⟨skip, tail, i, o1, o2, hi, hskip, htail, ho2, rfl⟩ := hb
  have hextra : ([] : List Byte).length = if ocrFlags.fullResponse then i - 3 else 0 :=
    (Nat.sub_eq_zero_of_le hi).symm
  obtain ⟨-, hmiso, hrb⟩ := sendCommand_response (cmd := 58) (arg := argNone) (fl := ocrFlags) (r0 := 0x01#8)
    (tail := o1 :: o2 :: tail) (by decide) (by simp only [List.length_cons]; omega) hextra (by simpa using hm) hskip
  have hrb2 : (attempted 58 argNone ocrFlags u).rb[2] = o2 := hrb 2 (by decide) (by simp)
  refine ⟨?_, hmiso⟩
  rw [voltageOk, testVoltage, hrb2, beq_eq_false_iff_ne.2 ho2, Bool.and_false]

/-- The retry loop of step 5 (R213). -/
def voltageTried (s : State) : Bool × State := attempts 58 argNone ocrFlags voltageOk 20 { s with att := 0#8 }

theorem initVoltage_eq (s : State) : initVoltage s = orRaise .ocrError (voltageTried s) := rfl

theorem tried_voltageTried (s : State) : Tried 58 argNone voltageOk 20#8 s (voltageTried s) :=
  tried_attempts 58 argNone ocrFlags voltageOk 20#8 s (by decide)

theorem voltageTried_refused {s : State} {blocks : List (List Byte)} {more : List Byte} (hlen : blocks.length = 20)
    (hblocks : ∀ b ∈ blocks, VoltageMissing b) (hm : s.bus.miso = blocks.flatten ++ more) :
    (voltageTried s).1 = false ∧ (voltageTried s).2.bus.miso = more := by
  have hrefused := attempts_refused (s := { s with att := 0#8 }) (fun b hb => voltage_refused (hblocks b hb)) hm
  rwa [hlen] at hrefused

/-- A voltage check that fails has made twenty attempts, 1 ms apart (R184). -/
theorem voltageTried_counts {s : State} (hfailed : (voltageTried s).1 = false) : ∃ evs,
    (voltageTried s).2.bus.trace = s.bus.trace ++ evs ∧ evs.count .prepare = 20 ∧ evs.count (.delay 1000) = 19 := by
  obtain ⟨k, evs, htrace, -, -, -, -, hall, hprepare, -, -, hdelay⟩ :=
    attempts_counts 58 argNone ocrFlags voltageOk 20 { s with att := 0#8 } (by simp)
  obtain rfl : k = 20 := hall hfailed
  exact ⟨evs, htrace, hprepare, hdelay⟩

/-- A step whose attempts are used up ends INIT with its cause (R201). -/
theorem orRaise_failed {c : Cause} {r : Bool × State} (h : r.1 = false) : orRaise c r = .done (raise c r.2) := by
  rw [orRaise, h, if_neg Bool.false_ne_true]

theorem raise_miso (c : Cause) (s : State) : (raise c s).bus.miso = s.bus.miso := rfl

/-- Settles O41: each of the twenty answers is taken by one attempt, which lacks a voltage bit. -/
theorem voltageCheckGivesUpAfterTwenty : Obligations.VoltageCheckGivesUpAfterTwenty := by
  intro s rest blocks more hseq hlen hblocks hm
  obtain ⟨hfailed, hmiso⟩ := voltageTried_refused (s := { s with seq := rest }) hlen hblocks hm
  obtain ⟨evs, htrace, hprepare, hdelay⟩ := voltageTried_counts hfailed
  have hraised := (tried_voltageTried { s with seq := rest }).raised .ocrError hfailed
  have hstep := step_of_initStep hseq
  rw [initStep, initVoltage_eq, orRaise_failed hfailed, StepEnd.state] at hstep
  refine ⟨_, evs ++ [.rsp .fail], hstep, rfl, by rw [hraised]; rfl, rfl, by rw [hraised], by rw [hraised],
    (raise_miso _ _).trans hmiso, ?_, ?_, ?_⟩
  · exact (congrArg (· ++ [Event.rsp .fail]) htrace).trans (List.append_assoc _ _ _)
  · rw [List.count_append, hprepare]; rfl
  · rw [List.count_append, hdelay]; rfl

/-! ## Without a card -/

theorem runInit_done {k : InitStep} {ks : List InitStep} {s t : State}
    (h : initStep k { s with seq := ks.map .init } = .done t) : runInit (k :: ks) s = t := by
  rw [runInit_cons, h]

/-- Step 1 takes ten bytes of the card (R203). -/
theorem poweredUp_miso {s : State} {x more : List Byte} (hx : x.length = 10) (hm : s.bus.miso = x ++ more) :
    (poweredUp s).bus.miso = more := by
  obtain ⟨-, -, htaken, -, -⟩ := Bus.exchanged_send (List.replicate 10 Config.fillerByte)
    (delay Config.powerupWaitUs (setRate .init (configure s))).bus
  have hdrop : (poweredUp s).bus.miso = s.bus.miso.drop 10 := htaken
  rw [hdrop, hm, ← hx, List.drop_left]

/-- A silent CMD0 is refused, and takes fourteen bytes (R157, R205). -/
theorem goIdle_refused {u : State} {more : List Byte} (hm : u.bus.miso = List.replicate 14 0xFF#8 ++ more) :
    compareResponse CmdFlags.none 0x01#8 (sendCommand 0 argNone CmdFlags.none u).1 = false ∧
      (sendCommand 0 argNone CmdFlags.none u).2.bus.miso = more := by
  have hsplit : List.replicate 14 0xFF#8 ++ more =
      List.replicate 6 0xFF#8 ++ (List.replicate 8 0xFF#8 ++ more) := by
    rw [← List.append_assoc, List.replicate_append_replicate]
  obtain ⟨hnone, -, hmiso⟩ := sendCommand_silent (cmd := 0) (arg := argNone) (fl := CmdFlags.none)
    (hm.trans hsplit) List.length_replicate
  exact ⟨by rw [hnone]; decide, hmiso⟩

/-- Step 2 without a card, seven hundred silent bytes long, as the state in which INIT ends there. -/
theorem initGoIdle_silent {s : State} {more : List Byte}
    (hm : s.bus.miso = (List.replicate 50 (List.replicate 14 0xFF#8)).flatten ++ more) :
    ∃ t, initGoIdle s = .done t ∧ t.rsp = some .fail ∧ t.err = s.err ||| 0x01#8 ∧ t.flags = s.flags ∧
      t.rate = s.rate ∧ t.cs = true ∧ t.bus.miso = more := by
  obtain ⟨hfailed, hmiso⟩ := attempts_refused (s := { s with att := 0#8 })
    (ok := fun r _ => compareResponse CmdFlags.none 0x01#8 r)
    (fun b hb u rest hu => by rw [List.eq_of_mem_replicate hb] at hu; exact goIdle_refused hu) hm
  rw [List.length_replicate] at hfailed hmiso
  have hraised := (tried_checkCommand 0 argNone CmdFlags.none 0x01#8 Config.attGoIdle s (by decide)).raised .noIdle hfailed
  exact ⟨_, orRaise_failed hfailed, rfl, by rw [hraised]; rfl, by rw [hraised], by rw [hraised],
    by rw [hraised], (raise_miso _ _).trans hmiso⟩

/-- Settles O42: fifty silent windows are fifty refused attempts of step 2. -/
theorem initWithoutCard : Obligations.InitWithoutCard := by
  intro sector s more hm
  have hsplit : List.replicate 710 0xFF#8 ++ more =
      List.replicate 10 0xFF#8 ++ ((List.replicate 50 (List.replicate 14 0xFF#8)).flatten ++ more) := by
    rw [List.flatten_replicate_replicate, ← List.append_assoc, List.replicate_append_replicate]
  have hpowered := poweredUp_miso (s := accept 0 sector (initSteps.map .init) s) List.length_replicate
    (hm.trans hsplit)
  obtain ⟨t, hdone, hends⟩ := initGoIdle_silent (s := { poweredUp (accept 0 sector (initSteps.map .init) s) with
    seq := (initMiddle ++ [InitStep.commit]).tail.map .init }) hpowered
  refine ⟨t, ?_, hends⟩
  show Host.Outcome.next _ = _
  rw [runInit_poweredUp]
  exact congrArg _ (runInit_done hdone)

end Sys2Proof.Machine
end

section
/-! PROOF. INIT on a version 2, high-capacity, unprotected card that answers every command at once (43_init.md R221,
R223). -/

namespace Sys2Proof.Machine

/-! ## Commands that are answered at once -/

theorem getElem_of_toList {rb : Vector Byte 8} {l : List Byte} (h : rb.toList = l) {k : Nat} (hk : k < 8)
    (hl : k < l.length) : rb[k] = l[k] := by
  subst h
  exact (Vector.getElem_toList _).symm

/-- A response at the front of the window leaves the window as it is, and no byte beyond it is taken (R154, R155). -/
theorem sendCommand_atOnce {cmd : BitVec 6} {arg : Word} {fl : CmdFlags} {s : State} {skip tail more : List Byte}
    {r0 : Byte} (hr : r0 ≠ 0xFF#8) (hskip : skip.length = (commandBytes cmd arg fl.appCmd).length)
    (htail : tail.length = 7) (hm : s.bus.miso = skip ++ r0 :: (tail ++ more)) :
    (sendCommand cmd arg fl s).1 = r0 ∧ (sendCommand cmd arg fl s).2.bus.miso = more ∧
      (sendCommand cmd arg fl s).2.rb.toList = r0 :: tail := by
  have hextra : ([] : List Byte).length = if fl.fullResponse then 0 - 3 else 0 := by split <;> rfl
  obtain ⟨hret, hmiso, hrb⟩ := sendCommand_response (i := 0) (tail := tail) hr (by omega) hextra (by simpa using hm) hskip
  refine ⟨hret, hmiso, List.ext_getElem (by simp [htail]) fun k hk hl => ?_⟩
  rw [Vector.getElem_toList, hrb k (by simpa using hk) (by simpa using hl)]
  simp

/-- A retry loop whose first response is accepted makes one attempt (R183). -/
theorem attempts_atOnce {cmd : BitVec 6} {arg : Word} {fl : CmdFlags} {ok : Byte → State → Bool} {n : Nat} {s : State}
    {skip tail more : List Byte} {r0 : Byte} (hn : 0 < n) (hr : r0 ≠ 0xFF#8)
    (hskip : skip.length = (commandBytes cmd arg fl.appCmd).length) (htail : tail.length = 7)
    (hok : ∀ u : State, u.rb.toList = r0 :: tail → ok r0 u = true)
    (hm : s.bus.miso = skip ++ r0 :: (tail ++ more)) :
    ∃ t, attempts cmd arg fl ok n s = (true, t) ∧ t.bus.miso = more ∧ t.rb.toList = r0 :: tail := by
  obtain ⟨n, rfl⟩ := Nat.exists_eq_add_one.2 hn
  obtain ⟨hret, hmiso, hrb⟩ := sendCommand_atOnce hr hskip htail hm
  have hfirst : ok r0 (attempted cmd arg fl s) = true := hok _ hrb
  exact ⟨attempted cmd arg fl s, by rw [attempts_succ, hret, hfirst, if_pos rfl], hmiso, hrb⟩

theorem checkCommand_atOnce {cmd : BitVec 6} {arg : Word} {fl : CmdFlags} {expected m : Byte} {s : State}
    {skip tail more : List Byte} {r0 : Byte} (hn : 0 < m.toNat) (hr : r0 ≠ 0xFF#8)
    (hskip : skip.length = (commandBytes cmd arg fl.appCmd).length) (htail : tail.length = 7)
    (hok : compareResponse fl expected r0 = true) (hm : s.bus.miso = skip ++ r0 :: (tail ++ more)) :
    ∃ t, checkCommand cmd arg fl expected m s = (true, t) ∧ t.bus.miso = more ∧ t.rb.toList = r0 :: tail :=
  attempts_atOnce (s := { s with att := 0#8 }) hn hr hskip htail (fun _ _ => hok) hm

/-! ## The steps on a good card -/

theorem orRaise_passed {c : Cause} {r : Bool × State} {t : State} (h : r = (true, t)) : orRaise c r = .go t := by
  rw [h]; rfl

section

variable {s : State} {skip tail more : List Byte}

/-- A step that is one `check_command`, answered at once with the R0 that it expects. -/
theorem orRaise_answered {cmd : BitVec 6} {arg : Word} {fl : CmdFlags} {expected m : Byte} (c : Cause)
    (hn : 0 < m.toNat) (hr : expected ≠ 0xFF#8) (hfl : fl.notExpect = false)
    (hskip : skip.length = (commandBytes cmd arg fl.appCmd).length) (htail : tail.length = 7)
    (hm : s.bus.miso = skip ++ expected :: (tail ++ more)) :
    ∃ t, orRaise c (checkCommand cmd arg fl expected m s) = .go t ∧ t.bus.miso = more := by
  have hok : compareResponse fl expected expected = true := by
    rw [compareResponse_iff, Accepts, hfl, if_neg Bool.false_ne_true]
  obtain ⟨t, ht, hmiso, -⟩ := checkCommand_atOnce hn hr hskip htail hok hm
  exact ⟨t, orRaise_passed ht, hmiso⟩

theorem initGoIdle_answered (hskip : skip.length = 6) (htail : tail.length = 7)
    (hm : s.bus.miso = skip ++ 0x01#8 :: (tail ++ more)) : ∃ t, initStep .goIdle s = .go t ∧ t.bus.miso = more :=
  orRaise_answered (cmd := 0) (arg := argNone) .noIdle (by decide) (by decide) rfl hskip htail hm

theorem initCrcOn_answered (hskip : skip.length = 6) (htail : tail.length = 7)
    (hm : s.bus.miso = skip ++ 0x01#8 :: (tail ++ more)) : ∃ t, initStep .crcOn s = .go t ∧ t.bus.miso = more :=
  orRaise_answered (cmd := 59) (arg := argCrcOn) .crcError (by decide) (by decide) rfl hskip htail hm

theorem initBlockLen_answered (hskip : skip.length = 6) (htail : tail.length = 7)
    (hm : s.bus.miso = skip ++ 0x00#8 :: (tail ++ more)) : ∃ t, initStep .blockLen s = .go t ∧ t.bus.miso = more :=
  orRaise_answered (cmd := 16) (arg := argBlockLen) .other (by decide) (by decide) rfl hskip htail hm

theorem initOpCond_answered (hver : s.ver = 2#2) (hskip : skip.length = 20) (htail : tail.length = 7)
    (hm : s.bus.miso = skip ++ 0x00#8 :: (tail ++ more)) : ∃ t, initStep .opCond s = .go t ∧ t.bus.miso = more := by
  rw [initStep, initOpCond, if_pos hver]
  exact orRaise_answered (cmd := 41) (arg := argOpCond) .opCondTimeout (by decide) (by decide) rfl hskip htail hm

theorem initVoltage_answered {o1 o2 : Byte} (ho : o2 &&& 0x30#8 = 0x30#8) (hskip : skip.length = 6)
    (htail : tail.length = 5) (hm : s.bus.miso = skip ++ 0x01#8 :: o1 :: o2 :: (tail ++ more)) :
    ∃ t, initStep .voltage s = .go t ∧ t.bus.miso = more := by
  have hok : ∀ u : State, u.rb.toList = 0x01#8 :: o1 :: o2 :: tail → voltageOk 0x01#8 u = true := fun u hu => by
    rw [voltageOk, testVoltage, getElem_of_toList hu (by decide) (by simp)]
    simp [ho]
  obtain ⟨t, ht, hmiso, -⟩ := attempts_atOnce (cmd := 58) (arg := argNone) (fl := ocrFlags) (n := 20)
    (s := { s with att := 0#8 }) (tail := o1 :: o2 :: tail) (by decide) (by decide) hskip
    (by simp only [List.length_cons, htail]) hok hm
  exact ⟨t, orRaise_passed ht, hmiso⟩

/-- Step 3 on a version 2 card, which echoes CMD8's argument (R209). -/
theorem initIfCond_answered {a1 a2 : Byte} (hskip : skip.length = 6) (htail : tail.length = 3)
    (hm : s.bus.miso = skip ++ 0x01#8 :: a1 :: a2 :: (s.cfg.ifCondArg >>> 8).setWidth 8 :: s.cfg.ifCondArg.setWidth 8 ::
      (tail ++ more)) : ∃ t, initStep .ifCond s = .go t ∧ t.bus.miso = more ∧ t.ver = 2#2 := by
  obtain ⟨t, ht, hmiso, hrb⟩ := checkCommand_atOnce (cmd := 8) (arg := s.cfg.ifCondArg)
    (fl := { appCmd := false, fullResponse := true, notExpect := true }) (expected := 0xFF#8) (m := Config.attIfCond)
    (tail := a1 :: a2 :: (s.cfg.ifCondArg >>> 8).setWidth 8 :: s.cfg.ifCondArg.setWidth 8 :: tail) (by decide) (by decide)
    hskip (by simp only [List.length_cons, htail]) (by decide) hm
  have hinner := checkCommand_inner (cmd := 8) s.cfg.ifCondArg
    { appCmd := false, fullResponse := true, notExpect := true } 0xFF#8 Config.attIfCond s (by decide) (by decide)
  rw [ht] at hinner
  have hcfg : t.cfg = s.cfg := hinner.cfg
  have hr0 : t.rb[0] = 0x01#8 := getElem_of_toList hrb (by decide) (by simp)
  have hv1 : testV1 t.rb = false := by rw [testV1, hr0]; rfl
  have hecho : testEcho s.cfg.ifCondArg t.rb = true := (testEcho_iff _ _).2
    ⟨getElem_of_toList hrb (by decide) (by simp), getElem_of_toList hrb (by decide) (by simp)⟩
  refine ⟨{ t with ver := 2#2 }, ?_, hmiso, rfl⟩
  rw [initStep, initIfCond, ht]
  dsimp only
  rw [if_pos rfl, classify, hv1, if_neg Bool.false_ne_true, hcfg, hecho, if_pos rfl]

/-- Step 7 on a version 2, high-capacity card (R217). -/
theorem initCapacity_answered {c1 c2 : Byte} (hver : s.ver = 2#2) (hc : c1.getLsbD 6 = true) (hskip : skip.length = 6)
    (htail : tail.length = 5) (hm : s.bus.miso = skip ++ 0x00#8 :: c1 :: c2 :: (tail ++ more)) :
    ∃ t, initStep .capacity s = .go t ∧ t.bus.miso = more ∧ t.flags = s.flags ||| 0x02#8 := by
  obtain ⟨t, ht, hmiso, hrb⟩ := checkCommand_atOnce (cmd := 58) (arg := argNone) (fl := ocrFlags) (expected := 0x00#8)
    (m := Config.attCapacity) (tail := c1 :: c2 :: tail) (by decide) (by decide) hskip
    (by simp only [List.length_cons, htail]) (by decide) hm
  have hinner := checkCommand_inner (cmd := 58) argNone ocrFlags 0x00#8 Config.attCapacity s (by decide) (by decide)
  rw [ht] at hinner
  have hflags : t.flags = s.flags := hinner.flags
  have hcapacity : testCapacity t.rb = true := by
    rw [testCapacity, getElem_of_toList hrb (by decide) (by simp)]
    exact hc
  refine ⟨setFlag .highCapacity t, ?_, hmiso, congrArg (· ||| 0x02#8) hflags⟩
  rw [initStep, initCapacity, if_pos hver, ht]
  dsimp only
  rw [if_pos rfl, noteCapacity, hcapacity, if_pos rfl]

theorem testWriteProtect_toList (csd : Vector Byte 16) :
    testWriteProtect csd = (csd.toList.getD 14 0xFF#8 &&& 0x30#8 != 0#8) := by
  simp [testWriteProtect]

/-- Step 9 on a card that sends a CSD with its CRC16 and no write-protect bit (R219, R220). -/
theorem initWriteProtect_answered {csd : List Byte} {hi lo : Byte} (hskip : skip.length = 6) (hcsd : csd.length = 16)
    (hwp : csd.getD 14 0xFF#8 &&& 0x30#8 = 0#8) (hcrc : crc16Of csd = hi ++ lo)
    (hm : s.bus.miso = skip ++ 0x00#8 :: 0xFE#8 :: (csd ++ hi :: lo :: 0xFF#8 :: more)) :
    ∃ t, initStep .writeProtect s = .go t ∧ t.bus.miso = more ∧ t.csd.toList = csd := by
  obtain ⟨hfault, hcrcRx, hmiso, -, hstored⟩ := blockEnd_listed (cmd := 9) (arg := argNone) (d := .csd) (n := 0) hskip
    (by decide) (by decide) hcsd hm
  have hlist : (blockEnd 9 argNone 16 .csd s).csd.toList = csd := by rw [hstored, destStore_csd_toList hcsd]
  have hread : (readBlock 9 argNone 16 .csd s).1 = true ∧ (readBlock 9 argNone 16 .csd s).2.csd.toList = csd := by
    rw [readBlock_eq]
    rcases blockVerdict_cases 16 .csd (blockEnd 9 argNone 16 .csd s) with ⟨h, -⟩ | ⟨-, h, -⟩ | ⟨-, -, h⟩
    · exact absurd (hfault.symm.trans h) (by decide)
    · rw [destLoad_csd, hlist, hcrcRx] at h
      exact absurd hcrc h
    · rw [h]
      exact ⟨rfl, hlist⟩
  obtain ⟨hok, hload⟩ := hread
  have hopen : testWriteProtect (readBlock 9 argNone 16 .csd s).2.csd = false := by
    rw [testWriteProtect_toList, hload, hwp]; rfl
  refine ⟨(readBlock 9 argNone 16 .csd s).2, ?_, by rw [readBlock_bus, hmiso], hload⟩
  unfold initStep initWriteProtect
  dsimp only
  rw [hok, if_pos rfl, hopen, if_neg Bool.false_ne_true]

end

/-! ## The whole run -/

theorem initStep_wentOn {k : InitStep} {s t : State} (h : initStep k s = .go t) (hcs : s.cs = true) : WentOn k s t := by
  rcases initStep_cases k s (fun _ => hcs) with ⟨u, hu, hwent⟩ | ⟨u, st, hu, -⟩ <;> cases h.symm.trans hu
  exact hwent

/-- INIT from `s` has come to `u`, where the steps `ks` are left to run: deselected, `ERR` as it was; what the other
registers that these steps move hold, and what the card has yet to answer. -/
structure Underway (s u : State) (ks : List InitStep) (flags : Byte) (ver : BitVec 2) (miso : List Byte) : Prop where
  run : runInit initSteps s = runInit ks u
  cs : u.cs = true
  err : u.err = s.err
  cfg : u.cfg = s.cfg
  flags : u.flags = flags
  ver : u.ver = ver
  miso : u.bus.miso = miso

theorem poweredUp_underway {s : State} {x more : List Byte} (hx : x.length = 10) (hm : s.bus.miso = x ++ more) :
    Underway s (poweredUp s) (initMiddle ++ [.commit]) s.flags s.ver more :=
  ⟨runInit_poweredUp s, rfl, rfl, rfl, rfl, rfl, poweredUp_miso hx hm⟩

section

variable {s u : State} {k : InitStep} {ks : List InitStep} {flags : Byte} {ver : BitVec 2} {miso miso' : List Byte}

/-- One step of INIT further; only step 7 moves `FLAGS`, and only step 3 `VER`. -/
theorem Underway.step {P : State → Prop} (h : Underway s u (k :: ks) flags ver miso)
    (hgo : ∃ t, initStep k { u with seq := ks.map .init } = .go t ∧ t.bus.miso = miso' ∧ P t) :
    ∃ t, P t ∧ Underway s t ks t.flags t.ver miso' ∧ (k ≠ .capacity → t.flags = flags) ∧
      (k ≠ .ifCond → t.ver = ver) := by
  obtain ⟨t, hgo, hmiso, hp⟩ := hgo
  have hwent := initStep_wentOn hgo h.cs
  refine ⟨t, hp, ⟨h.run.trans (runInit_go hgo), hwent.stepped.cs, hwent.err.trans h.err, hwent.stepped.cfg.trans h.cfg,
    rfl, rfl, hmiso⟩, fun hk => ?_, fun hk => ?_⟩
  · exact (hwent.flags.resolve_right fun hc => hk hc.1).trans h.flags
  · have hver := hwent.ver
    rw [if_neg hk] at hver
    exact hver.trans h.ver

theorem Underway.plainStep (h : Underway s u (k :: ks) flags ver miso) (hk : k ≠ .capacity ∧ k ≠ .ifCond)
    (hgo : ∃ t, initStep k { u with seq := ks.map .init } = .go t ∧ t.bus.miso = miso') :
    ∃ t, Underway s t ks flags ver miso' := by
  obtain ⟨t, hgo, hmiso⟩ := hgo
  obtain ⟨t, -, ht, hflags, hver⟩ := h.step (P := fun _ => True) ⟨t, hgo, hmiso, trivial⟩
  rw [hflags hk.1, hver hk.2] at ht
  exact ⟨t, ht⟩

/-- What INIT leaves when only its commit is left to run (R221). -/
theorem Underway.committed (h : Underway s u [.commit] flags ver miso) : ∃ t, runInit initSteps s = t ∧ t.rsp = some .ok ∧
    t.flags = flags ||| 0x01#8 ∧ t.err = s.err ∧ t.rate = .fast ∧ t.cs = true ∧ t.ver = ver ∧ t.bus.miso = miso ∧
    t.csd = u.csd :=
  ⟨_, h.run.trans (runInit_done rfl), rfl, congrArg (· ||| 0x01#8) h.flags, h.err, rfl, h.cs, h.ver, h.miso, rfl⟩

end

/-- Settles O43: one step of INIT after the other is answered at once. -/
theorem initSucceedsOnAGoodCard : Obligations.InitSucceedsOnAGoodCard := by
  intro sector s x1 x2 x3 x4 x5 x6 x7 x8 x9 t1 t2 t3 t4 t5 t6 t7 csd more a1 a2 b1 b2 c1 c2 hi lo hx1 hx2 hx3 hx4 hx5
    hx6 hx7 hx8 hx9 ht1 ht2 ht3 ht4 ht5 ht6 ht7 hb2 hc1 hcsd hwp hcrc hm
  simp only [List.append_assoc, List.cons_append, List.nil_append] at hm
  have h1 := poweredUp_underway (s := accept 0 sector (initSteps.map .init) s) hx1 hm
  obtain ⟨u2, h2⟩ := h1.plainStep (by decide) (initGoIdle_answered hx2 ht1 h1.miso)
  have hcfg : u2.cfg = s.cfg := h2.cfg
  have hm2 := h2.miso
  rw [← hcfg] at hm2
  obtain ⟨u3, hv2, h3, hf3, -⟩ := h2.step (initIfCond_answered hx3 ht2 hm2)
  rw [hf3 (by decide), hv2] at h3
  obtain ⟨u4, h4⟩ := h3.plainStep (by decide) (initCrcOn_answered hx4 ht3 h3.miso)
  obtain ⟨u5, h5⟩ := h4.plainStep (by decide) (initVoltage_answered hb2 hx5 ht4 h4.miso)
  obtain ⟨u6, h6⟩ := h5.plainStep (by decide) (initOpCond_answered h5.ver hx6 ht5 h5.miso)
  obtain ⟨u7, hf7, h7, -, hv7⟩ := h6.step (initCapacity_answered h6.ver hc1 hx7 ht6 h6.miso)
  rw [hf7.trans (congrArg (· ||| 0x02#8) h6.flags), hv7 (by decide)] at h7
  obtain ⟨u8, h8⟩ := h7.plainStep (by decide) (initBlockLen_answered hx8 ht7 h7.miso)
  obtain ⟨u9, hload, h9, hf9, hv9⟩ := h8.step (initWriteProtect_answered hx9 hcsd hwp hcrc h8.miso)
  rw [hf9 (by decide), hv9 (by decide)] at h9
  obtain ⟨t, hrun, hok, hflags, herr, hrate, hcs, hver, hmiso, hkept⟩ := h9.committed
  have hbits : ∀ f : Byte, f ||| 0x02#8 ||| 0x01#8 = f ||| 0x03#8 := by decide
  exact ⟨t, congrArg Host.Outcome.next hrun, hok, hflags.trans (hbits s.flags), herr, hrate, hcs, hver, hmiso,
    by rw [hkept, hload]⟩

end Sys2Proof.Machine
end

section
/-! PROOF. READ and WRITE behind their gate (44_block_io.md R262, R264; 60_exceptions.md R302, R310). -/

namespace Sys2Proof.Machine

/-- A request that is answered at once: nothing lies between the two events, and nothing else moves but `SEQ`. -/
theorem respond_accept (op : BitVec 2) (sector : Word) (q : List Point) (st : Status) (s : State) :
    let t := respond st (accept op sector q s)
    t.bus.trace = s.bus.trace ++ [.req op sector, .rsp st] ∧
      t = { s with seq := [], rsp := some st, bus := { s.bus with trace := t.bus.trace } } ∧
      ∀ a, t.buf.read a = s.buf.read a :=
  ⟨List.append_assoc _ _ _, rfl, fun _ => rfl⟩

/-- Settles O25: behind a closed gate both operations are their request and the response ST_NOINIT. -/
theorem uninitialisedGate : Obligations.UninitialisedGate := by
  intro sector s hclear p hp
  have hgate : hasFlag .initialized s = false := (hasFlag_initialized s).trans hclear
  simp only [List.mem_cons, List.not_mem_nil, or_false] at hp
  rcases hp with rfl | rfl
  · exact ⟨_, congrArg Host.Outcome.next (readBody_closed (s := accept 2 sector [.read sector] s) hgate),
      respond_accept 2 sector _ .noinit s⟩
  · exact ⟨_, congrArg Host.Outcome.next (writeBody_closed (s := accept 3 sector [.write sector] s) hgate),
      respond_accept 3 sector _ .noinit s⟩

end Sys2Proof.Machine
end

section
/-! PROOF. The read-block primitive, run by itself, whatever the card answers (44_block_io.md R250 to R259). -/

namespace Sys2Proof.Machine

/-- Settles O23: `readBlock_history` with the frame of the primitive, the value it returns in `ret`. -/
theorem readBlockVerdict : Obligations.ReadBlockVerdict := by
  intro cmd arg len d s hshape
  have hlen : len = destSize d := destSize_of_shape hshape
  have hexec : exec (.readBlock cmd arg len d) s = _ := execReadBlock_fits cmd arg s hlen.le
  obtain ⟨evs, n, skip, scan, wait, payload, hi, lo, idle, htrace, hevs, hsent, hn, hrecv, hskip, hpayload, hscan, hwait,
    hidle, hfault, hcrcRx, hbuf, hcsd, hverdict⟩ := readBlock_history cmd arg len d s
  have hframe := readBlock_frame cmd arg len d s
  generalize readBlock cmd arg len d s = r at *
  have hload : destLoad d len { r.2 with ret := .bool r.1 } = destLoad d len r.2 := by cases d <;> rfl
  refine ⟨_, evs, n, skip, scan, wait, payload, hi, lo, idle, hexec, htrace, hevs, hsent, hn, hrecv, hskip, hscan, hwait,
    hpayload, hidle, hcrcRx, fun hwf => ?_, hfault, ?_, ?_, ?_, ?_⟩
  · subst hlen
    exact hload.trans (destLoad_destStore hpayload hwf hbuf hcsd)
  · rw [hload]
    rcases hverdict with ⟨hf, hr, he, hc⟩ | ⟨hf, hc, hne, hr, he⟩ | ⟨hf, hc, heq, hr, he⟩
    · exact .inl ⟨hf, congrArg Ret.bool hr, he, hc⟩
    · exact .inr (.inl ⟨hf, hc, hne, congrArg Ret.bool hr, he⟩)
    · exact .inr (.inr ⟨hf, hc, heq, congrArg Ret.bool hr, he⟩)
  · exact congrArg (fun u : State => { u with ret := .bool r.1 }) hframe
  · rintro rfl a
    exact congrArg (Memory.read · a) hbuf
  · rintro rfl
    exact hcsd

end Sys2Proof.Machine
end

section
/-! PROOF. WRITE without a response to CMD24 (44_block_io.md R265; 60_exceptions.md R301). -/

namespace Sys2Proof.Machine

section

variable {sector : Word} {s : State} {skip answer more : List Byte}

/-- What a WRITE has put into the history when the window after CMD24 is read: select, and fourteen exchanges (R265). -/
theorem writeAsked_trace_listed (hs : skip.length = 6) (ha : answer.length = 8)
    (hm : s.bus.miso = skip ++ answer ++ more) : (writeAsked sector s).bus.trace = s.bus.trace ++ ([.prepare, .cs false] ++
      List.zipWith Event.xfer ((frameBytes 24 (mapSector sector s)).toList ++ List.replicate 8 0xFF#8)
        (skip ++ answer)) := by
  have hans : Bus.answers 14 ((s.bus.emit .prepare).emit (.cs false)) = skip ++ answer :=
    Bus.answers_listed hm (by rw [List.length_append, hs, ha])
  rw [writeAsked_bus, Bus.send_eq, ← hans]
  simp [Bus.emit]

/-- A window of nothing but filler ends a WRITE at once (R265, R268). -/
theorem writeBody_silent (hi : hasFlag .initialized s = true)
    (hrb : (writeAsked sector s).rb.toList = List.replicate 8 0xFF#8) :
    writeBody sector s = raise .writeError (release (writeAsked sector s)) := by
  have hnone : ¬ testAnyResponse (writeAsked sector s).rb = true := by
    rw [testAnyResponse_iff, hrb]; simp
  rw [writeBody_eq hi, if_neg hnone]

end

/-- Settles O31: the listed window holds no response, so the WRITE ends where the window was read. -/
theorem writeUnanswered : Obligations.WriteUnanswered := by
  intro sector s skip more hflag hs hm
  have hlen : (List.replicate 8 0xFF#8).length = 8 := List.length_replicate
  obtain ⟨hrb, hmiso⟩ := writeAsked_listed (sector := sector) (s := accept 3 sector [.write sector] s) hs hlen hm
  have htrace := writeAsked_trace_listed (sector := sector) (s := accept 3 sector [.write sector] s) hs hlen hm
  have hframe := writeAsked_frame sector (accept 3 sector [.write sector] s)
  have hexec := execWrite_eq sector s
  have hi : hasFlag .initialized (accept 3 sector [.write sector] s) = true := (hasFlag_initialized s).trans hflag
  rw [writeBody_silent hi hrb] at hexec
  generalize writeAsked sector (accept 3 sector [.write sector] s) = u at *
  have herr : u.err = s.err := by rw [hframe]; rfl
  have hfb : u.fb = frameBytes 24 (mapSector sector (accept 3 sector [.write sector] s)) := by rw [hframe]
  rw [← hfb] at htrace
  refine ⟨_, hexec, rfl, congrArg (· ||| 0x40#8) herr, rfl, rfl, hmiso, ?_⟩
  have hend : (raise .writeError (release u)).bus.trace = u.bus.trace ++ [.cs true] ++ [.rsp .fail] := rfl
  rw [hend, htrace]
  simp [bracket, Bus.emit]

end Sys2Proof.Machine
end

section
/-! PROOF. Which instruction can set which bit of `ERR` (60_exceptions.md R303). -/

namespace Sys2Proof.Machine

/-- From `s` to `t` bits were OR-ed into `ERR`, none of them one of `forbidden`. -/
def ErrOred (forbidden : Byte) (s t : State) : Prop :=
  ∃ mask : Byte, t.err = s.err ||| mask ∧ mask &&& forbidden = 0#8

theorem ErrOred.of_eq {forbidden : Byte} {s t : State} (h : t.err = s.err) : ErrOred forbidden s t :=
  ⟨0#8, by rw [h, BitVec.or_zero], BitVec.zero_and⟩

theorem sendCommand_err (cmd : BitVec 6) (arg : Word) (fl : CmdFlags) (s : State) :
    (sendCommand cmd arg fl s).2.err = s.err := by rw [sendCommand_frame]

theorem checkCommand_err (cmd : BitVec 6) (arg : Word) (fl : CmdFlags) (expected m : Byte) (s : State) :
    (checkCommand cmd arg fl expected m s).2.err = s.err := by unfold checkCommand; rw [attempts_frame]

theorem deinitBody_err (s : State) : (deinitBody s).err = s.err := by
  cases hd : hasFlag .deinitialized s with
  | true => rw [deinitBody_latched hd, respond_err]
  | false => rw [deinitBody_eq hd, respond_err, setFlag_err, sendCommand_err, sendCommand_err]

/-- A read-block sets `read-error` or `crc-error` (44_block_io.md R257). -/
theorem readBlock_errOred (cmd : BitVec 6) (arg : Word) (len : Nat) (d : BlockDest) (s : State) :
    ErrOred 0xDB#8 s (readBlock cmd arg len d s).2 := by
  have hend : (blockEnd cmd arg len d s).err = s.err := by rw [blockEnd_frame]
  rw [readBlock_eq]
  rcases blockVerdict_cases len d (blockEnd cmd arg len d s) with ⟨-, h⟩ | ⟨-, -, h⟩ | ⟨-, -, h⟩ <;> rw [h]
  · exact ⟨0x20#8, congrArg (· ||| 0x20#8) hend, by decide⟩
  · exact ⟨0x04#8, congrArg (· ||| 0x04#8) hend, by decide⟩
  · exact .of_eq hend

theorem execReadBlock_errOred {cmd : BitVec 6} {arg : Word} {len : Nat} {d : BlockDest} {s t : State}
    (h : execReadBlock cmd arg len d s = .next t) : ErrOred 0xDB#8 s t := by
  unfold execReadBlock at h
  split at h <;> cases h
  exact readBlock_errOred cmd arg len d s

theorem readBody_errOred (sector : Word) (s : State) : ErrOred 0xDB#8 s (readBody sector s) := by
  cases hi : hasFlag .initialized s with
  | false => rw [readBody_closed hi]; exact .of_eq (respond_err .noinit s)
  | true => rw [readBody_eq hi]; exact readBlock_errOred 17 _ Config.sectorSize .buf { s with arg := mapSector sector s }

/-- A WRITE sets `write-error` (44_block_io.md R265, R267). -/
theorem writeBody_errOred (sector : Word) (s : State) : ErrOred 0xBF#8 s (writeBody sector s) := by
  cases hi : hasFlag .initialized s with
  | false => rw [writeBody_closed hi]; exact .of_eq (respond_err .noinit s)
  | true =>
    obtain ⟨u, _, hu, -, -, -, -, hend⟩ := writeBody_cases (sector := sector) hi
    have herr : u.err = s.err := by rw [hu]
    rcases hend with h | h <;> rw [h]
    · exact .of_eq herr
    · exact ⟨0x40#8, congrArg (· ||| 0x40#8) herr, by decide⟩

/-- INIT sets the bit of the step at which it fails (43_init.md R201), and no step fails with `write-error`. -/
theorem runInit_errOred (s : State) : ErrOred 0x40#8 s (runInit initSteps s) := by
  obtain ⟨st, hend⟩ := runInit_end initMiddle (by decide) (poweredUp s) rfl
  rw [runInit_poweredUp]
  rcases hend.cause with ⟨-, -, herr, -⟩ | ⟨-, -, ⟨m, hm, herr⟩, -⟩ | ⟨-, -, herr, -⟩
  · exact .of_eq herr
  · have hclear : ∀ m ∈ [0x01#8, 0x02#8, 0x04#8, 0x08#8, 0x10#8, 0x20#8, 0x80#8], m &&& 0x40#8 = 0#8 := by decide
    exact ⟨m, herr, hclear m hm⟩
  · exact .of_eq herr

/-- Settles O52: INIT, READ, WRITE and the read-block primitive each OR the bits of their own causes into `ERR`; no other
instruction writes it. -/
theorem whoSetsWhichErrBit : Obligations.WhoSetsWhichErrBit := by
  intro i s t h
  cases i with
  | init sector => cases h; exact runInit_errOred (accept 0 sector (initSteps.map .init) s)
  | read sector => cases h; exact readBody_errOred sector (accept 2 sector [.read sector] s)
  | write sector => cases h; exact writeBody_errOred sector (accept 3 sector [.write sector] s)
  | readBlock => exact execReadBlock_errOred h
  | deinit sector => cases h; exact ErrOred.of_eq (deinitBody_err (accept 1 sector [.deinit] s))
  | sendCommand cmd arg fl => cases h; exact ErrOred.of_eq (sendCommand_err cmd arg fl s)
  | checkCommand cmd arg fl expected m => cases h; exact ErrOred.of_eq (checkCommand_err cmd arg fl expected m s)
  | _ => cases h; exact ErrOred.of_eq rfl

end Sys2Proof.Machine
end

section
/-! PROOF. The mode of the block changes with a committed INIT and with reset only (60_exceptions.md R310, R311). -/

namespace Sys2Proof.Machine

/-! ## What leaves a field of `FLAGS` alone -/

theorem hasFlag_congr {f : Flag} {s t : State} (h : t.flags = s.flags) : hasFlag f t = hasFlag f s := by
  rw [hasFlag, h, hasFlag]

/-- Bits OR-ed into `FLAGS` leave the fields alone that they are no bits of. -/
theorem hasFlag_of_or {f : Flag} {m : Byte} {s t : State} (h : t.flags = s.flags ||| m) (hm : m &&& f.mask = 0#8) :
    hasFlag f t = hasFlag f s := by
  rw [hasFlag, h, BitVec.and_or_distrib_right, hm, BitVec.or_zero, hasFlag]

theorem sendCommand_flags (cmd : BitVec 6) (arg : Word) (fl : CmdFlags) (s : State) :
    (sendCommand cmd arg fl s).2.flags = s.flags := by rw [sendCommand_frame]

theorem attempts_flags (cmd : BitVec 6) (arg : Word) (fl : CmdFlags) (ok : Byte → State → Bool) (n : Nat) (s : State) :
    (attempts cmd arg fl ok n s).2.flags = s.flags := by rw [attempts_frame]

theorem checkCommand_flags (cmd : BitVec 6) (arg : Word) (fl : CmdFlags) (expected m : Byte) (s : State) :
    (checkCommand cmd arg fl expected m s).2.flags = s.flags := attempts_flags cmd arg fl _ _ { s with att := 0#8 }

theorem readBlock_flags (cmd : BitVec 6) (arg : Word) (len : Nat) (d : BlockDest) (s : State) :
    (readBlock cmd arg len d s).2.flags = s.flags := by rw [readBlock_frame]

theorem execReadBlock_flags {cmd : BitVec 6} {arg : Word} {len : Nat} {d : BlockDest} {s t : State}
    (h : execReadBlock cmd arg len d s = .next t) : t.flags = s.flags := by
  unfold execReadBlock at h
  split at h <;> cases h
  exact readBlock_flags cmd arg len d s

/-- No instruction but a host request writes `FLAGS`. -/
theorem exec_flags {i : Instr} {s t : State} (hi : i.isRequest = false) (h : exec i s = .next t) :
    t.flags = s.flags := by
  cases i with
  | init | deinit | read | write => cases hi
  | sendCommand cmd arg fl => cases h; exact sendCommand_flags cmd arg fl s
  | checkCommand cmd arg fl expected m => cases h; exact checkCommand_flags cmd arg fl expected m s
  | readBlock => exact execReadBlock_flags h
  | _ => cases h; rfl

/-! ## The mode in a host operation -/

theorem readBody_initialized (sector : Word) (s : State) :
    hasFlag .initialized (readBody sector s) = hasFlag .initialized s := by
  apply hasFlag_congr
  cases hi : hasFlag .initialized s with
  | false => rw [readBody_closed hi, respond_flags]
  | true => rw [readBody_eq hi, respond_flags, readBlock_flags]

theorem writeBody_initialized (sector : Word) (s : State) :
    hasFlag .initialized (writeBody sector s) = hasFlag .initialized s := by
  apply hasFlag_congr
  cases hi : hasFlag .initialized s with
  | false => rw [writeBody_closed hi, respond_flags]
  | true =>
    obtain ⟨u, _, hu, -, -, -, -, hend⟩ := writeBody_cases (sector := sector) hi
    have hflags : u.flags = s.flags := by rw [hu]
    rcases hend with h | h <;> rw [h]
    · exact hflags
    · exact hflags

/-- DEINIT sets its own latch only (43_init.md R222). -/
theorem deinitBody_initialized (s : State) : hasFlag .initialized (deinitBody s) = hasFlag .initialized s := by
  cases hd : hasFlag .deinitialized s with
  | true => rw [deinitBody_latched hd]; exact hasFlag_congr (respond_flags .ok s)
  | false =>
    refine hasFlag_of_or (m := Flag.deinitialized.mask) ?_ (by decide)
    rw [deinitBody_eq hd, respond_flags, setFlag_flags, sendCommand_flags, sendCommand_flags]

/-! ## The mode in INIT -/

theorem orRaise_flags (c : Cause) (r : Bool × State) : (orRaise c r).state.flags = r.2.flags := by
  unfold orRaise; split <;> rfl

theorem classify_flags (s : State) : (classify s).state.flags = s.flags := by
  unfold classify
  split
  · rfl
  · split <;> rfl

theorem noteCapacity_initialized (s : State) : hasFlag .initialized (noteCapacity s) = hasFlag .initialized s := by
  unfold noteCapacity
  split
  · exact hasFlag_of_or (setFlag_flags .highCapacity s) (by decide)
  · rfl

/-- Every step of INIT but its commit leaves the mode alone. -/
theorem initStep_initialized {k : InitStep} (hk : k ≠ .commit) (s : State) :
    hasFlag .initialized (initStep k s).state = hasFlag .initialized s := by
  cases k with
  | powerUp => rfl
  | goIdle | crcOn | blockLen => exact hasFlag_congr ((orRaise_flags _ _).trans (checkCommand_flags _ _ _ _ _ s))
  | voltage => exact hasFlag_congr ((orRaise_flags _ _).trans (attempts_flags _ _ _ _ _ { s with att := 0#8 }))
  | ifCond =>
    apply hasFlag_congr
    simp only [initStep, initIfCond]
    split
    · exact (classify_flags _).trans (checkCommand_flags _ _ _ _ _ s)
    · exact (raise_flags _ _).trans (checkCommand_flags _ _ _ _ _ s)
  | opCond =>
    refine hasFlag_congr ((orRaise_flags _ _).trans ?_)
    split <;> exact checkCommand_flags _ _ _ _ _ s
  | capacity =>
    simp only [initStep, initCapacity]
    split
    · split <;> rw [StepEnd.state]
      · rw [noteCapacity_initialized]; exact hasFlag_congr (checkCommand_flags _ _ _ _ _ s)
      · exact hasFlag_congr ((raise_flags _ _).trans (checkCommand_flags _ _ _ _ _ s))
    · rfl
  | writeProtect =>
    have hflags := readBlock_flags 9 argNone Config.csdSize .csd s
    simp only [initStep, initWriteProtect]
    split
    · split <;> rw [StepEnd.state]
      · refine hasFlag_of_or (m := Flag.writeProtected.mask) ?_ (by decide)
        rw [respond_flags, setFlag_flags, hflags]
      · exact hasFlag_congr hflags
    · exact hasFlag_congr ((respond_flags _ _).trans hflags)
  | commit => exact absurd rfl hk

/-- An INIT that does not answer ST_OK leaves the mode as it was. -/
theorem runInit_initialized (s : State) : (runInit initSteps s).rsp = some .ok ∨
    hasFlag .initialized (runInit initSteps s) = hasFlag .initialized s := by
  obtain ⟨st, hend⟩ := runInit_end initMiddle (by decide) (poweredUp s) rfl
  have hpower : hasFlag .initialized (poweredUp s) = hasFlag .initialized s := rfl
  rw [runInit_poweredUp, ← hpower]
  rcases hend.cause with ⟨rfl, -⟩ | ⟨-, hflags | hflags, -⟩ | ⟨-, hflags | hflags, -⟩
  · exact .inl hend.rsp
  · exact .inr (hasFlag_congr hflags)
  · exact .inr (hasFlag_of_or hflags (by decide))
  · exact .inr (hasFlag_of_or hflags (by decide))
  · exact .inr (hasFlag_of_or hflags (by decide))

/-! ## The mode in a step -/

theorem exec_request_initialized {op : BitVec 2} {sector : Word} {s t : State}
    (h : exec (decodeRequest op sector) s = .next t) :
    (op = 0#2 ∧ t.rsp = some .ok) ∨ hasFlag .initialized t = hasFlag .initialized s := by
  unfold decodeRequest at h
  split at h <;> cases h
  next hop => exact (runInit_initialized (accept 0 sector (initSteps.map .init) s)).imp_left fun hok =>
    ⟨BitVec.eq_of_toNat_eq hop, hok⟩
  next => exact .inr (deinitBody_initialized (accept 1 sector [.deinit] s))
  next => exact .inr (readBody_initialized sector (accept 2 sector [.read sector] s))
  next => exact .inr (writeBody_initialized sector (accept 3 sector [.write sector] s))

theorem runPoint_initialized {p : Point} {s t : State} (h : runPoint p s = .next t) :
    (p = .init .commit ∧ t.rsp = some .ok) ∨ hasFlag .initialized t = hasFlag .initialized s := by
  have unit : ∀ {i : Instr}, runUnit i s = .next t → hasFlag .initialized t = hasFlag .initialized s := fun hu =>
    hasFlag_congr (exec_flags (runUnit_next hu).1 (runUnit_next hu).2)
  cases p with
  | init k =>
    cases h
    by_cases hk : k = .commit
    · subst hk; exact .inl ⟨rfl, rfl⟩
    · exact .inr (initStep_initialized hk s)
  | deinit => cases h; exact .inr (deinitBody_initialized s)
  | read sector => cases h; exact .inr (readBody_initialized sector s)
  | write sector => cases h; exact .inr (writeBody_initialized sector s)
  | call i => exact .inr (unit h)
  | unit f bs =>
    cases hd : decode f bs with
    | ok i => rw [runPoint_unit s hd] at h; exact .inr (unit h)
    | error e => rw [runPoint_undecodable s hd] at h; cases h

theorem applyReset_initialized (s : State) : hasFlag .initialized (applyReset s) = false := by
  show (0x00#8 &&& 0x01#8 != 0#8) = false
  decide

/-- A step that changes the mode is INIT's commit, an INIT that answers ST_OK, or a reset. -/
theorem step_initialized {s t : State} (h : step s = .next t) :
    (t.rsp = some .ok ∧ ((∃ rest, s.seq = .init .commit :: rest) ∨
      (s.seq = [] ∧ ∃ sector acts, s.host = .request 0 sector :: acts))) ∨
    (s.seq = [] ∧ (∃ acts, s.host = .reset :: acts) ∧ hasFlag .initialized t = false) ∨
    hasFlag .initialized t = hasFlag .initialized s := by
  rcases step_cases h with ⟨hbusy, -⟩ | ⟨hidle, ⟨-, rfl⟩ | ⟨acts, ⟨hh, rfl⟩ | ⟨_, _, -, -, rfl⟩ | ⟨op, sector, hh, hx⟩⟩⟩
  · obtain ⟨p, rest, hp⟩ := List.exists_cons_of_ne_nil hbusy
    rw [step_of_point hp] at h
    rcases runPoint_initialized h with ⟨rfl, hok⟩ | hsame
    · exact .inl ⟨hok, .inl ⟨rest, hp⟩⟩
    · exact .inr (.inr hsame)
  · exact .inr (.inr rfl)
  · exact .inr (.inl ⟨hidle, ⟨acts, hh⟩, applyReset_initialized _⟩)
  · exact .inr (.inr rfl)
  · rcases exec_request_initialized hx with ⟨rfl, hok⟩ | hsame
    · exact .inl ⟨hok, .inr ⟨hidle, sector, acts, hh⟩⟩
    · exact .inr (.inr hsame)

theorem BitsKept.getLsbD {a b : Byte} (h : BitsKept a b) {k : Nat} (hk : a.getLsbD k = true) : b.getLsbD k = true := by
  have hand : (a &&& b).getLsbD k = true := by rw [h, hk]
  rw [BitVec.getLsbD_and, hk] at hand
  exact hand

/-- Settles O53: upwards by what a step that changes the mode is, downwards because only reset lowers a bit. -/
theorem modeTransitions : Obligations.ModeTransitions := by
  intro s t h
  refine ⟨fun hclear hset => ?_, fun hset hclear => ?_⟩
  · rw [← hasFlag_initialized] at hclear hset
    rcases step_initialized h with hup | ⟨-, -, hdown⟩ | hsame
    · exact hup
    · exact Bool.noConfusion (hdown.symm.trans hset)
    · exact Bool.noConfusion (hclear.symm.trans (hsame.symm.trans hset))
  · rcases statusBitsOnlyGrow s t h with ⟨hkept, -⟩ | hreset
    · exact Bool.noConfusion (hclear.symm.trans (hkept.getLsbD hset))
    · exact hreset

end Sys2Proof.Machine
end

section
/-! PROOF. What a reset leaves and what it does not touch (10_state.md R38; 70_reset_and_hazards.md R340, R341). -/

namespace Sys2Proof.Machine

/-- The registers R38 gives a reset value hold it. -/
structure ResetValues (s : State) : Prop where
  flags : s.flags = 0x00#8
  err : s.err = 0x00#8
  idle : s.seq = []
  deselected : s.cs = true
  rate : s.rate = .none
  version : s.ver = 0#2

theorem applyReset_resetValues (s : State) : ResetValues (applyReset s) := ⟨rfl, rfl, rfl, rfl, rfl, rfl⟩

/-- `State.reset` is what a reset makes of it. -/
theorem applyReset_reset : applyReset State.reset = State.reset := rfl

/-- A reset records no event: the card's side stays with its history. -/
@[simp] theorem applyReset_bus (s : State) : (applyReset s).bus = s.bus := rfl
@[simp] theorem applyReset_host (s : State) : (applyReset s).host = s.host := rfl
@[simp] theorem applyReset_cfg (s : State) : (applyReset s).cfg = s.cfg := rfl

theorem step_of_reset {s : State} {acts : List HostAct} (hq : s.seq = []) (hh : s.host = .reset :: acts) :
    step s = .next (applyReset { s with host := acts }) := step_of_host hq hh

/-- Settles O59: a reset of any state gives the registers of R38 and keeps the environment, and the state after reset is
a reset's result itself; an idle block with no action of the host waits. -/
theorem resetState : Obligations.ResetState := by
  have h0 : ResetValues State.reset := applyReset_reset ▸ applyReset_resetValues State.reset
  refine ⟨h0.flags, h0.err, h0.idle, h0.deselected, h0.rate, h0.version, fun s acts hq hh => ?_,
    fun s hq hh => step_of_waiting hq hh⟩
  have h := applyReset_resetValues { s with host := acts }
  exact ⟨_, step_of_reset hq hh, h.flags, h.err, h.idle, h.deselected, h.rate, h.version, applyReset_bus _,
    applyReset_host _, applyReset_cfg _⟩

end Sys2Proof.Machine
end
